-- ==== Sys2Proof/Word.lean ====
section
/-! DEFINITION. The word of the block: 32 bits (00_scope.md R9 `W`, R12). -/

namespace Sys2Proof

/-- A word, and a Value: "an unsigned integer representable in 32 bits" (R17). -/
abbrev Word := BitVec 32

end Sys2Proof
end

