-- ==== Sys2Proof/Machine/Tables.lean ====
section
/-! DEFINITION. The fixed numbers and the read-only tables of the block (00_scope.md R9, 10_state.md R32 to R34,
30_encoding.md R86). -/

namespace Sys2Proof.Machine

/-- `GROUP`: Values handled by one `PACK` or `UNPACK` (R9). -/
def group : Nat := 32
/-- `BLOCK`: Values of a PForDelta block (R9, R190). -/
def block : Nat := 128
/-- `EXC_MAX`: the exception budget (R9, R190). -/
def excMax : Nat := 12
/-- `PFD_MAX_WORDS`: the largest PForDelta output, and the capacity `PFDENC` reserves (R9, R56). -/
def pfdMaxWords : Nat := 129
/-- `S16_PAYLOAD`: payload bits of a codeword (R9). -/
def s16Payload : Nat := 28

/-- The run `count×width` of a row of the layout table (R86). -/
def run (count width : Nat) : List Nat := List.replicate count width

/-- `S16_LAYOUT` (R32, R86): the slot widths of each layout, most significant slot first. -/
def s16Layouts : List (List Nat) :=
  [run 28 1,
   run 7 2 ++ run 14 1,
   run 7 1 ++ run 7 2 ++ run 7 1,
   run 14 1 ++ run 7 2,
   run 14 2,
   run 1 4 ++ run 8 3,
   run 1 3 ++ run 4 4 ++ run 3 3,
   run 7 4,
   run 4 5 ++ run 2 4,
   run 2 4 ++ run 4 5,
   run 3 6 ++ run 2 5,
   run 2 5 ++ run 3 6,
   run 4 7,
   run 1 10 ++ run 2 9,
   run 2 14,
   run 1 28]

/-- The slot widths `wd(k, 0 ..)` of layout `k` (R86); no layout for `k ≥ 16`. -/
def s16Layout (k : Nat) : List Nat := s16Layouts.getD k []

/-- `N(k)`: the number of slots of layout `k` (R86). -/
def s16Slots (k : Nat) : Nat := (s16Layout k).length

/-- `WIDTH_TABLE` (R33): 17 widths. -/
def widthTable : List Nat := [0, 1, 2, 3, 4, 5, 6, 7, 8, 9, 10, 11, 12, 13, 16, 20, 32]

/-- `CAND[k] = WIDTH_TABLE[k + 2]`, the width that `WIDX = k` names (R33, R91). -/
def cand (k : Nat) : Nat := widthTable.getD (k + 2) 0

/-- `CAT_WIDTH[c]` (R34, R92): 8, 16, 32 for `c` = 0, 1, 2. -/
def catWidth (c : Nat) : Nat := 8 <<< c

end Sys2Proof.Machine
end

