-- ==== Sys2Proof/Syntax.lean ====
section
/-! DEFINITION. The encoded words of the block, one constructor per row of `spec/opcode_table.json`. -/

namespace Sys2Proof

/-- One encoded word (30_encoding.md R80): a command word of format `CMDW` (R81, R82), a Simple16 codeword of format
`S16W.k` (R85) given by its slot values, most significant slot first, or a PForDelta header `PFDH` (R90).
What a data word (`S16W.k`, `PFDH`) does when it is run is said at its meaning and in log 9. -/
inductive Instr where
  /-- `PACK bits` (R129). -/
  | pack (bits : BitVec 6)
  /-- `UNPACK bits` (R130). -/
  | unpack (bits : BitVec 6)
  /-- `S16ENC` (R159). -/
  | s16enc
  /-- `S16DEC` (R167). -/
  | s16dec
  /-- `PFDENC` (R204). -/
  | pfdenc
  /-- `PFDDEC` (R215). -/
  | pfddec
  /-- `S16W.0`: 28 slots of 1 bit. -/
  | s16w0 (slots : List Word)
  /-- `S16W.1`: 7 slots of 2 bits, 14 of 1. -/
  | s16w1 (slots : List Word)
  /-- `S16W.2`: 7 slots of 1 bit, 7 of 2, 7 of 1. -/
  | s16w2 (slots : List Word)
  /-- `S16W.3`: 14 slots of 1 bit, 7 of 2. -/
  | s16w3 (slots : List Word)
  /-- `S16W.4`: 14 slots of 2 bits. -/
  | s16w4 (slots : List Word)
  /-- `S16W.5`: a slot of 4 bits, 8 of 3. -/
  | s16w5 (slots : List Word)
  /-- `S16W.6`: a slot of 3 bits, 4 of 4, 3 of 3. -/
  | s16w6 (slots : List Word)
  /-- `S16W.7`: 7 slots of 4 bits. -/
  | s16w7 (slots : List Word)
  /-- `S16W.8`: 4 slots of 5 bits, 2 of 4. -/
  | s16w8 (slots : List Word)
  /-- `S16W.9`: 2 slots of 4 bits, 4 of 5. -/
  | s16w9 (slots : List Word)
  /-- `S16W.10`: 3 slots of 6 bits, 2 of 5. -/
  | s16w10 (slots : List Word)
  /-- `S16W.11`: 2 slots of 5 bits, 3 of 6. -/
  | s16w11 (slots : List Word)
  /-- `S16W.12`: 4 slots of 7 bits. -/
  | s16w12 (slots : List Word)
  /-- `S16W.13`: a slot of 10 bits, 2 of 9. -/
  | s16w13 (slots : List Word)
  /-- `S16W.14`: 2 slots of 14 bits. -/
  | s16w14 (slots : List Word)
  /-- `S16W.15`: one slot of 28 bits. -/
  | s16w15 (slots : List Word)
  /-- `PFDH`: `START` [9:0], `CAT` [11:10], `WIDX` [15:12]; bits [31:16] are ignored and written 0 (R90). -/
  | pfdh (start : BitVec 10) (cat : BitVec 2) (widx : BitVec 4)
  deriving DecidableEq, Repr

end Sys2Proof
end

