-- ==== Sys2Proof/WellFormed.lean ====
section
/-! DEFINITION. Which terms of `Instr` are encoded words of the spec. -/

namespace Sys2Proof

/-- The slots of a codeword of layout `k`: one for each slot of the layout, each below `2^width` (30_encoding.md R86,
R87, R89). -/
def slotsFit (k : Nat) (slots : List Word) : Bool :=
  slots.length == Machine.s16Slots k && (slots.zip (Machine.s16Layout k)).all fun (v, w) => v.toNat < 2 ^ w

/-- A word the spec gives a meaning: `BITS ≤ 32` for `PACK` and `UNPACK` (R82); the slots of a codeword fit its
layout; a header names a width and a category that exist (R94). -/
def wellFormed : Instr → Bool
  | .pack bits => bits.toNat ≤ 32
  | .unpack bits => bits.toNat ≤ 32
  | .s16enc => true
  | .s16dec => true
  | .pfdenc => true
  | .pfddec => true
  | .s16w0 slots => slotsFit 0 slots
  | .s16w1 slots => slotsFit 1 slots
  | .s16w2 slots => slotsFit 2 slots
  | .s16w3 slots => slotsFit 3 slots
  | .s16w4 slots => slotsFit 4 slots
  | .s16w5 slots => slotsFit 5 slots
  | .s16w6 slots => slotsFit 6 slots
  | .s16w7 slots => slotsFit 7 slots
  | .s16w8 slots => slotsFit 8 slots
  | .s16w9 slots => slotsFit 9 slots
  | .s16w10 slots => slotsFit 10 slots
  | .s16w11 slots => slotsFit 11 slots
  | .s16w12 slots => slotsFit 12 slots
  | .s16w13 slots => slotsFit 13 slots
  | .s16w14 slots => slotsFit 14 slots
  | .s16w15 slots => slotsFit 15 slots
  | .pfdh _ cat widx => cat ≠ 3 && widx ≠ 15

end Sys2Proof
end

