-- ==== Sys2Proof/Decode.lean ====
section
/-! DEFINITION. The decoder, total on every word and rejecting by name, and the encoder, from the encoding tables of
30_encoding.md. -/

namespace Sys2Proof

/-- The three kinds of encoded word (30_encoding.md R80). Which one a word is, is never decided from the word. -/
inductive Format where
  /-- A word written to `CMD` (R81). -/
  | cmdw
  /-- A word in the input range of `S16DEC` (R85). -/
  | s16w
  /-- The first input word of `PFDDEC` (R90). -/
  | pfdh
  deriving DecidableEq, Repr

/-- Why a word is no encoded word of its format (R84, R94). -/
inductive Reject where
  /-- `c[31:10] ≠ 0` (R84). -/
  | cmdReserved
  /-- `OP` is 0 or at least 7 (R84). -/
  | cmdOp
  /-- `BITS > 32` for `PACK` or `UNPACK` (R84). -/
  | cmdBits
  /-- `BITS ≠ 0` for an operation without a width (R84). -/
  | cmdBitsNotZero
  /-- `CAT = 3` or `WIDX = 15` (R94). -/
  | headerReserved
  deriving DecidableEq, Repr

/-! ### Bits -/

/-- `mask(k) = 2^k - 1` (00_scope.md R13). -/
def mask (k : Nat) : Word := BitVec.ofNat 32 (2 ^ k - 1)

/-- `w[hi:lo]` read as a natural (00_scope.md R13). -/
def field (w : Word) (hi lo : Nat) : Nat := w.toNat / 2 ^ lo % 2 ^ (hi - lo + 1)

/-! ### The command word -/

/-- Reading a command word (R81 to R84). -/
def decodeCmd (c : Word) : Except Reject Instr :=
  let bits := c.extractLsb' 4 6
  let noWidth (i : Instr) : Except Reject Instr := if bits = 0 then .ok i else .error .cmdBitsNotZero
  if c.extractLsb' 10 22 ≠ 0 then .error .cmdReserved
  else match (c.extractLsb' 0 4).toNat with
    | 1 => if bits.toNat ≤ 32 then .ok (.pack bits) else .error .cmdBits
    | 2 => if bits.toNat ≤ 32 then .ok (.unpack bits) else .error .cmdBits
    | 3 => noWidth .s16enc
    | 4 => noWidth .s16dec
    | 5 => noWidth .pfdenc
    | 6 => noWidth .pfddec
    | _ => .error .cmdOp

/-- Writing a command word: `OP` in [3:0], `BITS` in [9:4] (R81). -/
def encodeCmd (op : Nat) (bits : BitVec 6) : Word := BitVec.ofNat 32 op ||| (bits.setWidth 32 <<< 4)

/-! ### The Simple16 codeword -/

/-- The slots of the widths `ws`, cut out of `w` from bit `top - 1` downward (R85, R87). -/
def splitSlots (w : Word) : Nat → List Nat → List Word
  | _, [] => []
  | top, wd :: ws => ((w >>> (top - wd)) &&& mask wd) :: splitSlots w (top - wd) ws

/-- The selector `w[31:28]` (R85). -/
def s16Sel (w : Word) : Nat := (w.extractLsb' 28 4).toNat

/-- `s16_split(w)`: the slot values of the codeword `w` (41_simple16.md R161). -/
def s16Split (w : Word) : List Word := splitSlots w Machine.s16Payload (Machine.s16Layout (s16Sel w))

/-- The values `vs` in the slots of the widths `ws` from bit `top - 1` downward; slots without a value stay zero
(R88, 41_simple16.md R154). -/
def placeSlots : Nat → List Nat → List Word → Word
  | top, wd :: ws, v :: vs => (v <<< (top - wd)) ||| placeSlots (top - wd) ws vs
  | _, _, _ => 0

/-- `format`: the codeword of layout `k` whose leading slots hold `vs` (41_simple16.md R154). -/
def s16Format (k : Nat) (vs : List Word) : Word :=
  (BitVec.ofNat 32 k <<< 28) ||| placeSlots Machine.s16Payload (Machine.s16Layout k) vs

/-- The codeword of selector `k` with the slot values `slots`. -/
def s16Instr (k : Nat) (slots : List Word) : Instr :=
  match k with
  | 0 => .s16w0 slots
  | 1 => .s16w1 slots
  | 2 => .s16w2 slots
  | 3 => .s16w3 slots
  | 4 => .s16w4 slots
  | 5 => .s16w5 slots
  | 6 => .s16w6 slots
  | 7 => .s16w7 slots
  | 8 => .s16w8 slots
  | 9 => .s16w9 slots
  | 10 => .s16w10 slots
  | 11 => .s16w11 slots
  | 12 => .s16w12 slots
  | 13 => .s16w13 slots
  | 14 => .s16w14 slots
  | _ => .s16w15 slots

/-- Reading a codeword: every word is one (R89). -/
def decodeS16w (w : Word) : Instr := s16Instr (s16Sel w) (s16Split w)

/-! ### The PForDelta header -/

/-- Whether the header fields are reserved: `WIDX = 15` or `CAT = 3` (R94). -/
def headerReserved (cat : BitVec 2) (widx : BitVec 4) : Bool := widx = 15 || cat = 3

/-- Reading a header (R90, 42_pfordelta.md R210): bits [31:16] are ignored, the reserved fields rejected. -/
def decodePfdh (h : Word) : Except Reject Instr :=
  let cat := h.extractLsb' 10 2
  let widx := h.extractLsb' 12 4
  if headerReserved cat widx then .error .headerReserved else .ok (.pfdh (h.extractLsb' 0 10) cat widx)

/-- Writing a header: `(WIDX << 12) | (CAT << 10) | START` (R90). -/
def encodePfdh (start : BitVec 10) (cat : BitVec 2) (widx : BitVec 4) : Word :=
  (widx.setWidth 32 <<< 12) ||| (cat.setWidth 32 <<< 10) ||| start.setWidth 32

/-! ### All formats -/

/-- Reading a word as a word of the given format. -/
def decode (f : Format) (w : Word) : Except Reject Instr :=
  match f with
  | .cmdw => decodeCmd w
  | .s16w => .ok (decodeS16w w)
  | .pfdh => decodePfdh w

/-- The format of an encoded word. -/
def formatOf : Instr → Format
  | .pack _ => .cmdw
  | .unpack _ => .cmdw
  | .s16enc => .cmdw
  | .s16dec => .cmdw
  | .pfdenc => .cmdw
  | .pfddec => .cmdw
  | .s16w0 _ => .s16w
  | .s16w1 _ => .s16w
  | .s16w2 _ => .s16w
  | .s16w3 _ => .s16w
  | .s16w4 _ => .s16w
  | .s16w5 _ => .s16w
  | .s16w6 _ => .s16w
  | .s16w7 _ => .s16w
  | .s16w8 _ => .s16w
  | .s16w9 _ => .s16w
  | .s16w10 _ => .s16w
  | .s16w11 _ => .s16w
  | .s16w12 _ => .s16w
  | .s16w13 _ => .s16w
  | .s16w14 _ => .s16w
  | .s16w15 _ => .s16w
  | .pfdh _ _ _ => .pfdh

/-- The word of an instruction (R81, R82, R85 to R88, R90). -/
def encode : Instr → Word
  | .pack bits => encodeCmd 1 bits
  | .unpack bits => encodeCmd 2 bits
  | .s16enc => encodeCmd 3 0
  | .s16dec => encodeCmd 4 0
  | .pfdenc => encodeCmd 5 0
  | .pfddec => encodeCmd 6 0
  | .s16w0 slots => s16Format 0 slots
  | .s16w1 slots => s16Format 1 slots
  | .s16w2 slots => s16Format 2 slots
  | .s16w3 slots => s16Format 3 slots
  | .s16w4 slots => s16Format 4 slots
  | .s16w5 slots => s16Format 5 slots
  | .s16w6 slots => s16Format 6 slots
  | .s16w7 slots => s16Format 7 slots
  | .s16w8 slots => s16Format 8 slots
  | .s16w9 slots => s16Format 9 slots
  | .s16w10 slots => s16Format 10 slots
  | .s16w11 slots => s16Format 11 slots
  | .s16w12 slots => s16Format 12 slots
  | .s16w13 slots => s16Format 13 slots
  | .s16w14 slots => s16Format 14 slots
  | .s16w15 slots => s16Format 15 slots
  | .pfdh start cat widx => encodePfdh start cat widx

/-- The instruction read from a word of the opcode table's numbering. The table numbers the words of three formats in
one space, and the format of a word comes from its place, not its bits (R80); here there is no place, so a legal
command word is read as a command and any other word as a Simple16 codeword (log 10). Every encoded word has 32 bits
(R80), so any other length is refused. -/
def decodeTableWord (nbits w : Nat) : Option Instr :=
  if nbits = 32 ∧ w < 2 ^ 32 then
    match decode .cmdw (BitVec.ofNat 32 w) with
    | .ok i => some i
    | .error _ => (decode .s16w (BitVec.ofNat 32 w)).toOption
  else none

end Sys2Proof
end

