-- ==== Sys2Proof/Config.lean ====
section
/-! DEFINITION. What the spec leaves open: the free words, and the one open parameter's value in `State.reset`. -/

namespace Sys2Proof.Config

/-- The free words. `freeWord d a` is the word that draw number `d` gives word address `a` where the spec says the
word there is unspecified: memory after reset (10_state.md R38, 93 U9) and the reserved but unused output words of
`S16ENC` and `PFDENC` (20_memory.md R58, 93 U7). It has no body: nothing can be proved of its values. Logs 2, 7. -/
opaque freeWord : Nat → Nat → Word

/-- `MEM_WORDS` in `State.reset`. The spec leaves the parameter open (00_scope.md R10); its example programs use
4096 (95_test_vectors.md). DESIGN CHOICE, log 3: statements hold for every value of the parameter. -/
def resetMemWords : Nat := 4096

end Sys2Proof.Config
end

