-- ==== Sys2Proof/Machine/State.lean ====
section
/-! DEFINITION. The state of the block as plain data, the reasons a step can stop, and the state after reset. -/

namespace Sys2Proof.Machine

/-- The words of `MEM` that the host or an operation has written since the latest reset, with their word addresses
(10_state.md R21, R38). The unit is the 32-bit word: the block has no bytes (20_memory.md R70; log 1). Canonical form:
`Memory.wf`. -/
abbrev Memory := List (Nat × Word)

/-- One step of the host (10_state.md R39, 20_memory.md R64), or the reset event (70_reset_and_hazards.md R270). -/
inductive HostStep where
  /-- `HostRegWrite(idx, v)`. -/
  | regWrite (idx : Nat) (v : Word)
  /-- `HostRegRead(idx)`. -/
  | regRead (idx : Nat)
  /-- `HostMemWrite(a, v)`. -/
  | memWrite (a : Nat) (v : Word)
  /-- `HostMemRead(a)`. -/
  | memRead (a : Nat)
  /-- The reset input. -/
  | reset
  deriving DecidableEq, Repr

/-- The errors an operation can end with (60_exceptions.md R241). None of them stops the machine. -/
inductive OpError where
  /-- `E_ILLEGAL` (R245). -/
  | illegal
  /-- `E_BOUNDS` (R246). -/
  | bounds
  /-- `E_OVERLAP` (R247). -/
  | overlap
  /-- `E_S16_RANGE` (R248). -/
  | s16Range
  /-- `E_PFD_HEADER` (R249). -/
  | pfdHeader
  deriving DecidableEq, Repr

/-- The state of the block (10_state.md R21, R22, R36) and, below it, the model's own fields. -/
structure State where
  /-- `MEM` (R21): the words written since the latest reset. -/
  mem : Memory
  /-- `MEM_WORDS` (00_scope.md R10): the size of `MEM`. No step changes it. Log 3. -/
  memWords : Nat
  /-- Register 0, `CMD` (R25). -/
  cmd : Word
  /-- Register 1, `SRC` (R26). -/
  src : Word
  /-- Register 2, `DST` (R27). -/
  dst : Word
  /-- Register 3, `COUNT` (R28). -/
  count : Word
  /-- Register 4, `STATUS` (R29). -/
  status : Word
  /-- Register 5, `RESULT` (R30). -/
  result : Word
  /-- The host steps not yet performed, first one first (20_memory.md R65). Log 4. -/
  pending : List HostStep
  /-- The word that the latest host read returned (R39, 20_memory.md R64). Log 6. -/
  reply : Option Word
  /-- How many draws of free words there have been (20_memory.md R58). Log 7. -/
  draws : Nat
  /-- The draw that gave `MEM` its unspecified contents at the latest reset (R38). Log 8. -/
  epoch : Nat
  deriving DecidableEq, Repr

/-- Why the machine stops. -/
inductive Fault where
  /-- The host accesses memory at `a`, which is no valid address. Raised by a `memWrite` or `memRead` step of the
  host, never by an operation: the spec defines no such step (20_memory.md R64). Safe: the machine stops where the
  spec says nothing. Log 12. -/
  | hostAddressInvalid (a : Nat)
  deriving DecidableEq, Repr

/-- Why a word has no meaning. -/
inductive Refusal where
  /-- Raised by `exec` for an instruction without a meaning; no arm of `exec` raises it now. Safe. -/
  | notModelled (mnemonic : String)
  deriving DecidableEq, Repr

/-- The state after reset of a block with `memWords` words of memory (10_state.md R38): the six registers 0, no word
of memory with a known value. The model's own fields: no host step waiting, nothing read yet, draw 0 taken for the
memory. Logs 2, 4, 6, 7, 8. -/
def State.resetWith (memWords : Nat) : State :=
  { mem := [], memWords := memWords, cmd := 0, src := 0, dst := 0, count := 0, status := 0, result := 0,
    pending := [], reply := none, draws := 1, epoch := 0 }

/-- The state after reset (10_state.md R38), with the parameter `MEM_WORDS` at the value log 3 names. -/
def State.reset : State := State.resetWith Config.resetMemWords

end Sys2Proof.Machine
end

