-- ==== Sys2Proof/Machine/Flags.lean ====
section
/-! DEFINITION. `STATUS`: its two fields and every way it is written (10_state.md R29, 60_exceptions.md R241, R244). -/

namespace Sys2Proof.Machine

/-- `ERR`: `STATUS[3:0]`. -/
def statusErr (status : Word) : BitVec 4 := status.extractLsb' 0 4

/-- `SERR`: `STATUS[4]`. -/
def statusSerr (status : Word) : Bool := status.getLsbD 4

/-- The word with the given fields, bits [31:5] zero. -/
def statusOf (serr : Bool) (err : BitVec 4) : Word := (if serr then 16 else 0) ||| err.setWidth 32

/-- The code of an error (R241). -/
def OpError.code : OpError → BitVec 4
  | .illegal => 1
  | .bounds => 2
  | .overlap => 3
  | .s16Range => 4
  | .pfdHeader => 5

/-- `STATUS` after an operation that completes: `ERR` is 0, `SERR` as it was (R29). -/
def statusComplete (status : Word) : Word := statusOf (statusSerr status) 0

/-- `STATUS` after an operation that ends in an error: `ERR` is its code, `SERR` is set (R29, R244). -/
def statusRaise (e : OpError) : Word := statusOf true e.code

/-- `STATUS` after a host write of `v`: bit 4 set clears `SERR`, nothing else happens (R29). -/
def statusHostWrite (status v : Word) : Word :=
  if v.getLsbD 4 then statusOf false (statusErr status) else status

/-- The field `ERR` of a state. -/
def State.err (s : State) : BitVec 4 := statusErr s.status

/-- The field `SERR` of a state. -/
def State.serr (s : State) : Bool := statusSerr s.status

end Sys2Proof.Machine
end

