-- ==== Sys2Proof/Machine/Ops.lean ====
section
/-! DEFINITION. The named operations over memory and registers, ending an operation with or without an error, and the
reset event. -/

namespace Sys2Proof.Machine

/-! ### Memory -/

/-- The word last written at `a` since reset, if there is one. -/
def Memory.lookup : Memory → Nat → Option Word
  | [], _ => none
  | (b, v) :: m, a => if a = b then some v else Memory.lookup m a

/-- `MemWrite(a, 1, v)` (20_memory.md R53): the whole word at `a` is replaced, no other word changes. -/
def Memory.write : Memory → Nat → Word → Memory
  | [], a, v => [(a, v)]
  | (b, x) :: m, a, v =>
    if a < b then (a, v) :: (b, x) :: m
    else if a = b then (a, v) :: m
    else (b, x) :: Memory.write m a v

/-- The words `ws` written from `base` upward. -/
def Memory.writeList : Memory → Nat → List Word → Memory
  | m, _, [] => m
  | m, base, w :: ws => Memory.writeList (m.write base w) (base + 1) ws

/-- The canonical form: addresses strictly rising. -/
def Memory.wf : Memory → Bool
  | [] => true
  | (a, _) :: m => m.all (fun c => decide (a < c.1)) && Memory.wf m

/-- Whether the address `a` is valid (20_memory.md R51). -/
def State.valid (s : State) (a : Nat) : Bool := a < s.memWords

/-- `MEM[a]` (20_memory.md R52). A word nobody has written since reset holds an unspecified value, the same until it
is written (10_state.md R38, 93 U9): the free word of the latest reset's draw. Log 2. -/
def State.memWord (s : State) (a : Nat) : Word := (s.mem.lookup a).getD (Config.freeWord s.epoch a)

/-! ### The end of an operation -/

/-- An operation completes without error (10_state.md R29, R30): `ERR` is 0 and `RESULT` the given count. -/
def State.complete (s : State) (res : Nat) : State :=
  { s with status := statusComplete s.status, result := BitVec.ofNat 32 res }

/-- `raise E` (60_exceptions.md R244), the block's only exception: `ERR` is the code, `SERR` is set, `RESULT` is as
R241 says. There is no return from it (R251). -/
def State.raise (s : State) (e : OpError) (res : Nat) : State :=
  { s with status := statusRaise e, result := BitVec.ofNat 32 res }

/-! ### The registers as the host sees them -/

/-- `HostRegRead(idx)` (10_state.md R39): the register, and 0 for an index of 6 or more (R31). -/
def State.readReg (s : State) (idx : Nat) : Word :=
  match idx with
  | 0 => s.cmd
  | 1 => s.src
  | 2 => s.dst
  | 3 => s.count
  | 4 => s.status
  | 5 => s.result
  | _ => 0

/-- `HostRegWrite(idx, v)` for every register but `CMD` (10_state.md R39): `SRC`, `DST`, `COUNT` take `v`, `STATUS`
clears `SERR` if bit 4 is set (R29), `RESULT` (R30) and the indices from 6 on (R31) ignore the write. -/
def State.writeReg (s : State) (idx : Nat) (v : Word) : State :=
  match idx with
  | 1 => { s with src := v }
  | 2 => { s with dst := v }
  | 3 => { s with count := v }
  | 4 => { s with status := statusHostWrite s.status v }
  | _ => s

/-! ### Reset -/

/-- The reset event (70_reset_and_hazards.md R270): the six registers become 0 and memory holds unspecified values,
a fresh draw of them. What the host has still to do and what it has read are not of the block. Log 8. -/
def State.resetEvent (s : State) : State :=
  { State.resetWith s.memWords with
    pending := s.pending, reply := s.reply, draws := s.draws + 1, epoch := s.draws }

end Sys2Proof.Machine
end

