-- ==== Sys2Proof/Machine/Operands.lean ====
section
/-! DEFINITION. The operands of an operation: its input range, its reserved output range, the checks on them, reading
the one and writing the other (20_memory.md R55 to R60). -/

namespace Sys2Proof.Machine

/-- Whether every word of the range of `len` words at `base` has a valid address (20_memory.md R59): an empty range
is valid wherever it is. -/
def rangeValid (memWords base len : Nat) : Bool := len = 0 || base + len ≤ memWords

/-- Whether two ranges share an address (20_memory.md R60). -/
def rangesMeet (src li dst lo : Nat) : Bool := 0 < li && 0 < lo && src < dst + lo && dst < src + li

/-- The length of the input range, where it is fixed by the command and the registers (20_memory.md R55); that of the
two decoders depends on the data, and is 0 here. -/
def inLen (i : Instr) (s : State) : Nat :=
  match i with
  | .pack _ => group
  | .unpack bits => bits.toNat
  | .s16enc => s.count.toNat
  | .pfdenc => block
  | _ => 0

/-- The length of the reserved output range (20_memory.md R56). A codeword is run as `S16DEC` runs it and a header as
`PFDDEC` does (log 9). -/
def outLen (i : Instr) (s : State) : Nat :=
  match i with
  | .pack bits => bits.toNat
  | .unpack _ => group
  | .s16enc => s.count.toNat
  | .pfdenc => pfdMaxWords
  | .pfddec => block
  | .pfdh _ _ _ => block
  | _ => s.count.toNat

/-- Whether the reserved output range is inside memory (20_memory.md R59). -/
def State.outValid (s : State) (lo : Nat) : Bool := rangeValid s.memWords s.dst.toNat lo

/-- Whether an input range of `li` words is inside memory (20_memory.md R59). -/
def State.inValid (s : State) (li : Nat) : Bool := rangeValid s.memWords s.src.toNat li

/-- Whether the input range and the reserved output range share an address (20_memory.md R60). -/
def State.overlaps (s : State) (li lo : Nat) : Bool := rangesMeet s.src.toNat li s.dst.toNat lo

/-- `in[i]`, or nothing where its address is not valid (20_memory.md R55, R59). -/
def State.readIn (s : State) (i : Nat) : Option Word :=
  if s.valid (s.src.toNat + i) then some (s.memWord (s.src.toNat + i)) else none

/-- `in[0 .. n-1]`, for a range already checked. -/
def State.input (s : State) (n : Nat) : List Word := (List.range n).map fun i => s.memWord (s.src.toNat + i)

/-- `out[0 ..] := ws`: the words `ws` written from `DST` upward. -/
def State.writeOut (s : State) (ws : List Word) : State := { s with mem := s.mem.writeList s.dst.toNat ws }

/-- The reserved output words at the offsets `used .. lo-1`, which hold unspecified values after the operation, each
its own (20_memory.md R58): the free words of the current draw. Log 7. -/
def State.slack (s : State) (used lo : Nat) : List Word :=
  (List.range (lo - used)).map fun i => Config.freeWord s.draws (s.dst.toNat + (used + i))

/-- `ws` written at `DST` and the rest of the reserved output range left unspecified, which uses up one draw. -/
def State.writeOutReserved (s : State) (ws : List Word) (lo : Nat) : State :=
  { s.writeOut (ws ++ s.slack ws.length lo) with draws := s.draws + 1 }

/-- An operation whose input range has a fixed length `li`, with the reserved output range `lo`, and what it leaves
when the checks pass: bounds of the output, bounds of the input, overlap, in that order (60_exceptions.md R243). -/
def State.checked (s : State) (li lo : Nat) (done : State) : State :=
  if !s.outValid lo then s.raise .bounds 0
  else if !s.inValid li then s.raise .bounds 0
  else if s.overlaps li lo then s.raise .overlap 0
  else done

end Sys2Proof.Machine
end

