-- ==== Sys2Proof/Machine/Packer.lean ====
section
/-! DEFINITION. The fixed-width block packer: `packn`, `unpackn`, `PACK`, `UNPACK` (40_block_packer.md). -/

namespace Sys2Proof.Machine

/-- `ceil(a / 32)`: the words that `a` bits need. -/
def wordsFor (a : Nat) : Nat := (a + 31) / 32

/-! ### Where element `i` of width `B` lies (R121) -/

/-- The word in which the element starts. -/
def elemStart (B i : Nat) : Nat := i * B / 32

/-- The word in which the element ends, for `B ≥ 1`. -/
def elemEnd (B i : Nat) : Nat := ((i + 1) * B - 1) / 32

/-- The stream bits of the first word that precede the element. -/
def elemOff (B i : Nat) : Nat := i * B % 32

/-! ### `packn` (R122) -/

/-- `out[k] := out[k] | x`. -/
def orAt : List Word → Nat → Word → List Word
  | [], _, _ => []
  | w :: ws, 0, x => (w ||| x) :: ws
  | w :: ws, k + 1, x => w :: orAt ws k x

/-- Element `i` of width `B` put into the output words. -/
def packElem (B i : Nat) (val : Word) (out : List Word) : List Word :=
  let v := val &&& mask B
  if elemStart B i = elemEnd B i then orAt out (elemStart B i) (v <<< (32 - elemOff B i - B))
  else
    let r := elemOff B i + B - 32
    orAt (orAt out (elemStart B i) (v >>> r)) (elemEnd B i) ((v &&& mask r) <<< (32 - r))

/-- The elements `vals`, the first of them element `i`, put into the output words in order. -/
def packFrom (B i : Nat) : List Word → List Word → List Word
  | [], out => out
  | v :: vals, out => packFrom B (i + 1) vals (packElem B i v out)

/-- `packn(vals, B)`: the output words start as zero (R132); none at width 0 (R126). -/
def packn (vals : List Word) (B : Nat) : List Word :=
  if B = 0 then [] else packFrom B 0 vals (List.replicate (wordsFor (vals.length * B)) 0)

/-! ### `unpackn` (R123) -/

/-- Element `i` of width `B ≥ 1` taken out of the words. -/
def unpackElem (words : List Word) (B i : Nat) : Word :=
  let a := words.getD (elemStart B i) 0
  let b := words.getD (elemEnd B i) 0
  if elemStart B i = elemEnd B i then (a >>> (32 - elemOff B i - B)) &&& mask B
  else
    let r := elemOff B i + B - 32
    ((a &&& mask (32 - elemOff B i)) <<< r) ||| (b >>> (32 - r))

/-- `unpackn(words, n, B)`, for at least `ceil(n·B/32)` words. -/
def unpackn (words : List Word) (n B : Nat) : List Word :=
  if B = 0 then List.replicate n 0 else (List.range n).map (unpackElem words B)

/-! ### The operations -/

/-- `PACK bits` (R129). -/
def execPack (bits : BitVec 6) (s : State) : Host.Outcome State Fault Refusal :=
  let B := bits.toNat
  .next <|
    if B ≤ 32 then
      s.checked (inLen (.pack bits) s) (outLen (.pack bits) s) ((s.writeOut (packn (s.input group) B)).complete B)
    else s.raise .illegal 0

/-- `UNPACK bits` (R130). -/
def execUnpack (bits : BitVec 6) (s : State) : Host.Outcome State Fault Refusal :=
  let B := bits.toNat
  .next <|
    if B ≤ 32 then
      s.checked (inLen (.unpack bits) s) (outLen (.unpack bits) s)
        ((s.writeOut (unpackn (s.input B) group B)).complete B)
    else s.raise .illegal 0

end Sys2Proof.Machine
end

