-- ==== Sys2Proof/Machine/PForDelta.lean ====
section
/-! DEFINITION. The PForDelta block codec: encoder, decoder, `PFDENC`, `PFDDEC` and the header word
(42_pfordelta.md). -/

namespace Sys2Proof.Machine

/-! ### The encoder -/

/-- The largest Value of a block, 0 for none (R191). -/
def maxValue (blk : List Word) : Nat := blk.foldl (fun mx v => max mx v.toNat) 0

/-- `cat(blk)` (R191). -/
def pfdCat (blk : List Word) : Nat :=
  if maxValue blk < 256 then 0 else if maxValue blk < 65536 then 1 else 2

/-- What a scan has found so far (R196): the working array, the side list, the exception positions, and the position of
the previous exception if there is one. -/
structure ScanState where
  work : List Word
  exc : List Word
  pos : List Nat
  prev : Option Nat
  deriving DecidableEq, Repr

/-- Whether the gap since the previous exception has reached exactly `2^b` (R194 (b)); never without a previous
exception (R195). -/
def gapReached (b i : Nat) (prev : Option Nat) : Bool :=
  match prev with
  | none => false
  | some p => i - p = 2 ^ b

/-- Whether position `i` with Value `v` is an exception at width `b` (R194). -/
def isException (b i : Nat) (v : Word) (prev : Option Nat) : Bool := 2 ^ b ≤ v.toNat || gapReached b i prev

/-- `work[prev] := x`, if there is a previous exception. -/
def setPrev (work : List Word) (prev : Option Nat) (x : Nat → Nat) : List Word :=
  match prev with
  | none => work
  | some p => work.set p (BitVec.ofNat 32 (x p))

/-- One position of the scan (R196). -/
def scanStep (b i : Nat) (v : Word) (st : ScanState) : ScanState :=
  if isException b i v st.prev then
    { work := setPrev st.work st.prev (fun p => i - 1 - p)
      exc := st.exc ++ [v]
      pos := st.pos ++ [i]
      prev := some i }
  else { st with work := st.work.set i v }

/-- The scan from position `i` on. -/
def scanFrom (b i : Nat) : List Word → ScanState → ScanState
  | [], st => st
  | v :: vs, st => scanFrom b (i + 1) vs (scanStep b i v st)

/-- `scan(blk, b)` (R196): the final exception position stores `2^b - 1`. -/
def scan (blk : List Word) (b : Nat) : ScanState :=
  let st := scanFrom b 0 blk ⟨List.replicate block 0, [], [], none⟩
  { st with work := setPrev st.work st.prev (fun _ => 2 ^ b - 1) }

/-- The width selector (R192): the index of the first of the candidates 0 to 13 whose exceptions number at most 12,
else 14, the width 32. -/
def pfdChoose (blk : List Word) : Nat :=
  ((List.range 14).find? fun k => (scan blk (cand k)).exc.length ≤ excMax).getD 14

/-- The header formatter (R200): `hdr = (k << 12) | (c << 10) | START`. -/
def pfdHeader (k c start : Nat) : Word := encodePfdh (BitVec.ofNat 10 start) (BitVec.ofNat 2 c) (BitVec.ofNat 4 k)

/-- Group `g` of 32 entries of an array of 128 (R95). -/
def groupOf (g : Nat) (l : List Word) : List Word := (l.drop (group * g)).take group

/-- The main array: four packed groups (R202). -/
def packMain (work : List Word) (b : Nat) : List Word :=
  packn (groupOf 0 work) b ++ packn (groupOf 1 work) b ++ packn (groupOf 2 work) b ++ packn (groupOf 3 work) b

/-- The encoded block at the chosen width index `k` (R201 at width 32, R202 below). -/
def pfdEmit (blk : List Word) (k : Nat) : List Word :=
  if cand k = 32 then pfdHeader k (pfdCat blk) block :: blk
  else
    let r := scan blk (cand k)
    pfdHeader k (pfdCat blk) (r.pos.headD block) ::
      (packMain r.work (cand k) ++ packn r.exc (catWidth (pfdCat blk)))

/-- `pfd_encode(blk)` (R203). -/
def pfdEncode (blk : List Word) : List Word := pfdEmit blk (pfdChoose blk)

/-! ### The decoder -/

/-- The fields of a header (R90, R210). -/
structure PfdHeader where
  start : BitVec 10
  cat : BitVec 2
  widx : BitVec 4
  deriving DecidableEq, Repr

/-- The header reader (R210). -/
def pfdHeaderOf (h : Word) : PfdHeader := ⟨h.extractLsb' 0 10, h.extractLsb' 10 2, h.extractLsb' 12 4⟩

/-- The words `from .. from + n - 1` of the input, or nothing if one of them has no valid address. -/
def readWords (rd : Nat → Option Word) : Nat → Nat → Option (List Word)
  | _, 0 => some []
  | a, n + 1 =>
    match rd a with
    | none => none
    | some w => (readWords rd (a + 1) n).map (w :: ·)

/-- The main-array unpack at width `b` (R211). -/
def unpackMain (main : List Word) (b : Nat) : List Word :=
  unpackn main group b ++ unpackn (main.drop b) group b ++ unpackn (main.drop (2 * b)) group b ++
    unpackn (main.drop (3 * b)) group b

/-- Exception entry `j` of the list that starts at input word `base`, at width `ew` (R213). -/
def excEntry (rd : Nat → Option Word) (base ew j : Nat) : Option Word :=
  (rd (base + j * ew / 32)).map fun (w : Word) => (w >>> (32 - j * ew % 32 - ew)) &&& mask ew

/-- The exception-chain walk (R212) from position `s` with `n` entries consumed. It answers the Values and the number
of entries consumed, or nothing if an entry it needs has no valid address. The first argument bounds the steps; each
moves forward, so 128 are enough. Positions are naturals: they do not wrap. -/
def pfdWalk (rd : Nat → Option Word) (base ew : Nat) : Nat → List Word → Nat → Nat → Option (List Word × Nat)
  | 0, vals, _, n => some (vals, n)
  | fuel + 1, vals, s, n =>
    if s < block then
      match excEntry rd base ew n with
      | none => none
      | some e => pfdWalk rd base ew fuel (vals.set s e) (s + (vals.getD s 0).toNat + 1) (n + 1)
    else some (vals, n)

/-- `pfd_decode(words)` after its header (R216), `rd i` being input word `i` or nothing where it has no valid address:
the 128 Values and the number of words consumed (R214). -/
def pfdDecode (rd : Nat → Option Word) (h : PfdHeader) : Option (List Word × Nat) :=
  let b := cand h.widx.toNat
  let ew := catWidth h.cat.toNat
  match readWords rd 1 (4 * b) with
  | none => none
  | some main =>
    (pfdWalk rd (1 + 4 * b) ew block (unpackMain main b) h.start.toNat 0).map fun r =>
      (r.1, 1 + 4 * b + wordsFor (r.2 * ew))

/-! ### The operations -/

/-- `PFDENC` (R204). -/
def execPfdenc (s : State) : Host.Outcome State Fault Refusal :=
  let out := pfdEncode (s.input block)
  .next <| s.checked (inLen .pfdenc s) (outLen .pfdenc s)
    ((s.writeOutReserved out (outLen .pfdenc s)).complete out.length)

/-- The operation `PFDDEC` (R215) over its header, or nothing where the header word has no valid address. The order of
the checks is that of 60_exceptions.md R243: output, header word, header fields, other input words, overlap. -/
def State.runPfddec (s : State) (hdr : Option PfdHeader) : State :=
  if !s.outValid (outLen .pfddec s) then s.raise .bounds 0
  else match hdr with
    | none => s.raise .bounds 0
    | some h =>
      if headerReserved h.cat h.widx then s.raise .pfdHeader 0
      else match pfdDecode s.readIn h with
        | none => s.raise .bounds 0
        | some (vals, t) =>
          if s.overlaps t (outLen .pfddec s) then s.raise .overlap 0 else (s.writeOut vals).complete t

/-- `PFDDEC` (R215): the header is the first input word. -/
def execPfddec (s : State) : Host.Outcome State Fault Refusal := .next (s.runPfddec ((s.readIn 0).map pfdHeaderOf))

/-- `PFDH`: a header run as the header that `PFDDEC` reads (R80, R210; log 9). -/
def execPfdh (start : BitVec 10) (cat : BitVec 2) (widx : BitVec 4) (s : State) : Host.Outcome State Fault Refusal :=
  .next (s.runPfddec (if s.valid s.src.toNat then some ⟨start, cat, widx⟩ else none))

end Sys2Proof.Machine
end

