-- ==== Sys2Proof/Machine/Simple16.lean ====
section
/-! DEFINITION. The Simple16 selector word codec: encoder, decoder, `S16ENC`, `S16DEC` and the sixteen codewords
(41_simple16.md). -/

namespace Sys2Proof.Machine

/-! ### The encoder -/

/-- `attempt(k, vals, pos)`, with `vals` the Values from `pos` on (R151, R152): the leading Values, as many as there
are slots and Values, all fit their slots. -/
def s16Attempt (k : Nat) (vals : List Word) : Bool := (vals.zip (s16Layout k)).all fun (v, w) => v.toNat < 2 ^ w

/-- The first layout, in priority order, whose attempt succeeds (R153). -/
def s16Choose (vals : List Word) : Option Nat := (List.range 16).find? fun k => s16Attempt k vals

/-- What the encoder returns (R155): the codewords, whether it succeeded, and the input position it reached. -/
structure S16Encoded where
  words : List Word
  ok : Bool
  pos : Nat
  deriving DecidableEq, Repr

/-- The encoder loop from the Values `vals` at position `pos` on. The first argument bounds the codewords; each takes
at least one Value, so the number of Values is enough (R168). -/
def s16EncodeFrom : Nat → List Word → Nat → S16Encoded
  | _, [], pos => ⟨[], true, pos⟩
  | 0, _ :: _, pos => ⟨[], false, pos⟩
  | fuel + 1, v :: vs, pos =>
    match s16Choose (v :: vs) with
    | none => ⟨[], false, pos⟩
    | some k =>
      let m := min (s16Slots k) (v :: vs).length
      let rest := s16EncodeFrom fuel ((v :: vs).drop m) (pos + m)
      { rest with words := s16Format k ((v :: vs).take m) :: rest.words }

/-- `s16_encode(vals)` (R155). -/
def s16Encode (vals : List Word) : S16Encoded := s16EncodeFrom vals.length vals 0

/-! ### The decoder -/

/-- The decoder loop (R162) from input word `u` on, with `need` Values still to produce; `slots u` is the list of slot
values of input word `u`, or nothing where its address is not valid. It answers the Values and the number of words
consumed, and stops in the middle of a codeword when enough Values are there (R163). The first argument bounds the
words; each gives at least one Value, so `need` is enough (R168). -/
def s16DecodeFrom (slots : Nat → Option (List Word)) : Nat → Nat → Nat → Option (List Word × Nat)
  | _, 0, u => some ([], u)
  | 0, _ + 1, _ => none
  | fuel + 1, need + 1, u =>
    match slots u with
    | none => none
    | some sl =>
      let vs := sl.take (need + 1)
      (s16DecodeFrom slots fuel (need + 1 - vs.length) (u + 1)).map fun r => (vs ++ r.1, r.2)

/-- `s16_decode(words, cnt)` (R162), over the slot values of the input words. -/
def s16Decode (slots : Nat → Option (List Word)) (cnt : Nat) : Option (List Word × Nat) :=
  s16DecodeFrom slots cnt cnt 0

/-! ### The operations -/

/-- `S16ENC` (R159), with `E_S16_RANGE` (60_exceptions.md R248). -/
def execS16enc (s : State) : Host.Outcome State Fault Refusal :=
  let cnt := s.count.toNat
  let r := s16Encode (s.input cnt)
  let t := s.writeOutReserved r.words (outLen .s16enc s)
  .next <| s.checked (inLen .s16enc s) (outLen .s16enc s)
    (if r.ok then t.complete r.words.length else t.raise .s16Range r.words.length)

/-- The slot values of the input words of `S16DEC`: `s16_split(in[u])` (R161). -/
def State.inSlots (s : State) (u : Nat) : Option (List Word) := (s.readIn u).map s16Split

/-- The slot values of the input words when the word at `in[0]` is the codeword with the slots `sl`. -/
def State.inSlotsWith (s : State) (sl : List Word) (u : Nat) : Option (List Word) :=
  if u = 0 then (if s.valid s.src.toNat then some sl else none) else s.inSlots u

/-- The operation `S16DEC` (R167) over the slot values of its input words: bounds of the output, bounds of each input
word as it is needed, overlap (60_exceptions.md R243). -/
def State.runS16dec (s : State) (slots : Nat → Option (List Word)) : State :=
  let cnt := s.count.toNat
  if !s.outValid cnt then s.raise .bounds 0
  else match s16Decode slots cnt with
    | none => s.raise .bounds 0
    | some (vals, u) =>
      if s.overlaps u cnt then s.raise .overlap 0 else (s.writeOut vals).complete u

/-- `S16DEC` (R167). -/
def execS16dec (s : State) : Host.Outcome State Fault Refusal := .next (s.runS16dec s.inSlots)

/-- A codeword run as the first codeword that `S16DEC` reads (R80, R161, R162; log 9). -/
def State.runCodeword (s : State) (slots : List Word) : State := s.runS16dec (s.inSlotsWith slots)

/-- `S16W.0` (R161). -/
def execS16w0 (slots : List Word) (s : State) : Host.Outcome State Fault Refusal := .next (s.runCodeword slots)
/-- `S16W.1` (R161). -/
def execS16w1 (slots : List Word) (s : State) : Host.Outcome State Fault Refusal := .next (s.runCodeword slots)
/-- `S16W.2` (R161). -/
def execS16w2 (slots : List Word) (s : State) : Host.Outcome State Fault Refusal := .next (s.runCodeword slots)
/-- `S16W.3` (R161). -/
def execS16w3 (slots : List Word) (s : State) : Host.Outcome State Fault Refusal := .next (s.runCodeword slots)
/-- `S16W.4` (R161). -/
def execS16w4 (slots : List Word) (s : State) : Host.Outcome State Fault Refusal := .next (s.runCodeword slots)
/-- `S16W.5` (R161). -/
def execS16w5 (slots : List Word) (s : State) : Host.Outcome State Fault Refusal := .next (s.runCodeword slots)
/-- `S16W.6` (R161). -/
def execS16w6 (slots : List Word) (s : State) : Host.Outcome State Fault Refusal := .next (s.runCodeword slots)
/-- `S16W.7` (R161). -/
def execS16w7 (slots : List Word) (s : State) : Host.Outcome State Fault Refusal := .next (s.runCodeword slots)
/-- `S16W.8` (R161). -/
def execS16w8 (slots : List Word) (s : State) : Host.Outcome State Fault Refusal := .next (s.runCodeword slots)
/-- `S16W.9` (R161). -/
def execS16w9 (slots : List Word) (s : State) : Host.Outcome State Fault Refusal := .next (s.runCodeword slots)
/-- `S16W.10` (R161). -/
def execS16w10 (slots : List Word) (s : State) : Host.Outcome State Fault Refusal := .next (s.runCodeword slots)
/-- `S16W.11` (R161). -/
def execS16w11 (slots : List Word) (s : State) : Host.Outcome State Fault Refusal := .next (s.runCodeword slots)
/-- `S16W.12` (R161). -/
def execS16w12 (slots : List Word) (s : State) : Host.Outcome State Fault Refusal := .next (s.runCodeword slots)
/-- `S16W.13` (R161). -/
def execS16w13 (slots : List Word) (s : State) : Host.Outcome State Fault Refusal := .next (s.runCodeword slots)
/-- `S16W.14` (R161). -/
def execS16w14 (slots : List Word) (s : State) : Host.Outcome State Fault Refusal := .next (s.runCodeword slots)
/-- `S16W.15` (R161). -/
def execS16w15 (slots : List Word) (s : State) : Host.Outcome State Fault Refusal := .next (s.runCodeword slots)

end Sys2Proof.Machine
end

