-- ==== Sys2Proof/Machine/Dispatch.lean ====
section
/-! DEFINITION. Running one encoded word: one arm per constructor of `Instr`. -/

namespace Sys2Proof.Machine

/-- What an encoded word does. For a command word, `CMD` already holds the word (10_state.md R25). -/
def exec (i : Instr) (s : State) : Host.Outcome State Fault Refusal :=
  match i with
  | .pack bits => Sys2Proof.Machine.execPack bits s
  | .unpack bits => Sys2Proof.Machine.execUnpack bits s
  | .s16enc => Sys2Proof.Machine.execS16enc s
  | .s16dec => Sys2Proof.Machine.execS16dec s
  | .pfdenc => Sys2Proof.Machine.execPfdenc s
  | .pfddec => Sys2Proof.Machine.execPfddec s
  | .s16w0 slots => Sys2Proof.Machine.execS16w0 slots s
  | .s16w1 slots => Sys2Proof.Machine.execS16w1 slots s
  | .s16w2 slots => Sys2Proof.Machine.execS16w2 slots s
  | .s16w3 slots => Sys2Proof.Machine.execS16w3 slots s
  | .s16w4 slots => Sys2Proof.Machine.execS16w4 slots s
  | .s16w5 slots => Sys2Proof.Machine.execS16w5 slots s
  | .s16w6 slots => Sys2Proof.Machine.execS16w6 slots s
  | .s16w7 slots => Sys2Proof.Machine.execS16w7 slots s
  | .s16w8 slots => Sys2Proof.Machine.execS16w8 slots s
  | .s16w9 slots => Sys2Proof.Machine.execS16w9 slots s
  | .s16w10 slots => Sys2Proof.Machine.execS16w10 slots s
  | .s16w11 slots => Sys2Proof.Machine.execS16w11 slots s
  | .s16w12 slots => Sys2Proof.Machine.execS16w12 slots s
  | .s16w13 slots => Sys2Proof.Machine.execS16w13 slots s
  | .s16w14 slots => Sys2Proof.Machine.execS16w14 slots s
  | .s16w15 slots => Sys2Proof.Machine.execS16w15 slots s
  | .pfdh start cat widx => Sys2Proof.Machine.execPfdh start cat widx s

end Sys2Proof.Machine
end

