-- ==== Sys2Proof/Machine/HostPort.lean ====
section
/-! DEFINITION. What the host does to the block: its register and memory steps, reset, and giving the block a word to
run. -/

namespace Sys2Proof.Machine

/-- The host writes the command word `c` to `CMD` (10_state.md R25): `CMD` takes the word, then the operation it
selects runs to completion; a word that selects none ends with `E_ILLEGAL` (60_exceptions.md R245). -/
def State.startCommand (s : State) (c : Word) : Host.Outcome State Fault Refusal :=
  match decode .cmdw c with
  | .ok i => exec i { s with cmd := c }
  | .error _ => .next ({ s with cmd := c }.raise .illegal 0)

/-- `HostRegWrite(idx, v)` (10_state.md R39). -/
def State.hostRegWrite (s : State) (idx : Nat) (v : Word) : Host.Outcome State Fault Refusal :=
  match idx with
  | 0 => s.startCommand v
  | k + 1 => .next (s.writeReg (k + 1) v)

/-- One step of the host. A memory access at an invalid address is no step of the spec (20_memory.md R64): log 12. -/
def State.perform (s : State) : HostStep → Host.Outcome State Fault Refusal
  | .regWrite idx v => s.hostRegWrite idx v
  | .regRead idx => .next { s with reply := some (s.readReg idx) }
  | .memWrite a v => if s.valid a then .next { s with mem := s.mem.write a v } else .fault (.hostAddressInvalid a)
  | .memRead a => if s.valid a then .next { s with reply := some (s.memWord a) } else .fault (.hostAddressInvalid a)
  | .reset => .next s.resetEvent

/-- The first pending host step is performed. With none pending nothing happens: only a host write starts an operation
(10_state.md R38; log 5). -/
def State.advance (s : State) : Host.Outcome State Fault Refusal :=
  match s.pending with
  | [] => .next s
  | h :: rest => { s with pending := rest }.perform h

/-- The host is about to write the command word `c`. -/
def State.placeCommand (s : State) (c : Word) : State := { s with pending := .regWrite 0 c :: s.pending }

/-- The codeword `w` stands at `in[0]`, `COUNT` asks for all its slots, the output buffer follows the word, and the
host is about to write the command `S16DEC`. -/
def State.placeCodeword (s : State) (w : Word) : State :=
  { s with
    mem := s.mem.write s.src.toNat w
    count := BitVec.ofNat 32 (s16Slots (s16Sel w))
    dst := s.src + 1
    pending := .regWrite 0 (encode .s16dec) :: s.pending }

/-- The word `w` is what the next step runs, in the format that `decodeTableWord` reads it in. Log 10. -/
def State.place (s : State) (w : Word) : State :=
  match decode .cmdw w with
  | .ok _ => s.placeCommand w
  | .error _ => s.placeCodeword w

end Sys2Proof.Machine
end

