-- ==== Sys2Proof/Machine/Step.lean ====
section
/-! DEFINITION. One step of the machine, and giving it an instruction to run. -/

namespace Sys2Proof.Machine

/-- One step: one host step, with the whole operation inside it if it writes `CMD` (20_memory.md R65). -/
def step (s : State) : Host.Outcome State Fault Refusal := s.advance

/-- The instruction whose `nbits` bits are `w`, given to the block so that the next step runs it. The block fetches no
instructions (20_memory.md R67): a command word is what the host writes next, a codeword is the input of the `S16DEC`
that the host starts next. Logs 4, 10. -/
def State.withFetchWord (s : State) (nbits w : Nat) : State := s.place (BitVec.ofNat 32 (w % 2 ^ nbits))

end Sys2Proof.Machine
end

