-- ==== Sys2Proof/Machine/Script.lean ====
section
/-! DEFINITION. The host script: the lines of 30_encoding.md R99, as abstract syntax, the pseudo-operation of R100, and
the host steps each stands for. -/

namespace Sys2Proof.Machine

/-- `REG` of a script line (R99). -/
inductive Reg where
  | cmd
  | src
  | dst
  | count
  | status
  | result
  deriving DecidableEq, Repr

/-- The register index (10_state.md R22). -/
def Reg.index : Reg → Nat
  | .cmd => 0
  | .src => 1
  | .dst => 2
  | .count => 3
  | .status => 4
  | .result => 5

/-- One line of a host script (R99), and the pseudo-operation `clrerr` (R100). -/
inductive ScriptLine where
  /-- `wr <REG>, <value>`. -/
  | wr (reg : Reg) (value : Word)
  /-- `rd <REG>`. -/
  | rd (reg : Reg)
  /-- `mw <addr>, <v0> [, <v1> ...]`. -/
  | mw (addr : Nat) (values : List Word)
  /-- `mr <addr>`. -/
  | mr (addr : Nat)
  /-- `pack <bits>`. -/
  | pack (bits : Nat)
  /-- `unpack <bits>`. -/
  | unpack (bits : Nat)
  /-- `s16enc`. -/
  | s16enc
  /-- `s16dec`. -/
  | s16dec
  /-- `pfdenc`. -/
  | pfdenc
  /-- `pfddec`. -/
  | pfddec
  /-- `clrerr`. -/
  | clrerr
  deriving DecidableEq, Repr

/-- `wr CMD, <value>`, the value cut to 32 bits. For the widths 0 to 32 of R99 nothing is cut. What a `pack` or `unpack`
line of another width stands for is the model's choice (log 16): the low 32 bits of R99's formula, an illegal word for
widths 33 to 2^28 - 1, and from 2^28 on the word of the width mod 2^28, so that 2^28 stands for width 0. -/
def wrCmd (c : Nat) : List HostStep := [.regWrite Reg.cmd.index (BitVec.ofNat 32 c)]

/-- `HostMemWrite(addr + i, vi)` for each `i`. -/
def memWrites : Nat → List Word → List HostStep
  | _, [] => []
  | a, v :: vs => .memWrite a v :: memWrites (a + 1) vs

/-- The host steps of a line (R99, R100). -/
def ScriptLine.steps : ScriptLine → List HostStep
  | .wr reg v => [.regWrite reg.index v]
  | .rd reg => [.regRead reg.index]
  | .mw a vs => memWrites a vs
  | .mr a => [.memRead a]
  | .pack bits => wrCmd (0x001 + 16 * bits)
  | .unpack bits => wrCmd (0x002 + 16 * bits)
  | .s16enc => wrCmd 0x003
  | .s16dec => wrCmd 0x004
  | .pfdenc => wrCmd 0x005
  | .pfddec => wrCmd 0x006
  | .clrerr => [.regWrite Reg.status.index 0x10]

/-- A script given to the block: its host steps, in order, after those already waiting. -/
def State.load (s : State) (script : List ScriptLine) : State :=
  { s with pending := s.pending ++ script.flatMap ScriptLine.steps }

end Sys2Proof.Machine
end

