-- ==== Sys2Proof/Safety.lean ====
section
/-! DEFINITION. What counts as a safe run, and the terms in which claims about the block are made: ranges, what an
operation leaves, the stream bits of a list of words, the invariant of the state. -/

namespace Sys2Proof

open Machine

/-! ### Runs -/

/-- The next host step writes a command word and the command ends in an error: `ERR` is not 0 after it
(10_state.md R25, R29). -/
def CommandFails (s : Machine.State) : Prop :=
  ∃ c rest t, s.pending = .regWrite 0 c :: rest ∧ step s = .next t ∧ t.err ≠ 0

/-- The run of `k` steps from `s` has gone wrong: "some command ended in error" (70_reset_and_hazards.md R277). A host
that clears `SERR` afterwards does not make it right (95_test_vectors.md P4). -/
def WentWrong (k : Nat) (s : Machine.State) : Prop := ∃ j < k, ∃ u, core.run j s = .next u ∧ CommandFails u

/-- None of the host steps of the run of `k` steps from `s` clears `SERR`: no reset, no write of `STATUS` with bit 4 set
(10_state.md R29). -/
def NeverCleared (k : Nat) (s : Machine.State) : Prop :=
  ∀ h ∈ s.pending.take k, h ≠ .reset ∧ ∀ v, h = .regWrite 4 v → v.getLsbD 4 = false

/-- A run of `k` steps from `s` that ends in `t`, has not gone wrong and has `SERR` clear at both ends (R277). -/
def CleanRun (k : Nat) (s t : Machine.State) : Prop :=
  s.serr = false ∧ core.run k s = .next t ∧ t.serr = false ∧ ¬ WentWrong k s

/-! ### Ranges -/

/-- Every word of the range of `len` words at `base` has a valid address (20_memory.md R51, R59). -/
def InMemory (s : Machine.State) (base len : Nat) : Prop := ∀ j < len, base + j < s.memWords

/-- The two ranges share an address (20_memory.md R60). -/
def Meet (a la b lb : Nat) : Prop := ∃ i < la, ∃ j < lb, a + i = b + j

/-! ### What an operation leaves -/

/-- The words of `ws` stand in memory from `base` upward. -/
def Holds (t : Machine.State) (base : Nat) (ws : List Word) : Prop :=
  ∀ j (h : j < ws.length), t.memWord (base + j) = ws[j]

/-- Every word outside the range of `len` words at `base` reads as before. -/
def SameOutside (s t : Machine.State) (base len : Nat) : Prop :=
  ∀ a, (a < base ∨ base + len ≤ a) → t.memWord a = s.memWord a

/-- Everything but `MEM`, `STATUS` and `RESULT` is as before; `draws`, which no operation's effect depends on but
through free words, is left out. -/
def SameShell (s t : Machine.State) : Prop :=
  t.memWords = s.memWords ∧ t.cmd = s.cmd ∧ t.src = s.src ∧ t.dst = s.dst ∧ t.count = s.count ∧
    t.pending = s.pending ∧ t.reply = s.reply ∧ t.epoch = s.epoch

/-- The reserved bits of `STATUS`, [31:5], read 0 (10_state.md R29). -/
def StatusClean (t : Machine.State) : Prop := field t.status 31 5 = 0

/-- `t` is what a completed operation leaves: `ERR = 0`, `SERR` as before, `RESULT` the given count, the shell as
before (10_state.md R24, R29, R30). -/
def Completed (s t : Machine.State) (res : Nat) : Prop :=
  t.err = 0 ∧ t.serr = s.serr ∧ StatusClean t ∧ t.result = BitVec.ofNat 32 res ∧ SameShell s t

/-- `t` is what the error `e` leaves in the registers: its code, `SERR` set, `RESULT` the given count, the shell as
before (60_exceptions.md R244). -/
def Raised (s t : Machine.State) (e : OpError) (res : Nat) : Prop :=
  t.err = e.code ∧ t.serr = true ∧ StatusClean t ∧ t.result = BitVec.ofNat 32 res ∧ SameShell s t

/-- The operation ends in the error `e` with `RESULT = 0` and no word of memory changed. -/
def FailsWith (i : Instr) (s : Machine.State) (e : OpError) : Prop :=
  ∃ t, exec i s = .next t ∧ Raised s t e 0 ∧ ∀ a, t.memWord a = s.memWord a

/-- The operation completes: it writes exactly `ws` at `DST` and `RESULT` is `res`. -/
def CompletesWith (i : Instr) (s : Machine.State) (ws : List Word) (res : Nat) : Prop :=
  ∃ t, exec i s = .next t ∧ Completed s t res ∧ Holds t s.dst.toNat ws ∧ SameOutside s t s.dst.toNat ws.length

/-- An operation whose input range has `li` words and whose reserved output range has `lo`: the bounds check, then the
overlap check, and when both pass, a next state with `P` (20_memory.md R59, R60, 60_exceptions.md R243). -/
def CheckedRun (i : Instr) (s : Machine.State) (li lo : Nat) (P : Machine.State → Prop) : Prop :=
  (¬ InMemory s s.dst.toNat lo ∨ ¬ InMemory s s.src.toNat li → FailsWith i s .bounds) ∧
  (InMemory s s.dst.toNat lo → InMemory s s.src.toNat li → Meet s.src.toNat li s.dst.toNat lo →
    FailsWith i s .overlap) ∧
  (InMemory s s.dst.toNat lo → InMemory s s.src.toNat li → ¬ Meet s.src.toNat li s.dst.toNat lo →
    ∃ t, exec i s = .next t ∧ P t)

/-! ### Streams -/

/-- Stream bit `p` of the words: bit `31 - (p mod 32)` of word `floor(p/32)` (00_scope.md R14); past the end, false. -/
def streamBit (words : List Word) (p : Nat) : Bool := (words.getD (p / 32) 0).getLsbD (31 - p % 32)

/-- The words in `MEM` from `SRC` on, as a stream that does not ask which addresses are valid. -/
def inStream (s : Machine.State) (i : Nat) : Word := s.memWord (s.src.toNat + i)

/-- The Values that the first `u` codewords of a stream spell (41_simple16.md R161). -/
def spelled (stream : Nat → Word) (u : Nat) : List Word := (List.range u).flatMap fun i => s16Split (stream i)

/-- `u` is the number of codewords needed to yield `cnt` Values: the least one (41_simple16.md R166). -/
def CodewordsNeeded (stream : Nat → Word) (cnt u : Nat) : Prop :=
  cnt ≤ (spelled stream u).length ∧ ∀ u' < u, (spelled stream u').length < cnt

/-- The run of `i` as `S16DEC` over the codewords of `stream` (41_simple16.md R167): the output bounds are checked, then
the bounds of the codewords needed, then overlap; then exactly `COUNT` Values, each below 2^28, are written. -/
def S16decRun (i : Instr) (s : Machine.State) (stream : Nat → Word) : Prop :=
  (¬ InMemory s s.dst.toNat s.count.toNat → FailsWith i s .bounds) ∧
  ∃ u, CodewordsNeeded stream s.count.toNat u ∧ (InMemory s s.dst.toNat s.count.toNat →
    (¬ InMemory s s.src.toNat u → FailsWith i s .bounds) ∧
    (InMemory s s.src.toNat u → Meet s.src.toNat u s.dst.toNat s.count.toNat → FailsWith i s .overlap) ∧
    (InMemory s s.src.toNat u → ¬ Meet s.src.toNat u s.dst.toNat s.count.toNat →
      ((spelled stream u).take s.count.toNat).length = s.count.toNat ∧
      (∀ v ∈ (spelled stream u).take s.count.toNat, v.toNat < 2 ^ 28) ∧
      CompletesWith i s ((spelled stream u).take s.count.toNat) u))

/-- The run of `i` as `PFDDEC` with the header word `h` (42_pfordelta.md R215): output bounds, header address, reserved
header fields, the bounds of the other input words, overlap; then exactly 128 Values are written. -/
def PfddecRun (i : Instr) (s : Machine.State) (h : Word) : Prop :=
  (¬ InMemory s s.dst.toNat 128 → FailsWith i s .bounds) ∧
  (InMemory s s.dst.toNat 128 → ¬ InMemory s s.src.toNat 1 → FailsWith i s .bounds) ∧
  (InMemory s s.dst.toNat 128 → InMemory s s.src.toNat 1 → field h 15 12 = 15 ∨ field h 11 10 = 3 →
    FailsWith i s .pfdHeader) ∧
  (InMemory s s.dst.toNat 128 → InMemory s s.src.toNat 1 → ¬ (field h 15 12 = 15 ∨ field h 11 10 = 3) →
    ∃ vals t, pfdDecode (fun k => some (inStream s k)) (pfdHeaderOf h) = some (vals, t) ∧ vals.length = 128 ∧
      (¬ InMemory s s.src.toNat t → FailsWith i s .bounds) ∧
      (InMemory s s.src.toNat t → Meet s.src.toNat t s.dst.toNat 128 → FailsWith i s .overlap) ∧
      (InMemory s s.src.toNat t → ¬ Meet s.src.toNat t s.dst.toNat 128 → CompletesWith i s vals t))

/-- The bit positions `[hi:lo]` of the slots of each layout, as 30_encoding.md R87 writes them out. -/
def slotBounds : List (List (Nat × Nat)) :=
  [
   [(27, 27), (26, 26), (25, 25), (24, 24), (23, 23), (22, 22), (21, 21), (20, 20), (19, 19), (18, 18),
    (17, 17), (16, 16), (15, 15), (14, 14), (13, 13), (12, 12), (11, 11), (10, 10), (9, 9), (8, 8), (7, 7),
    (6, 6), (5, 5), (4, 4), (3, 3), (2, 2), (1, 1), (0, 0)],
   [(27, 26), (25, 24), (23, 22), (21, 20), (19, 18), (17, 16), (15, 14), (13, 13), (12, 12), (11, 11),
    (10, 10), (9, 9), (8, 8), (7, 7), (6, 6), (5, 5), (4, 4), (3, 3), (2, 2), (1, 1), (0, 0)],
   [(27, 27), (26, 26), (25, 25), (24, 24), (23, 23), (22, 22), (21, 21), (20, 19), (18, 17), (16, 15),
    (14, 13), (12, 11), (10, 9), (8, 7), (6, 6), (5, 5), (4, 4), (3, 3), (2, 2), (1, 1), (0, 0)],
   [(27, 27), (26, 26), (25, 25), (24, 24), (23, 23), (22, 22), (21, 21), (20, 20), (19, 19), (18, 18),
    (17, 17), (16, 16), (15, 15), (14, 14), (13, 12), (11, 10), (9, 8), (7, 6), (5, 4), (3, 2), (1, 0)],
   [(27, 26), (25, 24), (23, 22), (21, 20), (19, 18), (17, 16), (15, 14), (13, 12), (11, 10), (9, 8), (7, 6),
    (5, 4), (3, 2), (1, 0)],
   [(27, 24), (23, 21), (20, 18), (17, 15), (14, 12), (11, 9), (8, 6), (5, 3), (2, 0)],
   [(27, 25), (24, 21), (20, 17), (16, 13), (12, 9), (8, 6), (5, 3), (2, 0)],
   [(27, 24), (23, 20), (19, 16), (15, 12), (11, 8), (7, 4), (3, 0)],
   [(27, 23), (22, 18), (17, 13), (12, 8), (7, 4), (3, 0)],
   [(27, 24), (23, 20), (19, 15), (14, 10), (9, 5), (4, 0)],
   [(27, 22), (21, 16), (15, 10), (9, 5), (4, 0)],
   [(27, 23), (22, 18), (17, 12), (11, 6), (5, 0)],
   [(27, 21), (20, 14), (13, 7), (6, 0)],
   [(27, 18), (17, 9), (8, 0)],
   [(27, 14), (13, 0)],
   [(27, 0)]]

/-! ### The invariant -/

/-- What every step keeps: memory is in canonical form and inside `MEM_WORDS`, `MEM_WORDS` is in its range
(00_scope.md R10), the reserved bits of `STATUS` are 0 and `ERR` is a code the block produces (60_exceptions.md R241),
and the draw that gave memory its contents is one already taken. -/
def StateInv (s : Machine.State) : Prop :=
  s.mem.wf = true ∧ (∀ c ∈ s.mem, c.1 < s.memWords) ∧ 1 ≤ s.memWords ∧ s.memWords ≤ 2 ^ 32 ∧
    StatusClean s ∧ s.err.toNat ≤ 5 ∧ s.epoch < s.draws

end Sys2Proof
end

