-- ==== Sys2Proof/Certificates/Slice0/Obligations.lean ====
section
/-! DEFINITION. The statements for the provers, from the numbered rules of spec/. -/

open Sys2Proof Sys2Proof.Machine

/-! ### Reset -/

/-- 10_state.md R38, for a memory of any size: the registers are 0, no word of memory has a known value, and the tables
hold their contents. The model's choices in it: that a word without a known value reads as the free word of the latest
reset's draw (DESIGN CHOICE, logs 2 and 8), and the last clause, that a step with no host step pending changes nothing
(DESIGN CHOICE, log 5; R38 says only that nothing starts by itself). -/
def Obligations.ResetLeavesRegistersZeroAndMemoryUnknown : Prop :=
  ∀ memWords, let s := State.resetWith memWords
    s.cmd = 0 ∧ s.src = 0 ∧ s.dst = 0 ∧ s.count = 0 ∧ s.status = 0 ∧ s.err = 0 ∧ s.serr = false ∧ s.result = 0 ∧
    (∀ a, s.mem.lookup a = none ∧ s.memWord a = Config.freeWord s.epoch a) ∧
    s16Layouts.map (fun l => l.length) = [28, 21, 21, 21, 14, 9, 8, 7, 6, 6, 5, 5, 4, 3, 2, 1] ∧
    (∀ k < 16, (s16Layout k).sum = 28 ∧
      s16Layout k = (slotBounds.getD k []).map fun b => b.1 + 1 - b.2) ∧
    widthTable = [0, 1, 2, 3, 4, 5, 6, 7, 8, 9, 10, 11, 12, 13, 16, 20, 32] ∧
    (catWidth 0 = 8 ∧ catWidth 1 = 16 ∧ catWidth 2 = 32) ∧
    step s = .next s

/-- 70_reset_and_hazards.md R270: the reset event, from any state. That the host's remaining steps and the word it read
last are kept, and that the unspecified contents are a fresh draw, is the model's choice (log 8). -/
def Obligations.ResetEventClearsRegistersAndForgetsMemory : Prop :=
  ∀ s rest, s.pending = .reset :: rest → ∃ t, step s = .next t ∧
    t.cmd = 0 ∧ t.src = 0 ∧ t.dst = 0 ∧ t.count = 0 ∧ t.status = 0 ∧ t.result = 0 ∧
    (∀ a, t.mem.lookup a = none ∧ t.memWord a = Config.freeWord t.epoch a) ∧ t.epoch = s.draws ∧
    t.memWords = s.memWords ∧ t.pending = rest ∧ t.reply = s.reply

/-! ### Encodings -/

/-- Decoding is right on a few words written out from 30_encoding.md R81, R82, R85 to R87, R90. -/
def Obligations.SampleWordsDecode : Prop :=
  decode .cmdw 0b00000000000000000000001000000001 = .ok (.pack 32) ∧
  decode .cmdw 0b00000000000000000000000001010010 = .ok (.unpack 5) ∧
  decode .cmdw 0b00000000000000000000000000000101 = .ok .pfdenc ∧
  decode .cmdw 0b00000000000000000000001000010001 = .error .cmdBits ∧
  decode .s16w 0b11010000000001000000010000000011 = .ok (.s16w13 [1, 2, 3]) ∧
  decode .s16w 0b01010001010011100101110111000001 = .ok (.s16w5 [1, 2, 3, 4, 5, 6, 7, 0, 1]) ∧
  decode .pfdh 0b00000000000000000010100000001010 = .ok (.pfdh 10 2 2)

/-- Every well-formed word of every format is read back from its encoding, with every operand at every value the
encoding admits (30_encoding.md sections 2 to 4). -/
def Obligations.DecodeOfEncodeIsTheInstruction : Prop :=
  ∀ i, wellFormed i = true → decode (formatOf i) (encode i) = .ok i

/-- What is read from a word of a format is a well-formed word of that format, and its encoding is the word itself; of
a header, the word with the ignored bits [31:16] written 0 (30_encoding.md sections 2 to 4). -/
def Obligations.EncodeOfDecodeIsTheWord : Prop :=
  ∀ f w i, decode f w = .ok i →
    wellFormed i = true ∧ formatOf i = f ∧ encode i = if f = .pfdh then w &&& (0xFFFF : Word) else w

/-- 30_encoding.md R84 and 60_exceptions.md R245: which words are illegal, that the others are the 70 legal ones, and
what writing an illegal word does. -/
def Obligations.IllegalCommandWordsRaiseIllegal : Prop :=
  (∀ c, (∃ e, decode .cmdw c = .error e) ↔
    (field c 31 10 ≠ 0 ∨ field c 3 0 = 0 ∨ 7 ≤ field c 3 0 ∨
      ((field c 3 0 = 1 ∨ field c 3 0 = 2) ∧ 32 < field c 9 4) ∨
      ((field c 3 0 = 3 ∨ field c 3 0 = 4 ∨ field c 3 0 = 5 ∨ field c 3 0 = 6) ∧ field c 9 4 ≠ 0))) ∧
  (∀ c : Word, (∃ i, decode .cmdw c = .ok i) ↔
    (∃ b ≤ 32, c.toNat = 1 + 16 * b) ∨ (∃ b ≤ 32, c.toNat = 2 + 16 * b) ∨
      c.toNat = 3 ∨ c.toNat = 4 ∨ c.toNat = 5 ∨ c.toNat = 6) ∧
  (∀ s c rest e, s.pending = .regWrite 0 c :: rest → decode .cmdw c = .error e →
    ∃ t, step s = .next t ∧ t.cmd = c ∧ t.err = 1 ∧ t.serr = true ∧ t.result = 0 ∧
      t.src = s.src ∧ t.dst = s.dst ∧ t.count = s.count ∧ (∀ a, t.memWord a = s.memWord a) ∧
      t.memWords = s.memWords ∧ t.pending = rest ∧ t.reply = s.reply)

/-- 30_encoding.md R87: the slots of a codeword are its bits at the positions of the rule's formula, which are those
the rule writes out. -/
def Obligations.SlotsAreTheBitsOfTheirPositions : Prop :=
  (∀ k < 16, ∀ j < s16Slots k,
    let lo := 28 - ((s16Layout k).take (j + 1)).sum
    let hi := lo + (s16Layout k).getD j 0 - 1
    (slotBounds.getD k []).getD j (0, 0) = (hi, lo) ∧
    ∀ w, s16Sel w = k → (s16Split w).getD j 0 = BitVec.ofNat 32 (field w hi lo)) ∧
  (∀ w, s16Sel w = field w 31 28 ∧ (s16Split w).length = s16Slots (s16Sel w)) ∧
  (∀ k < 16, (slotBounds.getD k []).length = s16Slots k)

/-! ### Steps -/

/-- 10_state.md R25: a step that writes a legal command word runs the instruction it decodes to, `CMD` holding the
word; a step that reads `CMD` starts nothing. -/
def Obligations.StepRunsTheCommandWritten : Prop :=
  (∀ s c rest i, s.pending = .regWrite 0 c :: rest → decode .cmdw c = .ok i →
    step s = exec i { s with cmd := c, pending := rest }) ∧
  (∀ s rest, s.pending = .regRead 0 :: rest → step s = .next { s with pending := rest, reply := some s.cmd })

/-- 30_encoding.md R80: a codeword at `in[0]` is what `S16DEC` runs and a header at `in[0]` is what `PFDDEC` runs. That
such a data word has a run of its own is the model's choice (log 9). -/
def Obligations.StreamWordsRunWhereTheyAreRead : Prop :=
  ∀ s w, s.readIn 0 = some w →
    exec .s16dec s = exec (decodeS16w w) s ∧
    ∀ i, decode .pfdh w = .ok i → exec .pfddec s = exec i s

/-- A word placed as the next instruction is what the next step runs. How a word is placed is the model's choice
(log 10). -/
def Obligations.PlacedWordIsRunByTheNextStep : Prop :=
  ∀ (s : Machine.State) w, w < 2 ^ 32 → ∀ i, decodeTableWord 32 w = some i →
    (formatOf i = .cmdw → step (s.withFetchWord 32 w) = exec i { s with cmd := BitVec.ofNat 32 w }) ∧
    (formatOf i = .s16w → s.src.toNat < s.memWords →
      step (s.withFetchWord 32 w) = exec i { s with
        mem := s.mem.write s.src.toNat (BitVec.ofNat 32 w)
        count := BitVec.ofNat 32 (s16Slots (w / 2 ^ 28))
        dst := s.src + 1
        cmd := 4 })

/-- 10_state.md R39 and R31: every register access of the host, the indices from 6 on included. -/
def Obligations.HostRegisterAccesses : Prop :=
  (∀ s idx v rest, s.pending = .regWrite idx v :: rest →
    (idx = 0 → (∀ i, decode .cmdw v = .ok i → step s = exec i { s with cmd := v, pending := rest }) ∧
      (∀ e, decode .cmdw v = .error e → step s = .next ({ s with cmd := v, pending := rest }.raise .illegal 0))) ∧
    (idx = 1 → step s = .next { s with src := v, pending := rest }) ∧
    (idx = 2 → step s = .next { s with dst := v, pending := rest }) ∧
    (idx = 3 → step s = .next { s with count := v, pending := rest }) ∧
    (idx = 4 → ∃ t, step s = .next t ∧ t.err = s.err ∧ t.serr = (s.serr && !v.getLsbD 4) ∧
      (StatusClean s → StatusClean t) ∧ { t with status := s.status } = { s with pending := rest }) ∧
    (5 ≤ idx → step s = .next { s with pending := rest })) ∧
  (∀ s idx rest, s.pending = .regRead idx :: rest →
    ∃ v, step s = .next { s with pending := rest, reply := some v } ∧
      (idx = 0 → v = s.cmd) ∧ (idx = 1 → v = s.src) ∧ (idx = 2 → v = s.dst) ∧ (idx = 3 → v = s.count) ∧
      (idx = 4 → v = s.status) ∧ (idx = 5 → v = s.result) ∧ (6 ≤ idx → v = 0))

/-- 20_memory.md R64 and R53, valid addresses: a host write sets the one word and nothing else, a host read returns the
word and changes nothing. -/
def Obligations.HostMemoryAccesses : Prop :=
  (∀ s a v rest, s.pending = .memWrite a v :: rest → a < s.memWords →
    ∃ t, step s = .next t ∧ t.memWord a = v ∧ (∀ b, b ≠ a → t.memWord b = s.memWord b) ∧
      { t with mem := s.mem } = { s with pending := rest }) ∧
  (∀ s a rest, s.pending = .memRead a :: rest → a < s.memWords →
    step s = .next { s with pending := rest, reply := some (s.memWord a) })

/-- The model's choice for a host access that 20_memory.md R64 does not define (log 12): it stops with the fault that
names the address. -/
def Obligations.HostAccessOutsideMemoryFaults : Prop :=
  ∀ s a rest, s.memWords ≤ a →
    (∀ v, s.pending = .memWrite a v :: rest → step s = .fault (.hostAddressInvalid a)) ∧
    (s.pending = .memRead a :: rest → step s = .fault (.hostAddressInvalid a))

/-- Every step performs the first pending host step and no other, and the size of memory never changes
(20_memory.md R65, 00_scope.md R10). The model's choices in it: that a host access outside memory, which the spec does
not define, is what stops the machine, by the fault `hostAddressInvalid` (DESIGN CHOICE, log 12), and that with nothing
pending nothing happens (DESIGN CHOICE, log 5). -/
def Obligations.StepsFollowTheHostInOrder : Prop :=
  (∀ s, s.pending = [] → step s = .next s) ∧
  (∀ s t, step s = .next t → t.pending = s.pending.tail ∧ t.memWords = s.memWords) ∧
  (∀ s, (∃ t, step s = .next t) ∨
    ∃ a, s.memWords ≤ a ∧ step s = .fault (.hostAddressInvalid a) ∧
      (s.pending.head? = some (.memRead a) ∨ ∃ v, s.pending.head? = some (.memWrite a v)))

/-- 10_state.md R29, `SERR` is sticky: only a reset or a host write of `STATUS` with bit 4 set clears it. -/
def Obligations.OnlyResetOrStatusWriteClearsSerr : Prop :=
  ∀ s t, step s = .next t → s.serr = true → t.serr = false →
    s.pending.head? = some .reset ∨ ∃ v, s.pending.head? = some (.regWrite 4 v) ∧ v.getLsbD 4 = true

/-- 70_reset_and_hazards.md R277 with 10_state.md R29: as long as the host never clears it, `SERR` is set at the end of
every run that began with it set or has gone wrong at some point, and a run that has gone wrong stays so. -/
def Obligations.ARunThatWentWrongStaysWrong : Prop :=
  ∀ j k s t, j ≤ k → core.run k s = .next t →
    (WentWrong j s → WentWrong k s) ∧ (NeverCleared k s → s.serr = true ∨ WentWrong j s → t.serr = true)

/-- 70_reset_and_hazards.md R277: from a start with `SERR` clear, a run that ends with `SERR` set has gone wrong, that is,
some command of it ended in error; and if the host never cleared `SERR`, it has gone wrong exactly if `SERR` is set at
its end, so a claim that takes `SERR` clear at the start and concludes it clear at the end speaks of the clean runs. -/
def Obligations.ARunWentWrongIffSomeCommandEndedInError : Prop :=
  ∀ k s t, s.serr = false → core.run k s = .next t →
    (t.serr = true → WentWrong k s) ∧
    (NeverCleared k s → (WentWrong k s ↔ t.serr = true) ∧ (CleanRun k s t ↔ t.serr = false))

/-! ### Every operation -/

/-- Every encoded word answers a next state from every state: errors of an operation stop nothing (60_exceptions.md
R240). That a codeword or a header has a run at all is the model's choice (DESIGN CHOICE, log 9), and that `PACK` and
`UNPACK` terms of a width above 32 have one is its inference from R245 (DEDUCED, log 14). -/
def Obligations.EveryWordAnswersANextState : Prop := ∀ i s, ∃ t, exec i s = .next t

/-- 10_state.md R24: what a write of `CMD` may change. -/
def Obligations.CommandChangesOnlyItsFrame : Prop :=
  ∀ s c rest t, s.pending = .regWrite 0 c :: rest → step s = .next t →
    t.cmd = c ∧ t.src = s.src ∧ t.dst = s.dst ∧ t.count = s.count ∧
    t.memWords = s.memWords ∧ t.pending = rest ∧ t.reply = s.reply ∧ t.epoch = s.epoch ∧
    (∀ i, decode .cmdw c = .ok i → SameOutside s t s.dst.toNat (outLen i s)) ∧
    (∀ e, decode .cmdw c = .error e → ∀ a, t.memWord a = s.memWord a)

/-- The frame of every encoded word: the registers but `STATUS` and `RESULT`, the reserved bits of `STATUS`, and every
word of memory outside the reserved output range (10_state.md, sections 3 and 5, 20_memory.md section 3, for the six
operations). That a codeword and a header run, with the output range of `S16DEC` and of `PFDDEC`, is the model's choice
(DESIGN CHOICE, log 9). -/
def Obligations.EveryWordKeepsItsFrame : Prop :=
  ∀ i s t, exec i s = .next t → SameShell s t ∧ StatusClean t ∧ SameOutside s t s.dst.toNat (outLen i s)

/-- 60_exceptions.md R244 and R241: after an error the code is one of the five and set by a word that can raise it,
`SERR` is set, and memory is exactly as before unless the error is `E_S16_RANGE`. That a header run by itself is one
that can raise code 5 is the model's choice (DESIGN CHOICE, log 9), and that a `PACK` or `UNPACK` term of a width above
32 is what raises code 1 here, in place of the illegal command word, its inference (DEDUCED, log 14). -/
def Obligations.ErrorsArePreciseAndNamed : Prop :=
  ∀ i s t, exec i s = .next t → t.err ≠ 0 → t.serr = true ∧
    (t.err = 1 ∨ t.err = 2 ∨ t.err = 3 ∨ t.err = 4 ∨ t.err = 5) ∧
    (t.err = 1 → ∃ bits, (i = .pack bits ∨ i = .unpack bits) ∧ 32 < bits.toNat) ∧
    (t.err = 4 → i = .s16enc) ∧
    (t.err = 5 → i = .pfddec ∨ formatOf i = .pfdh) ∧
    (t.err ≠ 4 → t.result = 0 ∧ ∀ a, t.memWord a = s.memWord a)

/-- 60_exceptions.md R251: an operation runs from a state with any `STATUS` as from the same state with another, and
`SERR` afterwards is set iff it was set or the operation ended in an error (10_state.md R29). That the rule is said of
codewords and headers too, run by themselves, is the model's choice (DESIGN CHOICE, log 9); so is that the two runs
leave the same free words in the reserved words they do not use, as both take the same draw (DESIGN CHOICE, log 7). -/
def Obligations.StatusDoesNotChangeAnOperation : Prop :=
  ∀ i s t, exec i s = .next t →
    (t.serr = (s.serr || t.err != 0)) ∧
    ∀ w, ∃ t', exec i { s with status := w } = .next t' ∧ t'.err = t.err ∧
      t'.serr = (statusSerr w || t.err != 0) ∧ { t' with status := t.status } = t

/-- 20_memory.md R55: what `PACK`, `UNPACK`, `S16ENC` and `PFDENC` leave depends on no word outside their input range.
The two states agree on the shell, on `STATUS` and on the input range. Of the two encoders only the words they produced
are spoken of: their other reserved output words are unspecified (R58). -/
def Obligations.FixedInputOperationsReadOnlyTheirInput : Prop :=
  ∀ i s s' t t', (∃ bits, i = .pack bits ∨ i = .unpack bits) ∨ i = .s16enc ∨ i = .pfdenc →
    SameShell s s' → s'.status = s.status →
    (∀ j < inLen i s, inStream s' j = inStream s j) →
    exec i s = .next t → exec i s' = .next t' →
    t'.status = t.status ∧ t'.result = t.result ∧
      ((∃ bits, i = .pack bits ∨ i = .unpack bits) → t.err = 0 →
        ∀ j < outLen i s, t'.memWord (s.dst.toNat + j) = t.memWord (s.dst.toNat + j)) ∧
      (i = .s16enc ∨ i = .pfdenc → t.err = 0 ∨ t.err = 4 →
        ∀ j < t.result.toNat, t'.memWord (s.dst.toNat + j) = t.memWord (s.dst.toNat + j))

/-- 20_memory.md R55: what a completed `S16DEC` or `PFDDEC` leaves depends on no word beyond the words it consumed. -/
def Obligations.DecodersReadOnlyWhatTheyConsume : Prop :=
  ∀ i s s' t, i = .s16dec ∨ i = .pfddec → SameShell s s' → s'.status = s.status →
    exec i s = .next t → t.err = 0 → (∀ j < t.result.toNat, inStream s' j = inStream s j) →
    ∃ t', exec i s' = .next t' ∧ t'.status = t.status ∧ t'.result = t.result ∧
      ∀ j < outLen i s, t'.memWord (s.dst.toNat + j) = t.memWord (s.dst.toNat + j)

/-! ### The six operations -/

/-- 40_block_packer.md R129: `PACK`. -/
def Obligations.PackWritesThePackedGroup : Prop :=
  ∀ bits s,
    (32 < bits.toNat → FailsWith (.pack bits) s .illegal) ∧
    (bits.toNat ≤ 32 → CheckedRun (.pack bits) s 32 bits.toNat fun t =>
      let out := packn ((List.range 32).map (inStream s)) bits.toNat
      out.length = bits.toNat ∧ Completed s t bits.toNat ∧ Holds t s.dst.toNat out ∧
        SameOutside s t s.dst.toNat bits.toNat)

/-- 40_block_packer.md R130: `UNPACK`. -/
def Obligations.UnpackWritesThirtyTwoValues : Prop :=
  ∀ bits s,
    (32 < bits.toNat → FailsWith (.unpack bits) s .illegal) ∧
    (bits.toNat ≤ 32 → CheckedRun (.unpack bits) s bits.toNat 32 fun t =>
      let vals := unpackn ((List.range bits.toNat).map (inStream s)) 32 bits.toNat
      vals.length = 32 ∧ (∀ v ∈ vals, v.toNat < 2 ^ bits.toNat) ∧ Completed s t bits.toNat ∧
        Holds t s.dst.toNat vals ∧ SameOutside s t s.dst.toNat 32)

/-- 41_simple16.md R159 and 60_exceptions.md R248: `S16ENC`. -/
def Obligations.S16encWritesTheCodewords : Prop :=
  ∀ s, CheckedRun .s16enc s s.count.toNat s.count.toNat fun t =>
    let r := s16Encode ((List.range s.count.toNat).map (inStream s))
    r.words.length ≤ s.count.toNat ∧ Holds t s.dst.toNat r.words ∧ SameOutside s t s.dst.toNat s.count.toNat ∧
      (r.ok = true → Completed s t r.words.length) ∧
      (r.ok = false → Raised s t .s16Range r.words.length) ∧
      (r.ok = false ↔ ∃ j < s.count.toNat, 2 ^ 28 ≤ (inStream s j).toNat)

/-- 41_simple16.md R167, R163 and R166: `S16DEC`. -/
def Obligations.S16decWritesExactlyCountValues : Prop := ∀ s, S16decRun .s16dec s (inStream s)

/-- 42_pfordelta.md R204: `PFDENC`. -/
def Obligations.PfdencWritesTheEncodedBlock : Prop :=
  ∀ s, CheckedRun .pfdenc s 128 129 fun t =>
    let out := pfdEncode ((List.range 128).map (inStream s))
    9 ≤ out.length ∧ out.length ≤ 129 ∧ Completed s t out.length ∧ Holds t s.dst.toNat out ∧
      SameOutside s t s.dst.toNat 129

/-- 42_pfordelta.md R215, 60_exceptions.md R249: `PFDDEC`. -/
def Obligations.PfddecWritesTheDecodedBlock : Prop := ∀ s, PfddecRun .pfddec s (inStream s 0)

/-- The codewords `S16W.0` to `S16W.15`: run, each is the first codeword that `S16DEC` reads (41_simple16.md R161,
R162). That a codeword has a run of its own is the model's choice (log 9). -/
def Obligations.CodewordsRunAsTheFirstOfTheirStream : Prop :=
  ∀ k < 16, ∀ slots, slotsFit k slots = true → ∀ s,
    encode (s16Instr k slots) = s16Format k slots ∧
    S16decRun (s16Instr k slots) s (fun u => if u = 0 then encode (s16Instr k slots) else inStream s u)

/-- The header `PFDH`: run, it is the header that `PFDDEC` reads (42_pfordelta.md R210), the reserved fields included.
That a header has a run of its own is the model's choice (log 9). -/
def Obligations.HeaderRunsAsTheHeaderOfItsBlock : Prop :=
  ∀ start cat widx s, PfddecRun (.pfdh start cat widx) s (encode (.pfdh start cat widx))

/-! ### The invariant -/

/-- The state after reset of a memory of any size of 00_scope.md R10 meets the invariant. -/
def Obligations.ResetMeetsTheInvariant : Prop :=
  (∀ memWords, 1 ≤ memWords → memWords ≤ 2 ^ 32 → StateInv (State.resetWith memWords)) ∧ StateInv State.reset

/-- Every step keeps the invariant: memory in canonical form and inside its bounds, `MEM_WORDS` in its range, the
reserved bits of `STATUS` 0, `ERR` a code that is produced, free draws never reused for memory. -/
def Obligations.StepKeepsTheInvariant : Prop := ∀ s t, StateInv s → step s = .next t → StateInv t

/-- Equal memories are equal data: in states with the invariant, memories with the same known words are the same list,
and a write is what a later read of the word gives (20_memory.md R53). -/
def Obligations.MemoriesInCanonicalFormAreDeterminedByTheirWords : Prop :=
  (∀ s t, StateInv s → StateInv t → (∀ a, s.mem.lookup a = t.mem.lookup a) → s.mem = t.mem) ∧
  (∀ (m : Memory) a v b, (m.write a v).lookup b = if b = a then some v else m.lookup b)

/-! ### The block packer -/

/-- 40_block_packer.md R120: element `i` occupies the stream bits `i·B .. (i+1)·B - 1`, its most significant bit
first, and 32 elements fill exactly `B` words. -/
def Obligations.PackedElementsLieAtTheirStreamBits : Prop :=
  ∀ (vals : List Word) B, B ≤ 32 →
    (packn vals B).length = (vals.length * B + 31) / 32 ∧ (vals.length = 32 → (packn vals B).length = B) ∧
    ∀ i (hi : i < vals.length), ∀ j < B, streamBit (packn vals B) (i * B + j) = vals[i].getLsbD (B - 1 - j)

/-- 40_block_packer.md R123: `unpackn` reads the same bits back, every result below `2^B`, on any words. -/
def Obligations.UnpackedElementsAreTheirStreamBits : Prop :=
  ∀ (words : List Word) n B, B ≤ 32 → (unpackn words n B).length = n ∧
    ∀ i (hi : i < (unpackn words n B).length), (unpackn words n B)[i].toNat < 2 ^ B ∧
      ∀ j < B, (unpackn words n B)[i].getLsbD (B - 1 - j) = streamBit words (i * B + j)

/-- 40_block_packer.md R127, with the condition of R121: an element spans one word, or two when it does not fit the
rest of its first word. -/
def Obligations.NoElementSpansMoreThanTwoWords : Prop :=
  ∀ B i, 1 ≤ B → B ≤ 32 →
    (elemEnd B i = elemStart B i ∨ elemEnd B i = elemStart B i + 1) ∧
    (elemEnd B i = elemStart B i ↔ elemOff B i + B ≤ 32)

/-- 40_block_packer.md R126: width 0 and width 32. -/
def Obligations.EdgeWidthsOfThePacker : Prop :=
  (∀ vals, packn vals 0 = []) ∧ (∀ words n, unpackn words n 0 = List.replicate n 0) ∧
  (∀ vals, packn vals 32 = vals) ∧ (∀ words, unpackn words words.length 32 = words)

/-- 40_block_packer.md R125: a Value wider than `B` is cut to its low `B` bits and disturbs no other element. -/
def Obligations.PackingTruncatesEachValueAlone : Prop :=
  ∀ (vals : List Word) B, B ≤ 32 →
    packn vals B = packn (vals.map fun v => BitVec.ofNat 32 (v.toNat % 2 ^ B)) B ∧
    ∀ i v, ∀ j, j ≠ i →
      (unpackn (packn (vals.set i v) B) vals.length B).getD j 0 = (unpackn (packn vals B) vals.length B).getD j 0

/-- 40_block_packer.md R128: packing and unpacking are inverse, up to truncation one way and the tail the other, and no
shift amount leaves its range. -/
def Obligations.PackAndUnpackAreInverse : Prop :=
  ∀ B, B ≤ 32 →
    (∀ vals : List Word, unpackn (packn vals B) vals.length B =
      vals.map fun v => BitVec.ofNat 32 (v.toNat % 2 ^ B)) ∧
    (∀ vals : List Word, (∀ v ∈ vals, v.toNat < 2 ^ B) → unpackn (packn vals B) vals.length B = vals) ∧
    (∀ words : List Word, words.length = B → packn (unpackn words 32 B) B = words) ∧
    (∀ (words : List Word) n, words.length = (n * B + 31) / 32 →
      (packn (unpackn words n B) B).length = words.length ∧
      ∀ p < 32 * words.length, streamBit (packn (unpackn words n B) B) p = (decide (p < n * B) && streamBit words p)) ∧
    (∀ i, 1 ≤ B →
      (elemStart B i = elemEnd B i → elemOff B i + B ≤ 32 ∧ 32 - elemOff B i - B ≤ 31) ∧
      (elemStart B i ≠ elemEnd B i → 1 ≤ elemOff B i + B - 32 ∧ elemOff B i + B - 32 ≤ 31))

/-- 40_block_packer.md R131: the bits after the last element of a packed list are zero, and unpacking ignores them. -/
def Obligations.TailOfAPackedListIsZeroAndIgnored : Prop :=
  ∀ B, B ≤ 32 →
    (∀ (vals : List Word) p, vals.length * B ≤ p → streamBit (packn vals B) p = false) ∧
    (∀ (ws vs : List Word) n, (∀ p < n * B, streamBit ws p = streamBit vs p) → unpackn ws n B = unpackn vs n B)

/-! ### Simple16 -/

/-- 41_simple16.md R155, with R151 to R154 and 30_encoding.md R88: the encoder takes the first layout of which the
leading slots fit the leading Values, writes its codeword and goes on after those Values; it fails where no layout fits.
The codeword of any layout that fits has that layout's selector and spells those Values, then zeros in the slots that
have none. -/
def Obligations.S16EncoderTakesTheFirstLayoutThatFits : Prop :=
  s16Encode [] = ⟨[], true, 0⟩ ∧
  ∀ v vs, let vals : List Word := v :: vs
    let fits (k : Nat) := ∀ j < min (s16Slots k) vals.length, (vals.getD j 0).toNat < 2 ^ (s16Layout k).getD j 0
    ((∀ k < 16, ¬ fits k) → s16Encode vals = ⟨[], false, 0⟩) ∧
    (∀ k < 16, fits k →
      let m := min (s16Slots k) vals.length
      s16Sel (s16Format k (vals.take m)) = k ∧
        s16Split (s16Format k (vals.take m)) = vals.take m ++ List.replicate (s16Slots k - m) 0) ∧
    (∀ k < 16, fits k → (∀ k' < k, ¬ fits k') →
      let m := min (s16Slots k) vals.length
      let r := s16Encode (vals.drop m)
      s16Encode vals = ⟨s16Format k (vals.take m) :: r.words, r.ok, r.pos + m⟩)

/-- 41_simple16.md R157 with R156: the encoder fails exactly on a Value of 2^28 or more, at the first such, and writes
no more codewords than Values; the rule's example. -/
def Obligations.S16EncodeFailsExactlyOnLargeValues : Prop :=
  (∀ vals : List Word, let r := s16Encode vals
    (r.ok = false ↔ ∃ v ∈ vals, 2 ^ 28 ≤ v.toNat) ∧
    (r.ok = false → ∃ h : r.pos < vals.length, 2 ^ 28 ≤ vals[r.pos].toNat ∧
      ∀ j (hj : j < r.pos), vals[j].toNat < 2 ^ 28) ∧
    (r.ok = true → r.pos = vals.length) ∧
    r.words.length ≤ vals.length) ∧
  s16Encode [1, 1, 0x10000000] = ⟨[0xE0004001], false, 2⟩ ∧ s16Encode [1, 1] = ⟨[0x0C000000], true, 2⟩ ∧
  s16Encode [] = ⟨[], true, 0⟩

/-- 41_simple16.md R165: decoding what the encoder wrote gives the Values back and consumes exactly its codewords. -/
def Obligations.S16DecodeOfEncodeIsTheValues : Prop :=
  ∀ vals : List Word, (s16Encode vals).ok = true →
    s16Decode (fun u => (s16Encode vals).words[u]?.map s16Split) vals.length =
      some (vals, (s16Encode vals).words.length)

/-- 41_simple16.md R166: how many codewords are consumed, on any stream. -/
def Obligations.S16WordsConsumed : Prop :=
  ∀ (words : Nat → Word) cnt, ∃ vals u,
    s16Decode (fun i => some (s16Split (words i))) cnt = some (vals, u) ∧
    cnt ≤ ((List.range u).map fun i => s16Slots (s16Sel (words i))).sum ∧
    (∀ u' < u, ((List.range u').map fun i => s16Slots (s16Sel (words i))).sum < cnt) ∧
    (u = 0 ↔ cnt = 0) ∧ (cnt + 27) / 28 ≤ u ∧ u ≤ cnt

/-! ### PForDelta -/

/-- 42_pfordelta.md R191: the category is that of the block's largest Value, never 3, and gives the width of
the exception Values. -/
def Obligations.CategoryIsThatOfTheLargestValue : Prop :=
  ∀ blk : List Word,
    (pfdCat blk = 0 ↔ ∀ v ∈ blk, v.toNat < 256) ∧
    (pfdCat blk = 1 ↔ (∀ v ∈ blk, v.toNat < 65536) ∧ ∃ v ∈ blk, 256 ≤ v.toNat) ∧
    (pfdCat blk = 2 ↔ ∃ v ∈ blk, 65536 ≤ v.toNat) ∧ pfdCat blk ≠ 3 ∧ catWidth (pfdCat blk) = 8 * 2 ^ pfdCat blk

/-- 42_pfordelta.md R194, with R195 and R196: exactly the positions of the rule are exceptions; their true Values are
the side list, in order. -/
def Obligations.ScanFindsExactlyTheExceptions : Prop :=
  ∀ (blk : List Word) b, blk.length = 128 →
    let r := scan blk b
    r.pos.Pairwise (· < ·) ∧ (∀ p ∈ r.pos, p < 128) ∧ r.exc = r.pos.map (fun p => blk.getD p 0) ∧
    ∀ i < 128, (i ∈ r.pos ↔
      2 ^ b ≤ (blk.getD i 0).toNat ∨ ∃ p ∈ r.pos, (∀ q ∈ r.pos, q < i → q ≤ p) ∧ p < i ∧ i - p = 2 ^ b)

/-- 42_pfordelta.md R199: everything packed fits its width, and the last exception's hop leaves the block. -/
def Obligations.EverythingPackedFits : Prop :=
  ∀ (blk : List Word) k, blk.length = 128 → k < 14 →
    let b := cand k
    let r := scan blk b
    r.work.length = 128 ∧
    (∀ w ∈ r.work, w.toNat < 2 ^ b) ∧
    (∀ i < 128, i ∉ r.pos → r.work.getD i 0 = blk.getD i 0) ∧
    (∀ n (h : n + 1 < r.pos.length), (r.work.getD r.pos[n] 0).toNat = r.pos[n + 1] - 1 - r.pos[n] ∧
      r.pos[n + 1] - r.pos[n] ≤ 2 ^ b) ∧
    (∀ p, r.pos.getLast? = some p → (r.work.getD p 0).toNat = 2 ^ b - 1 ∧ 128 ≤ p + 2 ^ b) ∧
    (∀ v ∈ r.exc, v.toNat < 2 ^ catWidth (pfdCat blk))

/-- 42_pfordelta.md R198: no forced exception at width 7 and more; how many exceptions one outlier makes below. -/
def Obligations.ForcedExceptionsOnlyAtSmallWidths : Prop :=
  (∀ (blk : List Word) b, blk.length = 128 → 7 ≤ b → ∀ p ∈ (scan blk b).pos, 2 ^ b ≤ (blk.getD p 0).toNat) ∧
  (∀ (blk : List Word) b p, blk.length = 128 → p < 128 → b ≤ 6 →
    (∀ j < 128, 2 ^ b ≤ (blk.getD j 0).toNat ↔ j = p) → (scan blk b).pos.length = 1 + (127 - p) / 2 ^ b)

/-- 42_pfordelta.md R205 (b), with R192: the chosen width is the smallest candidate with at most 12 exceptions, and it
is what the header says. -/
def Obligations.PfdencChoosesTheSmallestWidth : Prop :=
  ∀ blk : List Word, blk.length = 128 →
    let k := pfdChoose blk
    k ≤ 14 ∧ (k < 14 → (scan blk (cand k)).exc.length ≤ 12) ∧
    (∀ k' < k, 12 < (scan blk (cand k')).exc.length) ∧
    field ((pfdEncode blk).getD 0 0) 15 12 = k

/-- 42_pfordelta.md R200 and 30_encoding.md R90: the fields of the header an encoded block begins with. -/
def Obligations.HeaderOfAnEncodedBlock : Prop :=
  ∀ blk : List Word, blk.length = 128 →
    let h := (pfdEncode blk).getD 0 0
    field h 31 16 = 0 ∧ field h 11 10 = pfdCat blk ∧ field h 15 12 = pfdChoose blk ∧
    field h 9 0 = (if pfdChoose blk < 14 then (scan blk (cand (pfdChoose blk))).pos.headD 128 else 128)

/-- 42_pfordelta.md R202 and R203, for an accepted width below 32: an encoded block is its header, the four packed
groups of the working array, and the side list packed at the category's width. -/
def Obligations.EncodedBlockIsHeaderGroupsAndSideList : Prop :=
  ∀ blk : List Word, blk.length = 128 → pfdChoose blk < 14 →
    let k := pfdChoose blk
    let b := cand k
    let r := scan blk b
    let ew := 8 * 2 ^ pfdCat blk
    (∀ k' < k, 12 < (scan blk (cand k')).exc.length) ∧ r.exc.length ≤ 12 ∧
    pfdEncode blk =
      [BitVec.ofNat 32 (k * 2 ^ 12 + pfdCat blk * 2 ^ 10 + r.pos.headD 128)] ++
        packn (r.work.take 32) b ++ packn ((r.work.drop 32).take 32) b ++ packn ((r.work.drop 64).take 32) b ++
        packn ((r.work.drop 96).take 32) b ++ packn r.exc ew ∧
    (pfdEncode blk).length = 1 + 4 * b + (r.exc.length * ew + 31) / 32

/-- 42_pfordelta.md R201: the width-32 path. -/
def Obligations.WidthThirtyTwoPathIsVerbatim : Prop :=
  ∀ blk : List Word, blk.length = 128 → pfdChoose blk = 14 →
    pfdCat blk = 2 ∧ pfdEncode blk = 0x0000E880 :: blk ∧ (pfdEncode blk).length = 129 ∧
    (0x0000E880 :: blk) = pfdHeader 14 2 128 :: packMain blk 32

/-- 42_pfordelta.md R205 (a), (c), (d): lengths of encoded blocks, and blocks of Values below 4. -/
def Obligations.EncodedBlockLengths : Prop :=
  (∀ blk : List Word, blk.length = 128 →
    9 ≤ (pfdEncode blk).length ∧ (pfdEncode blk).length ≤ 129 ∧
    ((pfdEncode blk).length = 129 → pfdChoose blk = 14) ∧
    (pfdChoose blk < 14 → (pfdEncode blk).length ≤ 93)) ∧
  (∀ blk : List Word, blk.length = 128 → (∀ v ∈ blk, v.toNat < 4) →
    pfdEncode blk = 0x00000080 :: packMain blk 2 ∧ (pfdEncode blk).length = 9) ∧
  pfdEncode (List.replicate 128 0) = 0x00000080 :: List.replicate 8 0

/-- 42_pfordelta.md R212 and R213: the walk, one hop at a time, over any stored array and any exception list. -/
def Obligations.ChainWalkGoesHopByHop : Prop :=
  ∀ (rd : Nat → Option Word) base ew (vals : List Word) s n, vals.length = 128 → ew = 8 ∨ ew = 16 ∨ ew = 32 →
    (128 ≤ s → pfdWalk rd base ew 128 vals s n = some (vals, n)) ∧
    (s < 128 → pfdWalk rd base ew 128 vals s n =
      match rd (base + n * ew / 32) with
      | none => none
      | some w => pfdWalk rd base ew 128
          (vals.set s (BitVec.ofNat 32 (w.toNat / 2 ^ (32 - n * ew % 32 - ew) % 2 ^ ew)))
          (s + (vals.getD s 0).toNat + 1) (n + 1))

/-- 42_pfordelta.md R211 to R217: on any input words and any header that is not reserved the decoder answers. The
stored array is the four groups unpacked from words `1 .. 4·b`; the Values, and the number `n` of entries used, are those
of the chain walk over it from `START` with the side list at word `1 + 4·b`; 9 to 257 words are consumed. -/
def Obligations.DecoderIsTotalAndBounded : Prop :=
  ∀ (words : Nat → Word) (h : PfdHeader), headerReserved h.cat h.widx = false →
    let b := cand h.widx.toNat
    let ew := catWidth h.cat.toNat
    ∃ stored vals t n, stored.length = 128 ∧
      (∀ g < 4, (stored.drop (32 * g)).take 32 =
        unpackn ((List.range b).map fun i => words (1 + g * b + i)) 32 b) ∧
      pfdWalk (fun i => some (words i)) (1 + 4 * b) ew 128 stored h.start.toNat 0 = some (vals, n) ∧
      pfdDecode (fun i => some (words i)) h = some (vals, t) ∧ vals.length = 128 ∧ n ≤ 128 ∧
      t = 1 + 4 * b + (n * ew + 31) / 32 ∧ 9 ≤ t ∧ t ≤ 257 ∧
      (128 ≤ h.start.toNat → n = 0 ∧ vals = stored)

/-- 42_pfordelta.md R218: decoding an encoded block gives the block back and consumes exactly its words. -/
def Obligations.PfdDecodeOfEncodeIsTheBlock : Prop :=
  ∀ blk : List Word, blk.length = 128 →
    let out := pfdEncode blk
    headerReserved (pfdHeaderOf (out.getD 0 0)).cat (pfdHeaderOf (out.getD 0 0)).widx = false ∧
    pfdDecode (fun i => out[i]?) (pfdHeaderOf (out.getD 0 0)) = some (blk, out.length)

/-! ### The host script -/

/-- 30_encoding.md R99 and R100: the lines of a script stand for the host steps of the rule's table, at the register
indices of 10_state.md R22; the command lines write words that decode to their operations; `clrerr` clears `SERR` and
nothing else. That a loaded script is performed after the host steps already waiting is the model's choice (DESIGN
CHOICE, logs 4 and 16). -/
def Obligations.ScriptLinesWriteTheirCommandWords : Prop :=
  [Reg.cmd, .src, .dst, .count, .status, .result].map Reg.index = [0, 1, 2, 3, 4, 5] ∧
  (∀ reg v, (ScriptLine.wr reg v).steps = [.regWrite reg.index v]) ∧
  (∀ reg, (ScriptLine.rd reg).steps = [.regRead reg.index]) ∧
  (∀ a, (ScriptLine.mr a).steps = [.memRead a]) ∧
  (∀ a vs, (ScriptLine.mw a vs).steps.length = vs.length ∧
    ∀ i (h : i < vs.length), (ScriptLine.mw a vs).steps[i]? = some (.memWrite (a + i) vs[i])) ∧
  (∀ (s : Machine.State) script line, ((s.load script).load [line]).pending =
      s.pending ++ script.flatMap ScriptLine.steps ++ line.steps ∧
    { s.load script with pending := s.pending } = s) ∧
  (∀ bits ≤ 32, ∃ c, (ScriptLine.pack bits).steps = [.regWrite 0 c] ∧ c.toNat = 0x001 + 16 * bits ∧
    decode .cmdw c = .ok (.pack (BitVec.ofNat 6 bits))) ∧
  (∀ bits ≤ 32, ∃ c, (ScriptLine.unpack bits).steps = [.regWrite 0 c] ∧ c.toNat = 0x002 + 16 * bits ∧
    decode .cmdw c = .ok (.unpack (BitVec.ofNat 6 bits))) ∧
  (∀ l c i, (l = .s16enc ∧ c = 3 ∧ i = .s16enc) ∨ (l = .s16dec ∧ c = 4 ∧ i = .s16dec) ∨
      (l = .pfdenc ∧ c = 5 ∧ i = .pfdenc) ∨ (l = .pfddec ∧ c = 6 ∧ i = .pfddec) →
    ScriptLine.steps l = [.regWrite 0 c] ∧ decode .cmdw c = .ok i) ∧
  (ScriptLine.clrerr.steps = [.regWrite 4 0x10] ∧ ∀ s, s.pending = ScriptLine.clrerr.steps →
    ∃ t, step s = .next t ∧ t.serr = false ∧ t.err = s.err ∧ { t with status := s.status } = { s with pending := [] })

/-- 30_encoding.md R99, the lines `mw`, `mr`, `wr` and `rd` performed: a loaded `mw` line of any number of words inside
memory sets those words and changes no other word and no register; a loaded `mr`, `wr` or `rd` line does its one host
step (20_memory.md R64, 10_state.md R39; `wr` of `CMD` is said elsewhere). -/
def Obligations.LoadedScriptLinesArePerformed : Prop :=
  ∀ s : Machine.State, s.pending = [] →
    (∀ a vs, a + vs.length ≤ s.memWords → ∃ t, core.run vs.length (s.load [.mw a vs]) = .next t ∧
      Holds t a vs ∧ SameOutside s t a vs.length ∧ { t with mem := s.mem } = s) ∧
    (∀ a < s.memWords, core.run 1 (s.load [.mr a]) = .next { s with reply := some (s.memWord a) }) ∧
    (∀ reg, core.run 1 (s.load [.rd reg]) = .next { s with reply := some (s.readReg reg.index) }) ∧
    (∀ reg v, reg ≠ .cmd → core.run 1 (s.load [.wr reg v]) = .next (s.writeReg reg.index v))
end

