-- ==== Sys2Proof/Laws/Packer.lean ====
section
/-! SUPPORT. The block packer, bit by bit. -/

namespace Sys2Proof.Machine

@[simp] theorem getLsbD_mask (k i : Nat) : (mask k).getLsbD i = (decide (i < 32) && decide (i < k)) := by
  simp [mask, BitVec.getLsbD_ofNat, Nat.testBit_two_pow_sub_one]

theorem toNat_mask_lt (k : Nat) : (mask k).toNat < 2 ^ k := by
  simp only [mask, BitVec.toNat_ofNat]
  exact (Nat.mod_le _ _).trans_lt (Nat.sub_lt (Nat.two_pow_pos k) Nat.one_pos)

/-- A word cut to `k` bits is its value modulo `2^k`. -/
theorem toNat_and_mask (v : Word) {k : Nat} (h : k ≤ 32) : (v &&& mask k).toNat = v.toNat % 2 ^ k := by
  have hk : 2 ^ k - 1 < 2 ^ 32 := by
    have := Nat.pow_le_pow_right (n := 2) (by decide) h
    have := Nat.two_pow_pos k
    omega
  rw [BitVec.toNat_and, mask, BitVec.toNat_ofNat, Nat.mod_eq_of_lt hk, Nat.and_two_pow_sub_one_eq_mod]

/-- A word that fits `k` bits is not changed by cutting it to `k` bits. -/
theorem and_mask_of_lt {v : Word} {k : Nat} (hv : v.toNat < 2 ^ k) : v &&& mask k = v := by
  by_cases h : k ≤ 32
  · exact BitVec.eq_of_toNat_eq (by rw [toNat_and_mask v h, Nat.mod_eq_of_lt hv])
  · refine BitVec.eq_of_getLsbD_eq fun i hi => ?_
    simp [hi, show i < k by omega]

/-- Two words with the same bits in stream order are the same word. -/
theorem word_ext_stream {v w : Word} (h : ∀ i < 32, v.getLsbD (31 - i) = w.getLsbD (31 - i)) : v = w := by
  refine BitVec.eq_of_getLsbD_eq fun i hi => ?_
  have := h (31 - i) (by omega)
  rwa [show 31 - (31 - i) = i by omega] at this

/-- Two lists of words of the same length with the same stream bits are the same. -/
theorem words_ext_stream {ws vs : List Word} (hl : ws.length = vs.length)
    (h : ∀ p < 32 * ws.length, streamBit ws p = streamBit vs p) : ws = vs := by
  refine List.ext_getElem hl fun k h1 h2 => word_ext_stream fun i hi => ?_
  have := h (32 * k + i) (by omega)
  simpa [streamBit, show (32 * k + i) / 32 = k by omega, show (32 * k + i) % 32 = i by omega, List.getD,
    List.getElem?_eq_getElem h1, List.getElem?_eq_getElem h2] using this

/-! ### `packn` -/

@[simp] theorem length_orAt (ws : List Word) (k : Nat) (x : Word) : (orAt ws k x).length = ws.length := by
  induction ws generalizing k with
  | nil => rfl
  | cons w ws ih => cases k <;> simp [orAt, ih]

theorem getD_orAt (ws : List Word) (k j : Nat) (x : Word) :
    (orAt ws k x).getD j 0 = if j = k ∧ k < ws.length then ws.getD j 0 ||| x else ws.getD j 0 := by
  induction ws generalizing k j with
  | nil => simp [orAt]
  | cons w ws ih =>
    cases k with
    | zero => cases j <;> simp [orAt]
    | succ k => cases j with
      | zero => simp [orAt]
      | succ j => simpa [orAt] using ih k j

@[simp] theorem length_packElem (B i : Nat) (v : Word) (out : List Word) :
    (packElem B i v out).length = out.length := by
  simp only [packElem]; split <;> simp

@[simp] theorem length_packFrom (B i : Nat) (vals out : List Word) :
    (packFrom B i vals out).length = out.length := by
  induction vals generalizing i out with
  | nil => rfl
  | cons v vals ih => simp [packFrom, ih]

/-- The length of a packed list (40_block_packer.md R122). -/
theorem length_packn (vals : List Word) (B : Nat) : (packn vals B).length = wordsFor (vals.length * B) := by
  by_cases h : B = 0 <;> simp [packn, h, wordsFor]

theorem streamBit_orAt (ws : List Word) (k p : Nat) (x : Word) :
    streamBit (orAt ws k x) p =
      (streamBit ws p || (decide (p / 32 = k ∧ k < ws.length) && x.getLsbD (31 - p % 32))) := by
  simp only [streamBit, getD_orAt]
  split <;> simp_all

/-- One element sets, among the stream bits, exactly its own: bit `B - 1 - j` of the value at stream bit `i·B + j`
(40_block_packer.md R120, R121). -/
theorem streamBit_packElem {B i : Nat} {v : Word} {out : List Word} (h1 : 1 ≤ B) (h2 : B ≤ 32)
    (hlen : (i + 1) * B ≤ 32 * out.length) (p : Nat) :
    streamBit (packElem B i v out) p =
      (streamBit out p || (decide (i * B ≤ p ∧ p < (i + 1) * B) && v.getLsbD ((i + 1) * B - 1 - p))) := by
  have hx : (i + 1) * B = i * B + B := by ring
  rw [hx] at hlen ⊢
  simp only [packElem, elemStart, elemEnd, elemOff, hx]
  generalize i * B = x at *
  split
  · next hse =>
    rw [streamBit_orAt]
    congr 1
    rw [Bool.eq_iff_iff]
    simp only [BitVec.getLsbD_shiftLeft, BitVec.getLsbD_and, getLsbD_mask, Bool.and_eq_true, decide_eq_true_eq,
      Bool.not_eq_true', decide_eq_false_iff_not]
    constructor
    · rintro ⟨⟨h3, h4⟩, ⟨h5, h6⟩, h7, h8, h9⟩
      refine ⟨by omega, ?_⟩
      rwa [show x + B - 1 - p = 31 - p % 32 - (32 - x % 32 - B) by omega]
    · rintro ⟨⟨h3, h4⟩, h5⟩
      refine ⟨⟨by omega, by omega⟩, ⟨by omega, by omega⟩, ?_, by omega, by omega⟩
      rwa [show 31 - p % 32 - (32 - x % 32 - B) = x + B - 1 - p by omega]
  · next hse =>
    rw [streamBit_orAt, streamBit_orAt, Bool.or_assoc]
    congr 1
    rw [Bool.eq_iff_iff]
    simp only [BitVec.getLsbD_shiftLeft, BitVec.getLsbD_ushiftRight, BitVec.getLsbD_and, getLsbD_mask,
      Bool.and_eq_true, Bool.or_eq_true, decide_eq_true_eq, Bool.not_eq_true', decide_eq_false_iff_not, length_orAt]
    constructor
    · rintro (⟨⟨h3, h4⟩, h5, h6, h7⟩ | ⟨⟨h3, h4⟩, ⟨h5, h6⟩, ⟨h7, h8, h9⟩, h10, h11⟩)
      · refine ⟨by omega, ?_⟩
        rwa [show x + B - 1 - p = x % 32 + B - 32 + (31 - p % 32) by omega]
      · refine ⟨by omega, ?_⟩
        rwa [show x + B - 1 - p = 31 - p % 32 - (32 - (x % 32 + B - 32)) by omega]
    · rintro ⟨⟨h3, h4⟩, h5⟩
      by_cases hp : p / 32 = x / 32
      · left
        refine ⟨⟨hp, by omega⟩, ?_, by omega, by omega⟩
        rwa [show x % 32 + B - 32 + (31 - p % 32) = x + B - 1 - p by omega]
      · right
        have hpe : p / 32 = (x + B - 1) / 32 := by omega
        refine ⟨⟨hpe, by omega⟩, ⟨by omega, by omega⟩, ⟨?_, by omega, by omega⟩, by omega, by omega⟩
        rwa [show 31 - p % 32 - (32 - (x % 32 + B - 32)) = x + B - 1 - p by omega]

/-- The bits of a list of elements of width `B`, most significant bit of each first; past the end, false. -/
def elemBit (vals : List Word) (B p : Nat) : Bool :=
  decide (p / B < vals.length) && (vals.getD (p / B) 0).getLsbD (B - 1 - p % B)

theorem streamBit_packFrom {B : Nat} (h1 : 1 ≤ B) (h2 : B ≤ 32) (vals : List Word) (i : Nat) (out : List Word)
    (hlen : (i + vals.length) * B ≤ 32 * out.length) (p : Nat) :
    streamBit (packFrom B i vals out) p = (streamBit out p || (decide (i * B ≤ p) && elemBit vals B (p - i * B))) := by
  induction vals generalizing i out with
  | nil => simp [packFrom, elemBit]
  | cons v vals ih =>
    have hle : (i + 1) * B ≤ 32 * out.length := by
      refine le_trans (Nat.mul_le_mul_right B ?_) hlen
      simp
    rw [packFrom, ih (i + 1) _ (by rw [length_packElem]; simpa [Nat.add_assoc, Nat.add_comm 1] using hlen),
      streamBit_packElem h1 h2 hle, Bool.or_assoc]
    congr 1
    have hx : (i + 1) * B = i * B + B := by ring
    rw [hx]
    generalize i * B = x
    by_cases ha : x ≤ p
    · by_cases hb : p < x + B
      · have hc : ¬ x + B ≤ p := by omega
        have hd : (p - x) / B = 0 := Nat.div_eq_of_lt (by omega)
        have he : (p - x) % B = p - x := Nat.mod_eq_of_lt (by omega)
        simp [ha, hb, hc, elemBit, hd, he, show B - 1 - (p - x) = x + B - 1 - p by omega]
      · have hc : x + B ≤ p := by omega
        have hd : (p - x) / B = (p - (x + B)) / B + 1 := by
          rw [show p - x = (p - (x + B)) + B by omega, Nat.add_div_right _ (by omega)]
        have he : (p - x) % B = (p - (x + B)) % B := by
          rw [show p - x = (p - (x + B)) + B by omega, Nat.add_mod_right]
        simp [ha, hb, hc, elemBit, hd, he]
    · have hc : ¬ x + B ≤ p := by omega
      simp [ha, hc]

theorem streamBit_replicate_zero (n p : Nat) : streamBit (List.replicate n 0) p = false := by
  simp only [streamBit, List.getD, List.getElem?_replicate]
  split <;> simp

/-- The stream bits of a packed list are those of its elements, and zero after them (40_block_packer.md R120, R131). -/
theorem streamBit_packn {B : Nat} (h1 : 1 ≤ B) (h2 : B ≤ 32) (vals : List Word) (p : Nat) :
    streamBit (packn vals B) p = elemBit vals B p := by
  rw [packn, if_neg (by omega), streamBit_packFrom h1 h2 vals 0 _ (by simp [wordsFor]; omega)]
  rw [streamBit_replicate_zero]
  simp

theorem elemBit_elem {B : Nat} (vals : List Word) {i j : Nat} (hi : i < vals.length) (hj : j < B) :
    elemBit vals B (i * B + j) = (vals.getD i 0).getLsbD (B - 1 - j) := by
  have hd : (i * B + j) / B = i := by
    rw [Nat.mul_comm, Nat.mul_add_div (by omega), Nat.div_eq_of_lt hj, Nat.add_zero]
  have he : (i * B + j) % B = j := by rw [Nat.mul_comm, Nat.mul_add_mod, Nat.mod_eq_of_lt hj]
  simp only [elemBit, hd, he, hi, decide_true, Bool.true_and]

/-! ### `unpackn` -/

@[simp] theorem length_unpackn (words : List Word) (n B : Nat) : (unpackn words n B).length = n := by
  by_cases h : B = 0 <;> simp [unpackn, h]

/-- Bit `B - 1 - j` of element `i` is stream bit `i·B + j` of the words; the bits above are zero
(40_block_packer.md R123). -/
theorem getLsbD_unpackElem {B : Nat} (h1 : 1 ≤ B) (h2 : B ≤ 32) (words : List Word) (i b : Nat) :
    (unpackElem words B i).getLsbD b = (decide (b < B) && streamBit words (i * B + (B - 1 - b))) := by
  have hx : (i + 1) * B = i * B + B := by ring
  simp only [unpackElem, streamBit, elemStart, elemEnd, elemOff, hx]
  generalize i * B = x
  split
  · next hse =>
    simp only [BitVec.getLsbD_and, BitVec.getLsbD_ushiftRight, getLsbD_mask]
    by_cases hb : b < B
    · have e1 : (x + (B - 1 - b)) / 32 = x / 32 := by omega
      have e2 : 31 - (x + (B - 1 - b)) % 32 = 32 - x % 32 - B + b := by omega
      simp [hb, e1, e2, show b < 32 by omega]
    · simp [hb]
  · next hse =>
    simp only [BitVec.getLsbD_or, BitVec.getLsbD_shiftLeft, BitVec.getLsbD_and, BitVec.getLsbD_ushiftRight,
      getLsbD_mask]
    by_cases hb : b < B
    · by_cases hr : b < x % 32 + B - 32
      · have e1 : (x + (B - 1 - b)) / 32 = (x + B - 1) / 32 := by omega
        have e2 : 31 - (x + (B - 1 - b)) % 32 = 32 - (x % 32 + B - 32) + b := by omega
        simp [hb, hr, e1, e2]
      · have e1 : (x + (B - 1 - b)) / 32 = x / 32 := by omega
        have e2 : 31 - (x + (B - 1 - b)) % 32 = b - (x % 32 + B - 32) := by omega
        have e3 (w : Word) : w.getLsbD (32 - (x % 32 + B - 32) + b) = false :=
          BitVec.getLsbD_of_ge _ _ (by omega)
        simp [hb, hr, e1, e2, e3, show b < 32 by omega, show b - (x % 32 + B - 32) < 32 - x % 32 by omega,
          show b - (x % 32 + B - 32) < 32 by omega]
    · have e3 : (words.getD ((x + B - 1) / 32) 0).getLsbD (32 - (x % 32 + B - 32) + b) = false :=
        BitVec.getLsbD_of_ge _ _ (by omega)
      simp only [hb, e3]
      simp
      omega

theorem getD_unpackn {words : List Word} {n B i : Nat} (hi : i < n) (hB : B ≠ 0) :
    (unpackn words n B).getD i 0 = unpackElem words B i := by
  simp [unpackn, hB, List.getD, hi]

end Sys2Proof.Machine
end

