-- ==== Sys2Proof/Laws/Simple16.lean ====
section
/-! SUPPORT. The Simple16 codec: the layouts, the codeword, the two loops. -/

namespace Sys2Proof.Machine

/-! ### The layouts (30_encoding.md R86) -/

theorem s16Layout_sum : ∀ k < 16, (s16Layout k).sum = 28 := by decide

theorem s16Slots_pos : ∀ k < 16, 1 ≤ s16Slots k := by decide

theorem s16Slots_le : ∀ k < 16, s16Slots k ≤ 28 := by decide

theorem s16Sel_lt (w : Word) : s16Sel w < 16 := (w.extractLsb' 28 4).isLt

/-! ### Cutting slots out of a word and placing them in one (R85, R87, R154) -/

@[simp] theorem length_splitSlots (w : Word) (top : Nat) (ws : List Nat) : (splitSlots w top ws).length = ws.length := by
  induction ws generalizing top with
  | nil => rfl
  | cons wd ws ih => simp [splitSlots, ih]

/-- A codeword spells one Value per slot of its layout (R161). -/
theorem length_s16Split (w : Word) : (s16Split w).length = s16Slots (s16Sel w) := length_splitSlots ..

theorem one_le_length_s16Split (w : Word) : 1 ≤ (s16Split w).length := by
  rw [length_s16Split]; exact s16Slots_pos _ (s16Sel_lt w)

/-- The values fit the widths, slot by slot. -/
def Fit (ws : List Nat) (vs : List Word) : Prop := ∀ p ∈ vs.zip ws, p.1.toNat < 2 ^ p.2

@[simp] theorem fit_nil (ws : List Nat) : Fit ws [] := by simp [Fit]

theorem fit_cons (wd : Nat) (ws : List Nat) (v : Word) (vs : List Word) :
    Fit (wd :: ws) (v :: vs) ↔ v.toNat < 2 ^ wd ∧ Fit ws vs := by simp [Fit]

theorem s16Attempt_iff (k : Nat) (vals : List Word) : s16Attempt k vals = true ↔ Fit (s16Layout k) vals := by
  simp only [s16Attempt, Fit, List.all_eq_true, decide_eq_true_eq]

theorem slotsFit_iff (k : Nat) (slots : List Word) :
    slotsFit k slots = true ↔ slots.length = s16Slots k ∧ Fit (s16Layout k) slots := by
  simp only [slotsFit, Bool.and_eq_true, beq_iff_eq, Fit, List.all_eq_true, decide_eq_true_eq]

theorem fit_take {ws : List Nat} {vs : List Word} (h : Fit ws vs) (m : Nat) : Fit ws (vs.take m) := by
  intro p hp
  refine h p ?_
  rw [List.mem_iff_getElem] at hp ⊢
  obtain ⟨i, hi, rfl⟩ := hp
  simp only [List.length_zip, List.length_take] at hi
  exact ⟨i, by simp only [List.length_zip]; omega, by simp⟩

theorem fit_of_take {ws : List Nat} {vs : List Word} (h : Fit ws (vs.take ws.length)) : Fit ws vs := by
  induction vs generalizing ws with
  | nil => simp
  | cons v vs ih =>
    cases ws with
    | nil => simp [Fit]
    | cons wd ws =>
      rw [List.length_cons, List.take_succ_cons, fit_cons] at h
      exact (fit_cons ..).2 ⟨h.1, ih h.2⟩

/-- Placed values stay below the slots that precede them. -/
theorem toNat_placeSlots_lt {ws : List Nat} {vs : List Word} {top : Nat} (hf : Fit ws vs) (hs : ws.sum ≤ top)
    (ht : top ≤ 32) : (placeSlots top ws vs).toNat < 2 ^ top := by
  induction ws generalizing top vs with
  | nil => cases vs <;> simp [placeSlots]
  | cons wd ws ih =>
    cases vs with
    | nil => simp [placeSlots]
    | cons v vs =>
      obtain ⟨hv, hf⟩ := (fit_cons ..).1 hf
      rw [List.sum_cons] at hs
      have h1 := ih (top := top - wd) hf (by omega) (by omega)
      have hp : 2 ^ (top - wd) ≤ 2 ^ top := Nat.pow_le_pow_right (by decide) (by omega)
      rw [placeSlots, BitVec.toNat_or]
      refine Nat.or_lt_two_pow ?_ (h1.trans_le hp)
      rw [BitVec.toNat_shiftLeft, Nat.shiftLeft_eq]
      refine (Nat.mod_le _ _).trans_lt ?_
      calc v.toNat * 2 ^ (top - wd) < 2 ^ wd * 2 ^ (top - wd) :=
            Nat.mul_lt_mul_of_pos_right hv (Nat.two_pow_pos _)
        _ = 2 ^ top := by rw [← Nat.pow_add]; congr 1; omega

/-- Cutting out the slots that were placed gives the values back, zeros in the slots without one (R88, R161). The bits
above `top` may hold anything. -/
theorem splitSlots_or_placeSlots {ws : List Nat} {vs : List Word} {top : Nat} (hi : Word) (hf : Fit ws vs)
    (hlen : vs.length ≤ ws.length) (hs : ws.sum ≤ top) (ht : top ≤ 32) (hhi : ∀ i < top, hi.getLsbD i = false) :
    splitSlots (hi ||| placeSlots top ws vs) top ws = vs ++ List.replicate (ws.length - vs.length) 0 := by
  induction ws generalizing top vs hi with
  | nil => cases vs with
    | nil => rfl
    | cons v vs => simp at hlen
  | cons wd ws ih =>
    rw [List.sum_cons] at hs
    cases vs with
    | nil =>
      have h0 : ∀ (top : Nat) (ws : List Nat), ws.sum ≤ top → (∀ i < top, hi.getLsbD i = false) →
          splitSlots hi top ws = List.replicate ws.length 0 := by
        intro top ws
        induction ws generalizing top with
        | nil => intros; rfl
        | cons wd ws ih =>
          intro hs hhi
          rw [List.sum_cons] at hs
          rw [splitSlots, ih _ (by omega) fun i hi' => hhi i (by omega), List.length_cons, List.replicate_succ]
          congr 1
          refine BitVec.eq_of_getLsbD_eq fun i _ => ?_
          simp only [BitVec.getLsbD_and, BitVec.getLsbD_ushiftRight, getLsbD_mask]
          by_cases hi' : i < wd
          · rw [hhi _ (by omega)]; simp
          · simp [hi']
      have := h0 top (wd :: ws) (by simpa using hs) hhi
      simpa [placeSlots] using this
    | cons v vs =>
      obtain ⟨hv, hf⟩ := (fit_cons ..).1 hf
      have hplace := toNat_placeSlots_lt (top := top - wd) hf (by omega) (by omega)
      have hlow : ∀ i, top - wd ≤ i → (placeSlots (top - wd) ws vs).getLsbD i = false := by
        intro i hi'
        rw [BitVec.getLsbD, Nat.testBit_lt_two_pow (hplace.trans_le (Nat.pow_le_pow_right (by decide) hi'))]
      have hvhigh : ∀ i, wd ≤ i → v.getLsbD i = false := by
        intro i hi'
        rw [BitVec.getLsbD, Nat.testBit_lt_two_pow (hv.trans_le (Nat.pow_le_pow_right (by decide) hi'))]
      rw [placeSlots, splitSlots, List.length_cons, List.length_cons, Nat.add_sub_add_right, List.cons_append]
      congr 1
      · refine BitVec.eq_of_getLsbD_eq fun i hi32 => ?_
        simp only [BitVec.getLsbD_and, BitVec.getLsbD_ushiftRight, BitVec.getLsbD_or, BitVec.getLsbD_shiftLeft,
          getLsbD_mask]
        rw [hlow (top - wd + i) (by omega)]
        by_cases hi' : i < wd
        · rw [hhi (top - wd + i) (by omega)]
          simp [hi', hi32, show top - wd + i < 32 by omega]
        · simp [hi', hvhigh i (by omega)]
      · rw [← BitVec.or_assoc]
        refine ih (top := top - wd) (hi ||| v <<< (top - wd)) hf (by simpa using hlen) (by omega) (by omega) fun i hi' => ?_
        simp [hhi i (by omega), show i < top - wd by omega]

/-- A codeword's selector is the layout it was formatted in (R154). -/
theorem s16Sel_s16Format {k : Nat} (hk : k < 16) {vs : List Word} (hf : Fit (s16Layout k) vs) :
    s16Sel (s16Format k vs) = k := by
  have hp : (placeSlots s16Payload (s16Layout k) vs).toNat < 2 ^ 28 :=
    toNat_placeSlots_lt hf (le_of_eq (s16Layout_sum k hk)) (by decide)
  rw [s16Sel, s16Format, BitVec.extractLsb'_toNat, BitVec.toNat_or, BitVec.toNat_shiftLeft, BitVec.toNat_ofNat,
    Nat.mod_eq_of_lt (show k < 2 ^ 32 by omega), Nat.shiftLeft_eq, Nat.mod_eq_of_lt (show k * 2 ^ 28 < 2 ^ 32 by omega)]
  rw [show k * 2 ^ 28 = k <<< 28 by rw [Nat.shiftLeft_eq], ← Nat.shiftLeft_add_eq_or_of_lt hp, Nat.shiftLeft_eq,
    Nat.shiftRight_eq_div_pow]
  omega

/-- Splitting a codeword gives back the values it was formatted from, then a zero for each unfilled slot (R88). -/
theorem s16Split_s16Format {k : Nat} (hk : k < 16) {vs : List Word} (hf : Fit (s16Layout k) vs)
    (hlen : vs.length ≤ s16Slots k) :
    s16Split (s16Format k vs) = vs ++ List.replicate (s16Slots k - vs.length) 0 := by
  rw [s16Split, s16Sel_s16Format hk hf, s16Format]
  refine splitSlots_or_placeSlots _ hf hlen (le_of_eq (s16Layout_sum k hk)) (by decide) fun i hi => ?_
  have hi' : i < 28 := hi
  simp [hi']

/-! ### The encoder loop (R155) -/

theorem s16Choose_some {vals : List Word} {k : Nat} (h : s16Choose vals = some k) :
    k < 16 ∧ Fit (s16Layout k) vals := by
  have h1 := List.find?_some h
  have h2 := List.mem_of_find?_eq_some h
  exact ⟨List.mem_range.1 h2, (s16Attempt_iff ..).1 h1⟩

/-- The bound on the codewords does not matter once it is at least the number of Values. -/
theorem s16EncodeFrom_fuel {f g : Nat} {vals : List Word} (hf : vals.length ≤ f) (hg : vals.length ≤ g) (pos : Nat) :
    s16EncodeFrom f vals pos = s16EncodeFrom g vals pos := by
  induction f generalizing g vals pos with
  | zero =>
    obtain rfl : vals = [] := List.length_eq_zero_iff.1 (by omega)
    cases g <;> rfl
  | succ f ih =>
    cases vals with
    | nil => cases g <;> rfl
    | cons v vs =>
      cases g with
      | zero => simp at hg
      | succ g =>
        rw [s16EncodeFrom, s16EncodeFrom]
        cases hc : s16Choose (v :: vs) with
        | none => rfl
        | some k =>
          have h1 := s16Slots_pos k (s16Choose_some hc).1
          simp only [List.length_cons] at hf hg ⊢
          rw [ih (g := g) (by simp; omega) (by simp; omega)]

/-- No more codewords than Values (R157 (c)). -/
theorem length_s16EncodeFrom_le (fuel : Nat) (vals : List Word) (pos : Nat) :
    (s16EncodeFrom fuel vals pos).words.length ≤ vals.length := by
  induction fuel generalizing vals pos with
  | zero => cases vals <;> simp [s16EncodeFrom]
  | succ fuel ih =>
    cases vals with
    | nil => simp [s16EncodeFrom]
    | cons v vs =>
      rw [s16EncodeFrom]
      cases hc : s16Choose (v :: vs) with
      | none => simp
      | some k =>
        have h1 := s16Slots_pos k (s16Choose_some hc).1
        have h2 := ih ((v :: vs).drop (min (s16Slots k) (v :: vs).length)) (pos + min (s16Slots k) (v :: vs).length)
        simp only [List.length_cons, List.length_drop] at h2 ⊢
        omega

theorem length_s16Encode_le (vals : List Word) : (s16Encode vals).words.length ≤ vals.length :=
  length_s16EncodeFrom_le ..

/-! ### The decoder loop (R162) -/

/-- The Values that the `m` codewords from word `u` on spell, `sl i` being the slots of word `i`. -/
def spell (sl : Nat → List Word) (u m : Nat) : List Word := (List.range m).flatMap fun i => sl (u + i)

@[simp] theorem spell_zero (sl : Nat → List Word) (u : Nat) : spell sl u 0 = [] := rfl

theorem spell_succ (sl : Nat → List Word) (u m : Nat) : spell sl u (m + 1) = sl u ++ spell sl (u + 1) m := by
  simp only [spell, List.range_succ_eq_map, List.flatMap_cons, List.flatMap_map, Nat.add_zero]
  congr 2
  funext i
  rw [show u + (i + 1) = u + 1 + i by omega]

/-- What the decoder loop does: it needs the least number `m` of codewords that spell enough Values; if they all have
valid addresses it answers those Values and the word after them, and otherwise nothing (R162, R163, R166). -/
theorem s16DecodeFrom_spec (sl : Nat → List Word) (slots : Nat → Option (List Word)) (ok : Nat → Bool)
    (hs : ∀ i, slots i = if ok i then some (sl i) else none) (h1 : ∀ i, 1 ≤ (sl i).length)
    (fuel need u : Nat) (hf : need ≤ fuel) :
    ∃ m, need ≤ (spell sl u m).length ∧ (∀ m' < m, (spell sl u m').length < need) ∧
      ((∀ i < m, ok (u + i) = true) →
        s16DecodeFrom slots fuel need u = some ((spell sl u m).take need, u + m)) ∧
      ((∃ i < m, ok (u + i) = false) → s16DecodeFrom slots fuel need u = none) := by
  induction fuel generalizing need u with
  | zero =>
    obtain rfl : need = 0 := by omega
    exact ⟨0, by simp, by simp, by simp [s16DecodeFrom], by simp⟩
  | succ fuel ih =>
    cases need with
    | zero => exact ⟨0, by simp, by simp, by simp [s16DecodeFrom], by simp⟩
    | succ need =>
      have hlen := h1 u
      obtain ⟨m, hm1, hm2, hm3, hm4⟩ := ih (need + 1 - ((sl u).take (need + 1)).length) (u + 1)
        (by rw [List.length_take]; omega)
      refine ⟨m + 1, ?_, ?_, ?_, ?_⟩
      · rw [spell_succ, List.length_append]
        rw [List.length_take] at hm1
        omega
      · intro m' hm'
        cases m' with
        | zero => simp
        | succ m' =>
          have := hm2 m' (by omega)
          rw [spell_succ, List.length_append]
          rw [List.length_take] at this
          omega
      · intro hok
        rw [s16DecodeFrom, hs u, if_pos (by simpa using hok 0 (by omega))]
        simp only
        rw [hm3 fun i hi => by
          have := hok (i + 1) (by omega)
          rwa [show u + (i + 1) = u + 1 + i by omega] at this]
        simp only [Option.map_some, Option.some.injEq, Prod.mk.injEq]
        refine ⟨?_, by omega⟩
        rw [spell_succ, List.take_append, List.length_take]
        by_cases h : (sl u).length ≤ need + 1
        · rw [Nat.min_eq_right h]
        · rw [show need + 1 - min (need + 1) (sl u).length = 0 by omega,
            show need + 1 - (sl u).length = 0 by omega]
      · rintro ⟨i, hi, hok⟩
        rw [s16DecodeFrom, hs u]
        split
        · next h =>
          split at h
          · cases h
          · rfl
        · next a h =>
          split at h
          · next hu =>
            cases h
            cases i with
            | zero => rw [Nat.add_zero, hu] at hok; cases hok
            | succ i =>
              simp only [hm4 ⟨i, by omega, by rwa [show u + 1 + i = u + (i + 1) by omega]⟩, Option.map_none]
          · cases h

/-- The decoder produces exactly as many Values as were asked for (R163). -/
theorem length_s16DecodeFrom {slots : Nat → Option (List Word)} {fuel need u : Nat} {r : List Word × Nat}
    (h : s16DecodeFrom slots fuel need u = some r) : r.1.length = need := by
  induction fuel generalizing need u r with
  | zero =>
    cases need with
    | zero => rw [s16DecodeFrom] at h; cases h; rfl
    | succ need => rw [s16DecodeFrom] at h; cases h
  | succ fuel ih =>
    cases need with
    | zero => rw [s16DecodeFrom] at h; cases h; rfl
    | succ need =>
      rw [s16DecodeFrom] at h
      cases hs : slots u with
      | none => rw [hs] at h; cases h
      | some sl =>
        rw [hs] at h
        simp only [Option.map_eq_some_iff] at h
        obtain ⟨q, hq, rfl⟩ := h
        have := ih hq
        simp only [List.length_append, List.length_take] at this ⊢
        omega

theorem length_s16Decode {slots : Nat → Option (List Word)} {cnt : Nat} {r : List Word × Nat}
    (h : s16Decode slots cnt = some r) : r.1.length = cnt := length_s16DecodeFrom h

end Sys2Proof.Machine
end

