-- ==== Sys2Proof/Laws/Encoding.lean ====
section
/-! SUPPORT. The sixteen codewords as one family: their format, their well-formedness, their word. -/

namespace Sys2Proof

open Machine

/-- A field of a word is the bits that `extractLsb'` cuts out (00_scope.md R13). -/
theorem toNat_extractLsb' (w : Word) (a n : Nat) : (w.extractLsb' a n).toNat = w.toNat / 2 ^ a % 2 ^ n := by
  simp [BitVec.extractLsb'_toNat, Nat.shiftRight_eq_div_pow]

theorem field_eq_extract (w : Word) (hi lo : Nat) : field w hi lo = (w.extractLsb' lo (hi - lo + 1)).toNat := by
  rw [toNat_extractLsb']; rfl

theorem toNat_eq_zero_iff {n : Nat} (x : BitVec n) : x.toNat = 0 ↔ x = 0 :=
  ⟨fun h => BitVec.eq_of_toNat_eq (by simpa using h), by rintro rfl; simp⟩

/-- The command decoder in terms of fields (30_encoding.md R81 to R84). -/
theorem decodeCmd_eq (c : Word) : decodeCmd c =
    if field c 31 10 ≠ 0 then .error .cmdReserved
    else if field c 3 0 = 1 then
      (if field c 9 4 ≤ 32 then .ok (.pack (BitVec.ofNat 6 (field c 9 4))) else .error .cmdBits)
    else if field c 3 0 = 2 then
      (if field c 9 4 ≤ 32 then .ok (.unpack (BitVec.ofNat 6 (field c 9 4))) else .error .cmdBits)
    else if field c 3 0 = 3 then (if field c 9 4 = 0 then .ok .s16enc else .error .cmdBitsNotZero)
    else if field c 3 0 = 4 then (if field c 9 4 = 0 then .ok .s16dec else .error .cmdBitsNotZero)
    else if field c 3 0 = 5 then (if field c 9 4 = 0 then .ok .pfdenc else .error .cmdBitsNotZero)
    else if field c 3 0 = 6 then (if field c 9 4 = 0 then .ok .pfddec else .error .cmdBitsNotZero)
    else .error .cmdOp := by
  simp only [decodeCmd, field_eq_extract, ne_eq, toNat_eq_zero_iff]
  simp only [BitVec.ofNat_toNat, BitVec.setWidth_eq]
  split
  · rfl
  · split <;> simp_all

theorem lt_sixteen_cases {k : Nat} (hk : k < 16) :
    k = 0 ∨ k = 1 ∨ k = 2 ∨ k = 3 ∨ k = 4 ∨ k = 5 ∨ k = 6 ∨ k = 7 ∨ k = 8 ∨ k = 9 ∨ k = 10 ∨ k = 11 ∨ k = 12 ∨
      k = 13 ∨ k = 14 ∨ k = 15 := by omega

theorem formatOf_s16Instr (k : Nat) (slots : List Word) : formatOf (s16Instr k slots) = .s16w := by
  unfold s16Instr; split <;> rfl

theorem wellFormed_s16Instr {k : Nat} (hk : k < 16) (slots : List Word) :
    wellFormed (s16Instr k slots) = slotsFit k slots := by
  rcases lt_sixteen_cases hk with h | h | h | h | h | h | h | h | h | h | h | h | h | h | h | h <;> subst h <;> rfl

theorem encode_s16Instr {k : Nat} (hk : k < 16) (slots : List Word) :
    encode (s16Instr k slots) = s16Format k slots := by
  rcases lt_sixteen_cases hk with h | h | h | h | h | h | h | h | h | h | h | h | h | h | h | h <;> subst h <;> rfl

/-- A codeword reads back as the layout and the slots it was formatted from (30_encoding.md R85). -/
theorem decodeS16w_s16Format {k : Nat} (hk : k < 16) {slots : List Word} (h : slotsFit k slots = true) :
    decodeS16w (s16Format k slots) = s16Instr k slots := by
  obtain ⟨h1, h2⟩ := (slotsFit_iff ..).1 h
  rw [decodeS16w, s16Sel_s16Format hk h2, s16Split_s16Format hk h2 h1.le, h1, Nat.sub_self, List.replicate_zero,
    List.append_nil]

theorem fit_splitSlots (w : Word) {ws : List Nat} (h : ∀ x ∈ ws, x ≤ 32) (top : Nat) : Fit ws (splitSlots w top ws) := by
  induction ws generalizing top with
  | nil => simp [splitSlots]
  | cons x ws ih =>
    rw [splitSlots, fit_cons, toNat_and_mask _ (h x List.mem_cons_self)]
    exact ⟨Nat.mod_lt _ (Nat.two_pow_pos _), ih (fun y hy => h y (List.mem_cons_of_mem _ hy)) _⟩

theorem s16Layout_width_le : ∀ k < 16, ∀ x ∈ s16Layout k, x ≤ 32 := by decide

/-- What a codeword spells fits its layout: every word is a well-formed codeword (30_encoding.md R89). -/
theorem slotsFit_s16Split (w : Word) : slotsFit (s16Sel w) (s16Split w) = true :=
  (slotsFit_iff ..).2 ⟨length_s16Split w, fit_splitSlots w (s16Layout_width_le _ (s16Sel_lt w)) _⟩

theorem placeSlots_splitSlots (w : Word) (ws : List Nat) {top : Nat} (hs : ws.sum = top) (ht : top ≤ 32) :
    placeSlots top ws (splitSlots w top ws) = w &&& mask top := by
  induction ws generalizing top with
  | nil =>
    rw [List.sum_nil] at hs
    subst hs
    simp [placeSlots, mask]
  | cons x ws ih =>
    rw [List.sum_cons] at hs
    rw [splitSlots, placeSlots, ih (by omega) (by omega)]
    refine BitVec.eq_of_getLsbD_eq fun i hi => ?_
    simp only [BitVec.getLsbD_or, BitVec.getLsbD_shiftLeft, BitVec.getLsbD_and, BitVec.getLsbD_ushiftRight,
      getLsbD_mask]
    by_cases h1 : i < top - x
    · simp [h1, show i < top by omega]
    · by_cases h2 : i < top
      · simp [h1, h2, hi, show top - x + (i - (top - x)) = i by omega, show i - (top - x) < 32 by omega,
          show i - (top - x) < x by omega]
      · simp [h1, h2, show ¬ i - (top - x) < x by omega]

/-- Every word is the codeword of its selector and its slots (30_encoding.md R85, R89). -/
theorem s16Format_s16Split (w : Word) : s16Format (s16Sel w) (s16Split w) = w := by
  rw [s16Format, s16Split, placeSlots_splitSlots w _ (top := s16Payload) (s16Layout_sum _ (s16Sel_lt w)) (by decide)]
  refine BitVec.eq_of_getLsbD_eq fun i hi => ?_
  rw [BitVec.getLsbD_or, BitVec.getLsbD_shiftLeft, BitVec.getLsbD_and, getLsbD_mask, BitVec.getLsbD_ofNat, s16Sel,
    BitVec.testBit_toNat, BitVec.getLsbD_extractLsb']
  by_cases h : i < 28
  · simp [h, hi, show i < s16Payload from h]
  · simp [h, hi, show ¬ i < s16Payload from h, show i - 28 < 4 by omega, show i - 28 < 32 by omega, show 28 + (i - 28) = i by omega]

end Sys2Proof
end

