-- ==== Sys2Proof/Laws/Memory.lean ====
section
/-! SUPPORT. The laws of memory: read after write, frame, the canonical form. -/

namespace Sys2Proof.Machine

namespace Memory

@[simp] theorem lookup_nil (a : Nat) : Memory.lookup [] a = none := rfl

theorem lookup_write (m : Memory) (a b : Nat) (v : Word) :
    Memory.lookup (Memory.write m a v) b = if b = a then some v else Memory.lookup m b := by
  induction m with
  | nil => simp [Memory.write, Memory.lookup]
  | cons c m ih =>
    obtain ⟨c, x⟩ := c
    simp only [Memory.write]
    split
    · simp [Memory.lookup]
    · split
      · subst_vars; by_cases hb : b = c <;> simp [Memory.lookup, hb]
      · by_cases hb : b = c
        · have hca : c ≠ a := fun h => by omega
          simp [Memory.lookup, hb, hca]
        · simp [Memory.lookup, hb, ih]

/-- Reading a range that was just written, and reading outside it. -/
theorem lookup_writeList (ws : List Word) (m : Memory) (base a : Nat) :
    Memory.lookup (Memory.writeList m base ws) a =
      if base ≤ a ∧ a < base + ws.length then ws[a - base]? else Memory.lookup m a := by
  induction ws generalizing m base with
  | nil => simp [Memory.writeList]
  | cons w ws ih =>
    rw [Memory.writeList, ih, lookup_write]
    by_cases h1 : a = base
    · subst h1; simp
    · by_cases h2 : base < a ∧ a < base + (ws.length + 1)
      · have h3 : a - base = (a - (base + 1)) + 1 := by omega
        rw [if_pos (by omega), if_pos (by simp; omega), h3, List.getElem?_cons_succ]
      · rw [if_neg (by omega), if_neg h1, if_neg (by simp; omega)]

/-! ### The canonical form -/

@[simp] theorem wf_nil : Memory.wf [] = true := rfl

theorem wf_cons (a : Nat) (v : Word) (m : Memory) :
    Memory.wf ((a, v) :: m) = true ↔ (∀ c ∈ m, a < c.1) ∧ Memory.wf m = true := by
  simp [Memory.wf]

/-- The addresses listed after a write: those listed before, and the one written. -/
theorem mem_write {m : Memory} {a : Nat} {v : Word} {c : Nat × Word} (h : c ∈ Memory.write m a v) :
    c = (a, v) ∨ c ∈ m := by
  induction m with
  | nil => simpa [Memory.write] using h
  | cons d m ih =>
    obtain ⟨b, x⟩ := d
    simp only [Memory.write] at h
    split at h
    · simpa using h
    · split at h
      · rcases List.mem_cons.1 h with h | h
        · exact .inl h
        · exact .inr (List.mem_cons_of_mem _ h)
      · rcases List.mem_cons.1 h with h | h
        · exact .inr (h ▸ List.mem_cons_self)
        · exact (ih h).imp id (List.mem_cons_of_mem _)

/-- A write keeps the canonical form. -/
theorem wf_write {m : Memory} (a : Nat) (v : Word) (h : Memory.wf m = true) :
    Memory.wf (Memory.write m a v) = true := by
  induction m with
  | nil => simp [Memory.write, Memory.wf]
  | cons d m ih =>
    obtain ⟨b, x⟩ := d
    obtain ⟨hb, hm⟩ := (wf_cons ..).1 h
    simp only [Memory.write]
    split
    · next hab =>
      refine (wf_cons ..).2 ⟨fun c hc => ?_, h⟩
      rcases List.mem_cons.1 hc with rfl | hc
      · exact hab
      · exact hab.trans (hb c hc)
    · split
      · next hab => exact (wf_cons ..).2 ⟨hab ▸ hb, hm⟩
      · refine (wf_cons ..).2 ⟨fun c hc => ?_, ih hm⟩
        rcases mem_write hc with rfl | hc
        · show b < a; omega
        · exact hb c hc

/-- Writing a range keeps the canonical form. -/
theorem wf_writeList (ws : List Word) {m : Memory} (base : Nat) (h : Memory.wf m = true) :
    Memory.wf (Memory.writeList m base ws) = true := by
  induction ws generalizing m base with
  | nil => exact h
  | cons w ws ih => exact ih (base + 1) (wf_write base w h)

/-- The addresses listed after writing a range: those listed before, and those of the range. -/
theorem mem_writeList {ws : List Word} {m : Memory} {base : Nat} {c : Nat × Word}
    (h : c ∈ Memory.writeList m base ws) : (base ≤ c.1 ∧ c.1 < base + ws.length) ∨ c ∈ m := by
  induction ws generalizing m base with
  | nil => exact .inr h
  | cons w ws ih =>
    rcases ih h with ⟨h1, h2⟩ | h
    · left; simp only [List.length_cons]; omega
    · rcases mem_write h with rfl | h
      · left; simp
      · exact .inr h

theorem lookup_eq_none {m : Memory} {a : Nat} (h : ∀ c ∈ m, a < c.1) : Memory.lookup m a = none := by
  induction m with
  | nil => rfl
  | cons d m ih =>
    have hd := h d List.mem_cons_self
    rw [Memory.lookup, if_neg (by omega)]
    exact ih fun c hc => h c (List.mem_cons_of_mem _ hc)

/-- Equal memories are equal data: two memories in canonical form that list the same words are the same list. -/
theorem ext_of_wf {m n : Memory} (hm : Memory.wf m = true) (hn : Memory.wf n = true)
    (h : ∀ a, Memory.lookup m a = Memory.lookup n a) : m = n := by
  induction m generalizing n with
  | nil =>
    cases n with
    | nil => rfl
    | cons d n => have := h d.1; simp [Memory.lookup] at this
  | cons c m ih =>
    obtain ⟨a, v⟩ := c
    obtain ⟨ha, hm'⟩ := (wf_cons ..).1 hm
    cases n with
    | nil => have := h a; simp [Memory.lookup] at this
    | cons d n =>
      obtain ⟨b, w⟩ := d
      obtain ⟨hb, hn'⟩ := (wf_cons ..).1 hn
      have hab : a = b := by
        rcases Nat.lt_trichotomy a b with hlt | heq | hgt
        · have h1 := h a
          rw [Memory.lookup, if_pos rfl, Memory.lookup, if_neg (by omega),
            lookup_eq_none fun c hc => hlt.trans (hb c hc)] at h1
          cases h1
        · exact heq
        · have h1 := h b
          rw [Memory.lookup, if_neg (by omega), Memory.lookup, if_pos rfl,
            lookup_eq_none fun c hc => hgt.trans (ha c hc)] at h1
          cases h1
      subst hab
      have hv := h a
      simp only [Memory.lookup, if_true, Option.some.injEq] at hv
      subst hv
      congr 1
      refine ih hm' hn' fun x => ?_
      have hx := h x
      by_cases hxa : x = a
      · subst hxa; rw [lookup_eq_none ha, lookup_eq_none hb]
      · simpa [Memory.lookup, hxa] using hx

end Memory

/-! ### Words of the state's memory -/

/-- A word of memory after a range was written: the words of the range inside it, the old ones outside. -/
theorem getD_lookup_writeList (m : Memory) (ws : List Word) (base a : Nat) (d : Word) :
    ((Memory.writeList m base ws).lookup a).getD d =
      if base ≤ a ∧ a < base + ws.length then ws.getD (a - base) 0 else (m.lookup a).getD d := by
  rw [Memory.lookup_writeList]
  split
  · next h => simp [List.getD, List.getElem?_eq_getElem (show a - base < ws.length by omega)]
  · rfl

end Sys2Proof.Machine
end

