-- ==== Sys2Proof/Laws/State.lean ====
section
/-! SUPPORT. One lemma per field per update of the state. -/

namespace Sys2Proof.Machine

/-! ### Ending an operation -/

@[simp] theorem State.complete_mem (s : State) (res : Nat) : (s.complete res).mem = s.mem := rfl
@[simp] theorem State.complete_memWords (s : State) (res : Nat) : (s.complete res).memWords = s.memWords := rfl
@[simp] theorem State.complete_cmd (s : State) (res : Nat) : (s.complete res).cmd = s.cmd := rfl
@[simp] theorem State.complete_src (s : State) (res : Nat) : (s.complete res).src = s.src := rfl
@[simp] theorem State.complete_dst (s : State) (res : Nat) : (s.complete res).dst = s.dst := rfl
@[simp] theorem State.complete_count (s : State) (res : Nat) : (s.complete res).count = s.count := rfl
@[simp] theorem State.complete_status (s : State) (res : Nat) : (s.complete res).status = statusComplete s.status := rfl
@[simp] theorem State.complete_result (s : State) (res : Nat) : (s.complete res).result = BitVec.ofNat 32 res := rfl
@[simp] theorem State.complete_pending (s : State) (res : Nat) : (s.complete res).pending = s.pending := rfl
@[simp] theorem State.complete_reply (s : State) (res : Nat) : (s.complete res).reply = s.reply := rfl
@[simp] theorem State.complete_draws (s : State) (res : Nat) : (s.complete res).draws = s.draws := rfl
@[simp] theorem State.complete_epoch (s : State) (res : Nat) : (s.complete res).epoch = s.epoch := rfl

@[simp] theorem State.raise_mem (s : State) (e : OpError) (res : Nat) : (s.raise e res).mem = s.mem := rfl
@[simp] theorem State.raise_memWords (s : State) (e : OpError) (res : Nat) : (s.raise e res).memWords = s.memWords := rfl
@[simp] theorem State.raise_cmd (s : State) (e : OpError) (res : Nat) : (s.raise e res).cmd = s.cmd := rfl
@[simp] theorem State.raise_src (s : State) (e : OpError) (res : Nat) : (s.raise e res).src = s.src := rfl
@[simp] theorem State.raise_dst (s : State) (e : OpError) (res : Nat) : (s.raise e res).dst = s.dst := rfl
@[simp] theorem State.raise_count (s : State) (e : OpError) (res : Nat) : (s.raise e res).count = s.count := rfl
@[simp] theorem State.raise_status (s : State) (e : OpError) (res : Nat) : (s.raise e res).status = statusRaise e := rfl
@[simp] theorem State.raise_result (s : State) (e : OpError) (res : Nat) : (s.raise e res).result = BitVec.ofNat 32 res := rfl
@[simp] theorem State.raise_pending (s : State) (e : OpError) (res : Nat) : (s.raise e res).pending = s.pending := rfl
@[simp] theorem State.raise_reply (s : State) (e : OpError) (res : Nat) : (s.raise e res).reply = s.reply := rfl
@[simp] theorem State.raise_draws (s : State) (e : OpError) (res : Nat) : (s.raise e res).draws = s.draws := rfl
@[simp] theorem State.raise_epoch (s : State) (e : OpError) (res : Nat) : (s.raise e res).epoch = s.epoch := rfl

/-! ### Writing the output -/

@[simp] theorem State.writeOut_mem (s : State) (ws : List Word) : (s.writeOut ws).mem = s.mem.writeList s.dst.toNat ws := rfl
@[simp] theorem State.writeOut_memWords (s : State) (ws : List Word) : (s.writeOut ws).memWords = s.memWords := rfl
@[simp] theorem State.writeOut_cmd (s : State) (ws : List Word) : (s.writeOut ws).cmd = s.cmd := rfl
@[simp] theorem State.writeOut_src (s : State) (ws : List Word) : (s.writeOut ws).src = s.src := rfl
@[simp] theorem State.writeOut_dst (s : State) (ws : List Word) : (s.writeOut ws).dst = s.dst := rfl
@[simp] theorem State.writeOut_count (s : State) (ws : List Word) : (s.writeOut ws).count = s.count := rfl
@[simp] theorem State.writeOut_status (s : State) (ws : List Word) : (s.writeOut ws).status = s.status := rfl
@[simp] theorem State.writeOut_result (s : State) (ws : List Word) : (s.writeOut ws).result = s.result := rfl
@[simp] theorem State.writeOut_pending (s : State) (ws : List Word) : (s.writeOut ws).pending = s.pending := rfl
@[simp] theorem State.writeOut_reply (s : State) (ws : List Word) : (s.writeOut ws).reply = s.reply := rfl
@[simp] theorem State.writeOut_draws (s : State) (ws : List Word) : (s.writeOut ws).draws = s.draws := rfl
@[simp] theorem State.writeOut_epoch (s : State) (ws : List Word) : (s.writeOut ws).epoch = s.epoch := rfl

@[simp] theorem State.writeOutReserved_mem (s : State) (ws : List Word) (lo : Nat) : (s.writeOutReserved ws lo).mem = s.mem.writeList s.dst.toNat (ws ++ s.slack ws.length lo) := rfl
@[simp] theorem State.writeOutReserved_memWords (s : State) (ws : List Word) (lo : Nat) : (s.writeOutReserved ws lo).memWords = s.memWords := rfl
@[simp] theorem State.writeOutReserved_cmd (s : State) (ws : List Word) (lo : Nat) : (s.writeOutReserved ws lo).cmd = s.cmd := rfl
@[simp] theorem State.writeOutReserved_src (s : State) (ws : List Word) (lo : Nat) : (s.writeOutReserved ws lo).src = s.src := rfl
@[simp] theorem State.writeOutReserved_dst (s : State) (ws : List Word) (lo : Nat) : (s.writeOutReserved ws lo).dst = s.dst := rfl
@[simp] theorem State.writeOutReserved_count (s : State) (ws : List Word) (lo : Nat) : (s.writeOutReserved ws lo).count = s.count := rfl
@[simp] theorem State.writeOutReserved_status (s : State) (ws : List Word) (lo : Nat) : (s.writeOutReserved ws lo).status = s.status := rfl
@[simp] theorem State.writeOutReserved_result (s : State) (ws : List Word) (lo : Nat) : (s.writeOutReserved ws lo).result = s.result := rfl
@[simp] theorem State.writeOutReserved_pending (s : State) (ws : List Word) (lo : Nat) : (s.writeOutReserved ws lo).pending = s.pending := rfl
@[simp] theorem State.writeOutReserved_reply (s : State) (ws : List Word) (lo : Nat) : (s.writeOutReserved ws lo).reply = s.reply := rfl
@[simp] theorem State.writeOutReserved_draws (s : State) (ws : List Word) (lo : Nat) : (s.writeOutReserved ws lo).draws = s.draws + 1 := rfl
@[simp] theorem State.writeOutReserved_epoch (s : State) (ws : List Word) (lo : Nat) : (s.writeOutReserved ws lo).epoch = s.epoch := rfl

/-! ### The reset event -/

@[simp] theorem State.resetEvent_mem (s : State) : (s.resetEvent).mem = [] := rfl
@[simp] theorem State.resetEvent_memWords (s : State) : (s.resetEvent).memWords = s.memWords := rfl
@[simp] theorem State.resetEvent_cmd (s : State) : (s.resetEvent).cmd = 0 := rfl
@[simp] theorem State.resetEvent_src (s : State) : (s.resetEvent).src = 0 := rfl
@[simp] theorem State.resetEvent_dst (s : State) : (s.resetEvent).dst = 0 := rfl
@[simp] theorem State.resetEvent_count (s : State) : (s.resetEvent).count = 0 := rfl
@[simp] theorem State.resetEvent_status (s : State) : (s.resetEvent).status = 0 := rfl
@[simp] theorem State.resetEvent_result (s : State) : (s.resetEvent).result = 0 := rfl
@[simp] theorem State.resetEvent_pending (s : State) : (s.resetEvent).pending = s.pending := rfl
@[simp] theorem State.resetEvent_reply (s : State) : (s.resetEvent).reply = s.reply := rfl
@[simp] theorem State.resetEvent_draws (s : State) : (s.resetEvent).draws = s.draws + 1 := rfl
@[simp] theorem State.resetEvent_epoch (s : State) : (s.resetEvent).epoch = s.draws := rfl

/-! ### Giving the block a word -/

@[simp] theorem State.placeCommand_mem (s : State) (c : Word) : (s.placeCommand c).mem = s.mem := rfl
@[simp] theorem State.placeCommand_memWords (s : State) (c : Word) : (s.placeCommand c).memWords = s.memWords := rfl
@[simp] theorem State.placeCommand_cmd (s : State) (c : Word) : (s.placeCommand c).cmd = s.cmd := rfl
@[simp] theorem State.placeCommand_src (s : State) (c : Word) : (s.placeCommand c).src = s.src := rfl
@[simp] theorem State.placeCommand_dst (s : State) (c : Word) : (s.placeCommand c).dst = s.dst := rfl
@[simp] theorem State.placeCommand_count (s : State) (c : Word) : (s.placeCommand c).count = s.count := rfl
@[simp] theorem State.placeCommand_status (s : State) (c : Word) : (s.placeCommand c).status = s.status := rfl
@[simp] theorem State.placeCommand_result (s : State) (c : Word) : (s.placeCommand c).result = s.result := rfl
@[simp] theorem State.placeCommand_pending (s : State) (c : Word) : (s.placeCommand c).pending = .regWrite 0 c :: s.pending := rfl
@[simp] theorem State.placeCommand_reply (s : State) (c : Word) : (s.placeCommand c).reply = s.reply := rfl
@[simp] theorem State.placeCommand_draws (s : State) (c : Word) : (s.placeCommand c).draws = s.draws := rfl
@[simp] theorem State.placeCommand_epoch (s : State) (c : Word) : (s.placeCommand c).epoch = s.epoch := rfl

@[simp] theorem State.placeCodeword_mem (s : State) (w : Word) : (s.placeCodeword w).mem = s.mem.write s.src.toNat w := rfl
@[simp] theorem State.placeCodeword_memWords (s : State) (w : Word) : (s.placeCodeword w).memWords = s.memWords := rfl
@[simp] theorem State.placeCodeword_cmd (s : State) (w : Word) : (s.placeCodeword w).cmd = s.cmd := rfl
@[simp] theorem State.placeCodeword_src (s : State) (w : Word) : (s.placeCodeword w).src = s.src := rfl
@[simp] theorem State.placeCodeword_dst (s : State) (w : Word) : (s.placeCodeword w).dst = s.src + 1 := rfl
@[simp] theorem State.placeCodeword_count (s : State) (w : Word) : (s.placeCodeword w).count = BitVec.ofNat 32 (s16Slots (s16Sel w)) := rfl
@[simp] theorem State.placeCodeword_status (s : State) (w : Word) : (s.placeCodeword w).status = s.status := rfl
@[simp] theorem State.placeCodeword_result (s : State) (w : Word) : (s.placeCodeword w).result = s.result := rfl
@[simp] theorem State.placeCodeword_pending (s : State) (w : Word) : (s.placeCodeword w).pending = .regWrite 0 (encode .s16dec) :: s.pending := rfl
@[simp] theorem State.placeCodeword_reply (s : State) (w : Word) : (s.placeCodeword w).reply = s.reply := rfl
@[simp] theorem State.placeCodeword_draws (s : State) (w : Word) : (s.placeCodeword w).draws = s.draws := rfl
@[simp] theorem State.placeCodeword_epoch (s : State) (w : Word) : (s.placeCodeword w).epoch = s.epoch := rfl

/-! ### `STATUS` -/

@[simp] theorem statusErr_statusOf (b : Bool) (e : BitVec 4) : statusErr (statusOf b e) = e := by
  revert b e; decide

@[simp] theorem statusSerr_statusOf (b : Bool) (e : BitVec 4) : statusSerr (statusOf b e) = b := by
  revert b e; decide

@[simp] theorem statusErr_complete (w : Word) : statusErr (statusComplete w) = 0 := by simp [statusComplete]

@[simp] theorem statusSerr_complete (w : Word) : statusSerr (statusComplete w) = statusSerr w := by
  simp [statusComplete]

@[simp] theorem statusErr_raise (e : OpError) : statusErr (statusRaise e) = e.code := by simp [statusRaise]

@[simp] theorem statusSerr_raise (e : OpError) : statusSerr (statusRaise e) = true := by simp [statusRaise]

@[simp] theorem State.err_complete (s : State) (res : Nat) : (s.complete res).err = 0 := by simp [State.err]

@[simp] theorem State.serr_complete (s : State) (res : Nat) : (s.complete res).serr = s.serr := by simp [State.serr]

@[simp] theorem State.err_raise (s : State) (e : OpError) (res : Nat) : (s.raise e res).err = e.code := by
  simp [State.err]

@[simp] theorem State.serr_raise (s : State) (e : OpError) (res : Nat) : (s.raise e res).serr = true := by
  simp [State.serr]

@[simp] theorem State.err_writeOut (s : State) (ws : List Word) : (s.writeOut ws).err = s.err := rfl

@[simp] theorem State.serr_writeOut (s : State) (ws : List Word) : (s.writeOut ws).serr = s.serr := rfl

@[simp] theorem State.err_writeOutReserved (s : State) (ws : List Word) (lo : Nat) :
    (s.writeOutReserved ws lo).err = s.err := rfl

@[simp] theorem State.serr_writeOutReserved (s : State) (ws : List Word) (lo : Nat) :
    (s.writeOutReserved ws lo).serr = s.serr := rfl

/-- An error is not the code of "no error" (60_exceptions.md R241). -/
@[simp] theorem OpError.code_ne_zero (e : OpError) : e.code ≠ 0 := by cases e <;> decide

end Sys2Proof.Machine
end

