-- ==== Sys2Proof/Laws/Ops.lean ====
section
/-! SUPPORT. The shared operations: what each can do, said once. -/

namespace Sys2Proof.Machine

/-! ### The checks, in the words of 20_memory.md R59 and R60 -/

theorem rangeValid_iff (mw base len : Nat) : rangeValid mw base len = true ↔ ∀ j < len, base + j < mw := by
  simp only [rangeValid, Bool.or_eq_true, decide_eq_true_eq]
  constructor
  · rintro (h | h) j hj <;> omega
  · intro h
    rcases Nat.eq_zero_or_pos len with h0 | h0
    · exact .inl h0
    · exact .inr (by have := h (len - 1) (by omega); omega)

theorem rangesMeet_iff (a la b lb : Nat) : rangesMeet a la b lb = true ↔ Meet a la b lb := by
  simp only [rangesMeet, Meet, Bool.and_eq_true, decide_eq_true_eq]
  constructor
  · rintro ⟨⟨⟨h1, h2⟩, h3⟩, h4⟩
    rcases Nat.le_total a b with h | h
    · exact ⟨b - a, by omega, 0, h2, by omega⟩
    · exact ⟨0, h1, a - b, by omega, by omega⟩
  · rintro ⟨i, hi, j, hj, h⟩
    refine ⟨⟨⟨?_, ?_⟩, ?_⟩, ?_⟩ <;> omega

theorem outValid_iff (s : State) (lo : Nat) : s.outValid lo = true ↔ InMemory s s.dst.toNat lo := rangeValid_iff ..

theorem inValid_iff (s : State) (li : Nat) : s.inValid li = true ↔ InMemory s s.src.toNat li := rangeValid_iff ..

theorem overlaps_iff (s : State) (li lo : Nat) :
    s.overlaps li lo = true ↔ Meet s.src.toNat li s.dst.toNat lo := rangesMeet_iff ..

theorem outValid_eq_false_iff (s : State) (lo : Nat) : s.outValid lo = false ↔ ¬ InMemory s s.dst.toNat lo := by
  rw [← outValid_iff, Bool.not_eq_true]

theorem inValid_eq_false_iff (s : State) (li : Nat) : s.inValid li = false ↔ ¬ InMemory s s.src.toNat li := by
  rw [← inValid_iff, Bool.not_eq_true]

theorem overlaps_eq_false_iff (s : State) (li lo : Nat) :
    s.overlaps li lo = false ↔ ¬ Meet s.src.toNat li s.dst.toNat lo := by
  rw [← overlaps_iff, Bool.not_eq_true]

/-- The three ways a checked operation ends (60_exceptions.md R243). -/
theorem checked_cases (s : State) (li lo : Nat) (done : State) :
    ((s.outValid lo = false ∨ s.inValid li = false) ∧ s.checked li lo done = s.raise .bounds 0) ∨
    (s.outValid lo = true ∧ s.inValid li = true ∧ s.overlaps li lo = true ∧
      s.checked li lo done = s.raise .overlap 0) ∨
    (s.outValid lo = true ∧ s.inValid li = true ∧ s.overlaps li lo = false ∧ s.checked li lo done = done) := by
  unfold State.checked
  cases s.outValid lo <;> cases s.inValid li <;> cases s.overlaps li lo <;> simp

/-! ### Memory words after an update -/

@[simp] theorem memWord_complete (s : State) (res a : Nat) : (s.complete res).memWord a = s.memWord a := rfl

@[simp] theorem memWord_raise (s : State) (e : OpError) (res a : Nat) : (s.raise e res).memWord a = s.memWord a := rfl

theorem memWord_writeOut (s : State) (ws : List Word) (a : Nat) :
    (s.writeOut ws).memWord a =
      if s.dst.toNat ≤ a ∧ a < s.dst.toNat + ws.length then ws.getD (a - s.dst.toNat) 0 else s.memWord a :=
  getD_lookup_writeList ..

theorem memWord_writeOutReserved (s : State) (ws : List Word) (lo a : Nat) :
    (s.writeOutReserved ws lo).memWord a = (s.writeOut (ws ++ s.slack ws.length lo)).memWord a := rfl

@[simp] theorem length_slack (s : State) (used lo : Nat) : (s.slack used lo).length = lo - used := by
  simp [State.slack]

@[simp] theorem length_input (s : State) (n : Nat) : (s.input n).length = n := by simp [State.input]

theorem getElem_input (s : State) (n i : Nat) (h : i < (s.input n).length) :
    (s.input n)[i] = s.memWord (s.src.toNat + i) := by simp [State.input]

/-- What was written stands at `DST`. -/
theorem holds_writeOut (s : State) (ws : List Word) : Holds (s.writeOut ws) s.dst.toNat ws := by
  intro j h
  rw [memWord_writeOut, if_pos (by omega)]
  simp [List.getD, List.getElem?_eq_getElem h]

/-- Nothing outside what was written has changed. -/
theorem sameOutside_writeOut (s : State) (ws : List Word) : SameOutside s (s.writeOut ws) s.dst.toNat ws.length := by
  intro a h
  rw [memWord_writeOut, if_neg (by omega)]

theorem holds_append_left {t : State} {base : Nat} {ws vs : List Word} (h : Holds t base (ws ++ vs)) :
    Holds t base ws := by
  intro j hj
  rw [h j (by simp; omega), List.getElem_append_left hj]

/-- The produced words stand at `DST`; the rest of the reserved range is not said. -/
theorem holds_writeOutReserved (s : State) (ws : List Word) (lo : Nat) :
    Holds (s.writeOutReserved ws lo) s.dst.toNat ws :=
  holds_append_left (holds_writeOut s (ws ++ s.slack ws.length lo))

/-- Nothing outside the reserved range has changed. -/
theorem sameOutside_writeOutReserved (s : State) (ws : List Word) (lo : Nat) (h : ws.length ≤ lo) :
    SameOutside s (s.writeOutReserved ws lo) s.dst.toNat lo := by
  intro a ha
  rw [memWord_writeOutReserved, memWord_writeOut, if_neg (by simp; omega)]

/-! ### Reading the input -/

theorem readIn_of_lt {s : State} {i : Nat} (h : s.src.toNat + i < s.memWords) :
    s.readIn i = some (s.memWord (s.src.toNat + i)) := by simp [State.readIn, State.valid, h]

theorem readIn_of_ge {s : State} {i : Nat} (h : s.memWords ≤ s.src.toNat + i) : s.readIn i = none := by
  simp [State.readIn, State.valid, h]

/-! ### The end of an operation -/

@[simp] theorem statusClean_complete (s : State) (res : Nat) : StatusClean (s.complete res) := by
  simp only [StatusClean, State.complete_status, statusComplete]
  cases statusSerr s.status <;> decide

@[simp] theorem statusClean_raise (s : State) (e : OpError) (res : Nat) : StatusClean (s.raise e res) := by
  simp only [StatusClean, State.raise_status, statusRaise]
  cases e <;> decide

theorem completed_complete (s : State) (res : Nat) : Completed s (s.complete res) res :=
  ⟨by simp, by simp, by simp, rfl, rfl, rfl, rfl, rfl, rfl, rfl, rfl, rfl⟩

theorem completed_writeOut (s : State) (ws : List Word) (res : Nat) :
    Completed s ((s.writeOut ws).complete res) res :=
  ⟨by simp, by simp, by simp, rfl, rfl, rfl, rfl, rfl, rfl, rfl, rfl, rfl⟩

theorem completed_writeOutReserved (s : State) (ws : List Word) (lo res : Nat) :
    Completed s ((s.writeOutReserved ws lo).complete res) res :=
  ⟨by simp, by simp, by simp, rfl, rfl, rfl, rfl, rfl, rfl, rfl, rfl, rfl⟩

theorem raised_raise (s : State) (e : OpError) (res : Nat) : Raised s (s.raise e res) e res :=
  ⟨by simp, by simp, by simp, rfl, rfl, rfl, rfl, rfl, rfl, rfl, rfl, rfl⟩

theorem raised_writeOutReserved (s : State) (ws : List Word) (lo : Nat) (e : OpError) (res : Nat) :
    Raised s ((s.writeOutReserved ws lo).raise e res) e res :=
  ⟨by simp, by simp, by simp, rfl, rfl, rfl, rfl, rfl, rfl, rfl, rfl, rfl⟩

end Sys2Proof.Machine
end

