-- ==== Sys2Proof/Laws/PForDelta.lean ====
section
/-! SUPPORT. The PForDelta codec: what a scan finds, the encoder's choice, the lengths, the chain walk. -/

namespace Sys2Proof.Machine

/-! ### Lists -/

theorem getD_set (l : List Word) (i j : Nat) (x : Word) :
    (l.set i x).getD j 0 = if j = i ∧ i < l.length then x else l.getD j 0 := by
  simp only [List.getD, List.getElem?_set]
  by_cases h : i = j
  · subst h
    by_cases hl : i < l.length <;> simp [hl]
  · simp [h, Ne.symm h]

@[simp] theorem length_setPrev (work : List Word) (prev : Option Nat) (x : Nat → Nat) :
    (setPrev work prev x).length = work.length := by
  cases prev <;> simp [setPrev]

/-! ### The scan (42_pfordelta.md R194 to R199) -/

/-- What a scan at width `b` of the Values `blk` has found after the positions below `i`. -/
structure ScanInv (b : Nat) (blk : List Word) (i : Nat) (st : ScanState) : Prop where
  length_work : st.work.length = block
  exc_eq : st.exc = st.pos.map fun p => blk.getD p 0
  rising : st.pos.Pairwise (· < ·)
  below : ∀ p ∈ st.pos, p < i
  prev_eq : st.prev = st.pos.getLast?
  /-- Exactly the positions of R194 are exceptions. -/
  mem_iff : ∀ j < i, (j ∈ st.pos ↔
    2 ^ b ≤ (blk.getD j 0).toNat ∨ ∃ p ∈ st.pos, p + 2 ^ b = j ∧ ∀ q ∈ st.pos, q < j → q ≤ p)
  /-- A position that is no exception stores its Value. -/
  plain : ∀ j < i, j ∉ st.pos → st.work.getD j 0 = blk.getD j 0
  /-- An exception before the last stores the hop to the next, at most `2^b` further on. -/
  hop : ∀ n (h : n + 1 < st.pos.length), st.pos[n + 1] ≤ st.pos[n] + 2 ^ b ∧
    st.work.getD st.pos[n] 0 = BitVec.ofNat 32 (st.pos[n + 1] - 1 - st.pos[n])
  /-- The scan is not further than `2^b` past the last exception. -/
  near : ∀ p, st.prev = some p → i ≤ p + 2 ^ b

theorem scanInv_start (b : Nat) (blk : List Word) : ScanInv b blk 0 ⟨List.replicate block 0, [], [], none⟩ where
  length_work := by simp
  exc_eq := rfl
  rising := .nil
  below := by simp
  prev_eq := rfl
  mem_iff := by simp
  plain := by simp
  hop := by intro n h; simp at h
  near := by simp

theorem mem_of_prev {b i : Nat} {blk : List Word} {st : ScanState} (h : ScanInv b blk i st) {p : Nat}
    (hp : st.prev = some p) : p ∈ st.pos := by
  rw [h.prev_eq] at hp
  exact List.mem_of_getLast? hp

theorem le_prev {b i : Nat} {blk : List Word} {st : ScanState} (h : ScanInv b blk i st) {p q : Nat}
    (hp : st.prev = some p) (hq : q ∈ st.pos) : q ≤ p := by
  rw [h.prev_eq, List.getLast?_eq_some_iff] at hp
  obtain ⟨ys, hys⟩ := hp
  have hr := h.rising
  rw [hys] at hr hq
  rcases List.mem_append.1 hq with hq | hq
  · exact le_of_lt ((List.pairwise_append.1 hr).2.2 q hq p (by simp))
  · simp at hq; omega

theorem gapReached_iff {b i : Nat} {prev : Option Nat} :
    gapReached b i prev = true ↔ ∃ p, prev = some p ∧ i - p = 2 ^ b := by
  cases prev <;> simp [gapReached]

theorem isException_iff {b i : Nat} {v : Word} {prev : Option Nat} :
    isException b i v prev = true ↔ 2 ^ b ≤ v.toNat ∨ ∃ p, prev = some p ∧ i - p = 2 ^ b := by
  simp [isException, gapReached_iff]

/-- The exceptions of R194 among the positions up to `i`, in terms of the scan state before `i`. -/
theorem exception_here {b i : Nat} {blk : List Word} {st : ScanState} (h : ScanInv b blk i st) (l : List Nat)
    (hl : ∀ q, q < i → (q ∈ l ↔ q ∈ st.pos)) :
    (∃ p ∈ l, p + 2 ^ b = i ∧ ∀ q ∈ l, q < i → q ≤ p) ↔ ∃ p, st.prev = some p ∧ i - p = 2 ^ b := by
  have h2 := Nat.two_pow_pos b
  constructor
  · rintro ⟨p, hp, hpi, hmax⟩
    have hps : p ∈ st.pos := (hl p (by omega)).1 hp
    cases hprev : st.prev with
    | none =>
      rw [h.prev_eq, List.getLast?_eq_none_iff] at hprev
      rw [hprev] at hps
      cases hps
    | some q =>
      have hq := mem_of_prev h hprev
      have h3 := le_prev h hprev hps
      have h4 := hmax q ((hl q (h.below q hq)).2 hq) (h.below q hq)
      exact ⟨q, rfl, by omega⟩
  · rintro ⟨p, hp, hpi⟩
    have hps := mem_of_prev h hp
    refine ⟨p, (hl p (h.below p hps)).2 hps, by omega, fun q hq hqi => le_prev h hp ((hl q hqi).1 hq)⟩

theorem scanInv_step {b i : Nat} {blk : List Word} {st : ScanState} (h : ScanInv b blk i st) (hi : i < block) :
    ScanInv b blk (i + 1) (scanStep b i (blk.getD i 0) st) := by
  have h2 := Nat.two_pow_pos b
  unfold scanStep
  by_cases he : isException b i (blk.getD i 0) st.prev = true
  · rw [if_pos he]
    have hmem : ∀ q, q < i → (q ∈ st.pos ++ [i] ↔ q ∈ st.pos) := by
      intro q hq
      simp only [List.mem_append, List.mem_singleton]
      exact ⟨fun h => h.resolve_right (by omega), .inl⟩
    have hwork : ∀ j, some j ≠ st.prev →
        (setPrev st.work st.prev fun p => i - 1 - p).getD j 0 = st.work.getD j 0 := by
      intro j hj
      cases hprev : st.prev with
      | none => rfl
      | some p =>
        rw [setPrev, getD_set, if_neg]
        rintro ⟨rfl, -⟩
        exact hj hprev.symm
    constructor
    · simpa using h.length_work
    · simp [h.exc_eq]
    · refine List.pairwise_append.2 ⟨h.rising, by simp, fun p hp q hq => ?_⟩
      rw [List.mem_singleton.1 hq]
      exact h.below p hp
    · intro p hp
      rcases List.mem_append.1 hp with hp | hp
      · exact Nat.lt_succ_of_lt (h.below p hp)
      · simp at hp; omega
    · simp
    · intro j hj
      by_cases hji : j = i
      · subst hji
        rw [exception_here h _ hmem]
        exact iff_of_true (by simp) (isException_iff.1 he)
      · rw [hmem j (by omega), h.mem_iff j (by omega)]
        refine or_congr Iff.rfl ⟨?_, ?_⟩
        · rintro ⟨p, hp, hpj, hmax⟩
          refine ⟨p, (hmem p (h.below p hp)).2 hp, hpj, fun q hq hqj => hmax q ((hmem q (by omega)).1 hq) hqj⟩
        · rintro ⟨p, hp, hpj, hmax⟩
          refine ⟨p, (hmem p (by omega)).1 hp, hpj, fun q hq hqj => hmax q ((hmem q (by omega)).2 hq) hqj⟩
    · intro j hj hjp
      simp only [List.mem_append, List.mem_singleton, not_or] at hjp
      rw [hwork j fun hc => hjp.1 (mem_of_prev h hc.symm)]
      exact h.plain j (by omega) hjp.1
    · intro n hn
      simp only [List.length_append, List.length_singleton] at hn
      by_cases hlast : n + 1 < st.pos.length
      · rw [List.getElem_append_left hlast, List.getElem_append_left (by omega), hwork]
        · exact h.hop n hlast
        · intro hc
          rw [h.prev_eq, List.getLast?_eq_getElem?, List.getElem?_eq_getElem (by omega), Option.some.injEq] at hc
          have := List.pairwise_iff_getElem.1 h.rising n (st.pos.length - 1) (by omega) (by omega) (by omega)
          omega
      · have hprev : st.prev = some st.pos[n] := by
          rw [h.prev_eq, List.getLast?_eq_getElem?, List.getElem?_eq_getElem (by omega)]
          simp [show st.pos.length - 1 = n by omega]
        have hp : st.pos[n] < i := h.below _ (List.getElem_mem _)
        rw [List.getElem_append_right (by omega), List.getElem_append_left (by omega)]
        simp only [show n + 1 - st.pos.length = 0 by omega, List.getElem_cons_zero]
        refine ⟨h.near _ hprev, ?_⟩
        rw [hprev, setPrev, getD_set, if_pos ⟨rfl, by rw [h.length_work]; omega⟩]
    · intro p hp
      simp only [Option.some.injEq] at hp
      omega
  · rw [if_neg he]
    rw [isException_iff, not_or] at he
    constructor
    · simpa using h.length_work
    · exact h.exc_eq
    · exact h.rising
    · exact fun p hp => Nat.lt_succ_of_lt (h.below p hp)
    · exact h.prev_eq
    · intro j hj
      by_cases hji : j = i
      · subst hji
        rw [exception_here h _ fun _ _ => Iff.rfl]
        exact iff_of_false (fun hc => absurd (h.below _ hc) (by omega)) (not_or.2 he)
      · exact h.mem_iff j (by omega)
    · intro j hj hjp
      rw [getD_set]
      by_cases hji : j = i
      · rw [if_pos ⟨hji, by rw [h.length_work]; omega⟩, hji]
      · rw [if_neg (by omega)]
        exact h.plain j (by omega) hjp
    · intro n hn
      replace hn : n + 1 < st.pos.length := hn
      have hp : st.pos[n] < i := h.below _ (List.getElem_mem _)
      show _ ∧ (st.work.set i (blk.getD i 0)).getD st.pos[n] 0 = _
      rw [getD_set, if_neg (by omega)]
      exact h.hop n hn
    · intro p hp
      have := h.near p hp
      have : ¬ i - p = 2 ^ b := fun hc => he.2 ⟨p, hp, hc⟩
      omega

theorem scanInv_scanFrom {b : Nat} {blk : List Word} (vs : List Word) {i : Nat} {st : ScanState}
    (h : ScanInv b blk i st) (hv : blk.drop i = vs) (hi : i + vs.length ≤ block) :
    ScanInv b blk (i + vs.length) (scanFrom b i vs st) := by
  induction vs generalizing i st with
  | nil => exact h
  | cons v vs ih =>
    have hb : i < blk.length := by
      by_contra hc
      rw [List.drop_eq_nil_of_le (by omega)] at hv
      cases hv
    rw [List.drop_eq_getElem_cons hb] at hv
    injection hv with hv1 hv2
    have hg : blk.getD i 0 = v := by simp [List.getD, List.getElem?_eq_getElem hb, hv1]
    simp only [List.length_cons] at hi ⊢
    have := ih (hg ▸ scanInv_step h (by omega)) hv2 (by omega)
    rwa [show i + 1 + vs.length = i + (vs.length + 1) by omega] at this

/-- What a scan of a block finds (R194 to R196, R199). -/
structure ScanSpec (b : Nat) (blk : List Word) (r : ScanState) : Prop where
  length_work : r.work.length = block
  exc_eq : r.exc = r.pos.map fun p => blk.getD p 0
  rising : r.pos.Pairwise (· < ·)
  below : ∀ p ∈ r.pos, p < block
  mem_iff : ∀ j < block, (j ∈ r.pos ↔
    2 ^ b ≤ (blk.getD j 0).toNat ∨ ∃ p ∈ r.pos, p + 2 ^ b = j ∧ ∀ q ∈ r.pos, q < j → q ≤ p)
  plain : ∀ j < block, j ∉ r.pos → r.work.getD j 0 = blk.getD j 0
  hop : ∀ n (h : n + 1 < r.pos.length), r.pos[n + 1] ≤ r.pos[n] + 2 ^ b ∧
    r.work.getD r.pos[n] 0 = BitVec.ofNat 32 (r.pos[n + 1] - 1 - r.pos[n])
  last : ∀ p, r.pos.getLast? = some p → block ≤ p + 2 ^ b ∧ r.work.getD p 0 = BitVec.ofNat 32 (2 ^ b - 1)

theorem scan_spec (b : Nat) {blk : List Word} (hb : blk.length = block) : ScanSpec b blk (scan blk b) := by
  have h := scanInv_scanFrom blk (scanInv_start b blk) rfl (by omega)
  rw [Nat.zero_add, hb] at h
  unfold scan
  generalize scanFrom b 0 blk ⟨List.replicate block 0, [], [], none⟩ = st at h
  have hwork : ∀ j, some j ≠ st.prev → (setPrev st.work st.prev fun _ => 2 ^ b - 1).getD j 0 = st.work.getD j 0 := by
    intro j hj
    cases hprev : st.prev with
    | none => rfl
    | some p =>
      rw [setPrev, getD_set, if_neg]
      rintro ⟨rfl, -⟩
      exact hj hprev.symm
  constructor
  · simpa using h.length_work
  · exact h.exc_eq
  · exact h.rising
  · exact h.below
  · exact h.mem_iff
  · intro j hj hjp
    show (setPrev st.work st.prev fun _ => 2 ^ b - 1).getD j 0 = _
    rw [hwork j fun hc => hjp (mem_of_prev h hc.symm)]
    exact h.plain j hj hjp
  · intro n hn
    replace hn : n + 1 < st.pos.length := hn
    show _ ∧ (setPrev st.work st.prev fun _ => 2 ^ b - 1).getD st.pos[n] 0 = _
    rw [hwork]
    · exact h.hop n hn
    · intro hc
      rw [h.prev_eq, List.getLast?_eq_getElem?, List.getElem?_eq_getElem (by omega), Option.some.injEq] at hc
      have := List.pairwise_iff_getElem.1 h.rising n (st.pos.length - 1) (by omega) (by omega) (by omega)
      omega
  · intro p hp
    have hprev : st.prev = some p := h.prev_eq.trans hp
    refine ⟨h.near p hprev, ?_⟩
    show (setPrev st.work st.prev fun _ => 2 ^ b - 1).getD p 0 = _
    have hlt : p < st.work.length := by
      rw [h.length_work]
      exact h.below p (mem_of_prev h hprev)
    rw [hprev, setPrev, getD_set, if_pos ⟨rfl, hlt⟩]

/-- As many side-list entries as exception positions (R196). -/
theorem length_exc {b : Nat} {blk : List Word} (hb : blk.length = block) :
    (scan blk b).exc.length = (scan blk b).pos.length := by
  rw [(scan_spec b hb).exc_eq, List.length_map]

/-! ### The width selector (R192) -/

theorem pfdChoose_le (blk : List Word) : pfdChoose blk ≤ 14 := by
  unfold pfdChoose
  cases h : (List.range 14).find? fun k => (scan blk (cand k)).exc.length ≤ excMax with
  | none => simp
  | some k =>
    have := List.mem_range.1 (List.mem_of_find?_eq_some h)
    simp
    omega

/-- An accepted width has at most 12 exceptions. -/
theorem pfdChoose_accepts {blk : List Word} (h : pfdChoose blk < 14) :
    (scan blk (cand (pfdChoose blk))).exc.length ≤ excMax := by
  unfold pfdChoose at h ⊢
  cases hf : (List.range 14).find? fun k => (scan blk (cand k)).exc.length ≤ excMax with
  | none => rw [hf] at h; simp at h
  | some k => simpa using List.find?_some hf

/-! ### Lengths (R95, R202, R205 (a)) -/

theorem cand_lt : ∀ k < 14, 2 ≤ cand k ∧ cand k ≤ 20 := by decide

theorem length_groupOf {g : Nat} {l : List Word} (hl : l.length = block) (hg : g < 4) : (groupOf g l).length = group := by
  simp only [groupOf, List.length_take, List.length_drop, hl, block, group]
  omega

theorem length_packMain {work : List Word} (hl : work.length = block) (b : Nat) : (packMain work b).length = 4 * b := by
  simp only [packMain, List.length_append, length_packn, length_groupOf hl (show 0 < 4 by decide),
    length_groupOf hl (show 1 < 4 by decide), length_groupOf hl (show 2 < 4 by decide),
    length_groupOf hl (show 3 < 4 by decide), wordsFor, group]
  omega

theorem pfdCat_le (blk : List Word) : pfdCat blk ≤ 2 := by
  unfold pfdCat
  split <;> [skip; split] <;> decide

theorem catWidth_mem : ∀ c ≤ 2, catWidth c = 8 ∨ catWidth c = 16 ∨ catWidth c = 32 := by decide

/-- The length of an encoded block below width 32 (R202). -/
theorem length_pfdEmit {blk : List Word} (hb : blk.length = block) {k : Nat} (hk : k < 14) :
    (pfdEmit blk k).length =
      1 + 4 * cand k + wordsFor ((scan blk (cand k)).pos.length * catWidth (pfdCat blk)) := by
  have h20 := cand_lt k hk
  rw [pfdEmit, if_neg (by omega)]
  simp only [List.length_cons, List.length_append, length_packMain (scan_spec _ hb).length_work, length_packn,
    length_exc hb]
  omega

/-- "encoded word count ≤ 129" (R205 (a)). -/
theorem length_pfdEncode_le {blk : List Word} (hb : blk.length = block) : (pfdEncode blk).length ≤ pfdMaxWords := by
  rw [pfdEncode]
  rcases Nat.lt_or_ge (pfdChoose blk) 14 with h | h
  · have h1 := cand_lt _ h
    have h2 := pfdChoose_accepts h
    have h3 := catWidth_mem _ (pfdCat_le blk)
    rw [length_exc hb] at h2
    rw [length_pfdEmit hb h]
    simp only [excMax, pfdMaxWords, wordsFor] at *
    have h4 : (scan blk (cand (pfdChoose blk))).pos.length * catWidth (pfdCat blk) ≤ 12 * 32 :=
      Nat.mul_le_mul h2 (by omega)
    omega
  · have : pfdChoose blk = 14 := Nat.le_antisymm (pfdChoose_le blk) h
    rw [this, pfdEmit, if_pos (by decide), List.length_cons, hb]
    decide

/-! ### The decoder (R211 to R216) -/

@[simp] theorem length_unpackMain (main : List Word) (b : Nat) : (unpackMain main b).length = block := by
  simp [unpackMain, group, block]

theorem length_pfdWalk {rd : Nat → Option Word} {base ew fuel : Nat} {vals : List Word} {s n : Nat}
    {r : List Word × Nat} (h : pfdWalk rd base ew fuel vals s n = some r) : r.1.length = vals.length := by
  induction fuel generalizing vals s n with
  | zero => rw [pfdWalk] at h; cases h; rfl
  | succ fuel ih =>
    rw [pfdWalk] at h
    split at h
    · split at h
      · cases h
      · rw [ih h, List.length_set]
    · cases h; rfl

/-- The decoder produces 128 Values (R216). -/
theorem length_pfdDecode {rd : Nat → Option Word} {h : PfdHeader} {r : List Word × Nat}
    (hr : pfdDecode rd h = some r) : r.1.length = block := by
  simp only [pfdDecode] at hr
  split at hr
  · cases hr
  · simp only [Option.map_eq_some_iff] at hr
    obtain ⟨q, hq, rfl⟩ := hr
    rw [length_pfdWalk hq, length_unpackMain]

/-- Reading words of the input that all have valid addresses, and reading past the last one that has. -/
theorem readWords_spec (rd : Nat → Option Word) (w : Nat → Word) (lim : Nat)
    (hrd : ∀ i, rd i = if i < lim then some (w i) else none) (a n : Nat) :
    (a + n ≤ lim → readWords rd a n = some ((List.range n).map fun i => w (a + i))) ∧
      (lim < a + n → 0 < n → readWords rd a n = none) := by
  induction n generalizing a with
  | zero => simp [readWords]
  | succ n ih =>
    obtain ⟨ih1, ih2⟩ := ih (a + 1)
    constructor
    · intro hl
      rw [readWords, hrd a, if_pos (by omega)]
      simp only [ih1 (by omega), Option.map_some, List.range_succ_eq_map, List.map_cons, List.map_map, Nat.add_zero,
        Option.some.injEq, List.cons.injEq, true_and]
      refine List.map_congr_left fun i _ => ?_
      simp only [Function.comp_apply]
      rw [show a + (i + 1) = a + 1 + i by omega]
    · intro hl _
      rw [readWords]
      rcases Nat.lt_or_ge a lim with h | h
      · rw [hrd a, if_pos h]
        rcases Nat.eq_zero_or_pos n with hn | hn
        · omega
        · simp only [ih2 (by omega) hn, Option.map_none]
      · rw [hrd a, if_neg (by omega)]

/-- What the chain walk does over an input of which the first `lim` words have valid addresses: it needs the entries
`n .. m - 1`; if their words are valid it answers what it answers over an input without end, and otherwise nothing
(R212, R213). From position `s`, `block - s` steps are enough. -/
theorem pfdWalk_spec (rd : Nat → Option Word) (w : Nat → Word) (lim : Nat)
    (hrd : ∀ i, rd i = if i < lim then some (w i) else none) (base ew fuel : Nat) (vals : List Word) (s n : Nat)
    (hf : block ≤ s + fuel) :
    ∃ res m, n ≤ m ∧ m ≤ n + (block - s) ∧ (m = n ↔ block ≤ s) ∧
      (∀ fuel', block ≤ s + fuel' → pfdWalk (fun i => some (w i)) base ew fuel' vals s n = some (res, m)) ∧
      ((∀ j, n ≤ j → j < m → base + j * ew / 32 < lim) → pfdWalk rd base ew fuel vals s n = some (res, m)) ∧
      ((∃ j, n ≤ j ∧ j < m ∧ lim ≤ base + j * ew / 32) → pfdWalk rd base ew fuel vals s n = none) := by
  have done : ∀ (rd' : Nat → Option Word) fuel', block ≤ s → pfdWalk rd' base ew fuel' vals s n = some (vals, n) := by
    intro rd' fuel' h
    cases fuel' with
    | zero => rfl
    | succ fuel' => rw [pfdWalk, if_neg (by omega)]
  induction fuel generalizing vals s n with
  | zero =>
    exact ⟨vals, n, by omega, by omega, by simp; omega, fun f _ => done _ _ (by omega), fun _ => done _ _ (by omega),
      fun ⟨j, h1, h2, _⟩ => by omega⟩
  | succ fuel ih =>
    rcases Nat.lt_or_ge s block with hs | hs
    · have hstep : ∀ e, ∃ res m, n + 1 ≤ m ∧ m ≤ n + 1 + (block - (s + (vals.getD s 0).toNat + 1)) ∧
          (∀ fuel', block ≤ s + (vals.getD s 0).toNat + 1 + fuel' →
            pfdWalk (fun i => some (w i)) base ew fuel' (vals.set s e) (s + (vals.getD s 0).toNat + 1) (n + 1) =
              some (res, m)) ∧
          ((∀ j, n + 1 ≤ j → j < m → base + j * ew / 32 < lim) →
            pfdWalk rd base ew fuel (vals.set s e) (s + (vals.getD s 0).toNat + 1) (n + 1) = some (res, m)) ∧
          ((∃ j, n + 1 ≤ j ∧ j < m ∧ lim ≤ base + j * ew / 32) →
            pfdWalk rd base ew fuel (vals.set s e) (s + (vals.getD s 0).toNat + 1) (n + 1) = none) := by
        intro e
        obtain ⟨res, m, h1, h2, -, h3, h4, h5⟩ := ih (vals.set s e) (s + (vals.getD s 0).toNat + 1) (n + 1) (by omega)
          (by
            intro rd' fuel' h
            cases fuel' with
            | zero => rfl
            | succ fuel' => rw [pfdWalk, if_neg (by omega)])
        exact ⟨res, m, h1, h2, h3, h4, h5⟩
      obtain ⟨res, m, h1, h2, h3, h4, h5⟩ :=
        hstep ((w (base + n * ew / 32) >>> (32 - n * ew % 32 - ew)) &&& mask ew)
      refine ⟨res, m, by omega, by omega, by omega, ?_, ?_, ?_⟩
      · intro fuel' hf'
        cases fuel' with
        | zero => omega
        | succ fuel' =>
          rw [pfdWalk, if_pos hs]
          exact h3 fuel' (by omega)
      · intro hok
        rw [pfdWalk, if_pos hs, excEntry, hrd, if_pos (hok n (by omega) (by omega))]
        exact h4 fun j h6 h7 => hok j (by omega) h7
      · rintro ⟨j, h6, h7, h8⟩
        rw [pfdWalk, if_pos hs, excEntry, hrd]
        split
        · rfl
        · next e he =>
          split at he
          · cases he
            refine h5 ⟨j, ?_, h7, h8⟩
            rcases Nat.eq_or_lt_of_le h6 with h9 | h9
            · subst h9; omega
            · exact h9
          · cases he
    · exact ⟨vals, n, by omega, by omega, by simp; omega, fun f _ => done _ _ (by omega), fun _ => done _ _ (by omega),
        fun ⟨j, h1, h2, _⟩ => by omega⟩

/-- The widths of a header that is not reserved (30_encoding.md R91, R92, R94). -/
theorem widths_of_header {c : BitVec 2} {k : BitVec 4} (h : headerReserved c k = false) :
    (catWidth c.toNat = 8 ∨ catWidth c.toNat = 16 ∨ catWidth c.toNat = 32) ∧ 2 ≤ cand k.toNat ∧ cand k.toNat ≤ 32 := by
  revert c k; decide

/-- The words that `n` entries of a width that divides 32 occupy are those that hold an entry. -/
theorem wordsFor_le_iff {ew : Nat} (hew : ew = 8 ∨ ew = 16 ∨ ew = 32) (base n lim : Nat) (hb : base ≤ lim) :
    base + wordsFor (n * ew) ≤ lim ↔ ∀ j < n, base + j * ew / 32 < lim := by
  simp only [wordsFor]
  constructor
  · intro h j hj
    rcases hew with rfl | rfl | rfl <;> omega
  · intro h
    rcases Nat.eq_zero_or_pos n with rfl | hn
    · omega
    · have := h (n - 1) (by omega)
      rcases hew with rfl | rfl | rfl <;> omega

/-- What the decoder does over an input of which the first `lim` words have valid addresses: it consumes `t` words, `n`
being the number of exceptions it walks; if they are valid it answers what it answers over an input without end, and
otherwise nothing (R211 to R216). -/
theorem pfdDecode_spec (rd : Nat → Option Word) (w : Nat → Word) (lim : Nat)
    (hrd : ∀ i, rd i = if i < lim then some (w i) else none) (h : PfdHeader)
    (hh : headerReserved h.cat h.widx = false) :
    ∃ vals n, let t := 1 + 4 * cand h.widx.toNat + wordsFor (n * catWidth h.cat.toNat)
      vals.length = block ∧ n ≤ block - h.start.toNat ∧ (n = 0 ↔ block ≤ h.start.toNat) ∧
        pfdDecode (fun i => some (w i)) h = some (vals, t) ∧
        (t ≤ lim → pfdDecode rd h = some (vals, t)) ∧ (lim < t → pfdDecode rd h = none) ∧
        (n = 0 → vals = unpackMain ((List.range (4 * cand h.widx.toNat)).map fun i => w (1 + i)) (cand h.widx.toNat)) := by
  obtain ⟨hew, hb2, -⟩ := widths_of_header hh
  generalize hbe : cand h.widx.toNat = b at *
  generalize hee : catWidth h.cat.toNat = ew at *
  have hmt := (readWords_spec (fun i => if i < 1 + 4 * b then some (w i) else none) w (1 + 4 * b) (fun _ => rfl) 1
    (4 * b)).1 (by omega)
  have htot : readWords (fun i => some (w i)) 1 (4 * b) = some ((List.range (4 * b)).map fun i => w (1 + i)) := by
    rw [← hmt]
    have : ∀ n a, a + n ≤ 1 + 4 * b → readWords (fun i => some (w i)) a n =
        readWords (fun i => if i < 1 + 4 * b then some (w i) else none) a n := by
      intro n
      induction n with
      | zero => intro a _; rfl
      | succ n ih => intro a ha; rw [readWords, readWords, if_pos (by omega), ih (a + 1) (by omega)]
    exact this (4 * b) 1 (by omega)
  obtain ⟨hm1, hm2⟩ := readWords_spec rd w lim hrd 1 (4 * b)
  generalize hmain : (List.range (4 * b)).map (fun i => w (1 + i)) = main at *
  obtain ⟨res, n, -, g2, g3, g4, g5, g6⟩ :=
    pfdWalk_spec rd w lim hrd (1 + 4 * b) ew block (unpackMain main b) h.start.toNat 0 (by omega)
  have gt := g4 block (by omega)
  refine ⟨res, n, by rw [length_pfdWalk gt, length_unpackMain], by omega, g3, ?_, ?_, ?_, ?_⟩
  · simp only [pfdDecode, hbe, hee, htot, gt, Option.map_some]
  · intro ht
    have hle : 1 + 4 * b ≤ lim := by omega
    have hj := (wordsFor_le_iff hew (1 + 4 * b) n lim hle).1 ht
    simp only [pfdDecode, hbe, hee, hm1 hle, g5 fun j _ hjn => hj j hjn, Option.map_some]
  · intro ht
    rcases Nat.lt_or_ge lim (1 + 4 * b) with hlt | hle
    · simp only [pfdDecode, hbe, hm2 hlt (by omega)]
    · have hj := mt (wordsFor_le_iff hew (1 + 4 * b) n lim hle).2 (by omega)
      push Not at hj
      obtain ⟨j, hjn, hj⟩ := hj
      simp only [pfdDecode, hbe, hee, hm1 hle, g6 ⟨j, by omega, hjn, hj⟩, Option.map_none]
  · intro hn
    have hs := g3.1 hn
    rw [block, pfdWalk, if_neg (by simp only [block] at *; omega)] at gt
    cases gt
    rfl

end Sys2Proof.Machine
end

