-- ==== Sys2Proof/Laws/Exec.lean ====
section
/-! SUPPORT. What running an encoded word can do, said once for all of them. -/

namespace Sys2Proof.Machine

/-- The four ways the run of a word ends, `lo` being the length of its reserved output range. -/
inductive Ends (s : State) (lo : Nat) : State → Prop where
  /-- An error found by a check: no word of memory is written (60_exceptions.md R244). -/
  | refused (e : OpError) (he : e ≠ .s16Range) : Ends s lo (s.raise e 0)
  /-- The whole reserved range is written (20_memory.md R58, last sentence). -/
  | wrote (ws : List Word) (res : Nat) (hv : s.outValid lo = true) (hl : ws.length = lo) :
      Ends s lo ((s.writeOut ws).complete res)
  /-- An encoder's stream, and free words up to the end of the reserved range (20_memory.md R58). -/
  | filled (ws : List Word) (hv : s.outValid lo = true) (hl : ws.length ≤ lo) :
      Ends s lo ((s.writeOutReserved ws lo).complete ws.length)
  /-- The codewords before a Value of 2^28 or more (60_exceptions.md R248). -/
  | partly (ws : List Word) (hv : s.outValid lo = true) (hl : ws.length ≤ lo) :
      Ends s lo ((s.writeOutReserved ws lo).raise .s16Range ws.length)

theorem ends_checked {s : State} {li lo : Nat} {done : State}
    (h : s.outValid lo = true → s.inValid li = true → s.overlaps li lo = false → Ends s lo done) :
    Ends s lo (s.checked li lo done) := by
  rcases checked_cases s li lo done with ⟨-, h1⟩ | ⟨-, -, -, h1⟩ | ⟨h1, h2, h3, h4⟩
  · exact h1 ▸ .refused _ (by decide)
  · exact h1 ▸ .refused _ (by decide)
  · rw [h4]; exact h h1 h2 h3

/-- The ways `S16DEC` ends (41_simple16.md R167). -/
theorem runS16dec_cases (s : State) (slots : Nat → Option (List Word)) :
    (s.outValid s.count.toNat = false ∧ s.runS16dec slots = s.raise .bounds 0) ∨
    (s.outValid s.count.toNat = true ∧ s16Decode slots s.count.toNat = none ∧
      s.runS16dec slots = s.raise .bounds 0) ∨
    ∃ vals u, s.outValid s.count.toNat = true ∧ s16Decode slots s.count.toNat = some (vals, u) ∧
      ((s.overlaps u s.count.toNat = true ∧ s.runS16dec slots = s.raise .overlap 0) ∨
        (s.overlaps u s.count.toNat = false ∧ s.runS16dec slots = (s.writeOut vals).complete u)) := by
  unfold State.runS16dec
  rcases Bool.eq_false_or_eq_true (s.outValid s.count.toNat) with hv | hv
  · rcases hd : s16Decode slots s.count.toNat with _ | ⟨vals, u⟩
    · exact .inr (.inl ⟨hv, rfl, by simp [hv, hd]⟩)
    · refine .inr (.inr ⟨vals, u, hv, rfl, ?_⟩)
      rcases Bool.eq_false_or_eq_true (s.overlaps u s.count.toNat) with ho | ho
      · exact .inl ⟨ho, by simp [hv, hd, ho]⟩
      · exact .inr ⟨ho, by simp [hv, hd, ho]⟩
  · exact .inl ⟨hv, by simp [hv]⟩

theorem ends_runS16dec (s : State) (slots : Nat → Option (List Word)) :
    Ends s s.count.toNat (s.runS16dec slots) := by
  rcases runS16dec_cases s slots with ⟨-, h⟩ | ⟨-, -, h⟩ | ⟨vals, u, hv, hd, ⟨-, h⟩ | ⟨-, h⟩⟩
  · exact h ▸ .refused _ (by decide)
  · exact h ▸ .refused _ (by decide)
  · exact h ▸ .refused _ (by decide)
  · exact h ▸ .wrote _ _ hv (length_s16Decode hd)

/-- The ways `PFDDEC` ends, in the order of its checks (60_exceptions.md R243). -/
theorem runPfddec_cases (s : State) (hdr : Option PfdHeader) :
    (s.outValid block = false ∧ s.runPfddec hdr = s.raise .bounds 0) ∨
    (s.outValid block = true ∧ hdr = none ∧ s.runPfddec hdr = s.raise .bounds 0) ∨
    ∃ h, s.outValid block = true ∧ hdr = some h ∧
      ((headerReserved h.cat h.widx = true ∧ s.runPfddec hdr = s.raise .pfdHeader 0) ∨
        (headerReserved h.cat h.widx = false ∧
          ((pfdDecode s.readIn h = none ∧ s.runPfddec hdr = s.raise .bounds 0) ∨
            ∃ vals t, pfdDecode s.readIn h = some (vals, t) ∧
              ((s.overlaps t block = true ∧ s.runPfddec hdr = s.raise .overlap 0) ∨
                (s.overlaps t block = false ∧ s.runPfddec hdr = (s.writeOut vals).complete t))))) := by
  unfold State.runPfddec
  simp only [outLen]
  rcases Bool.eq_false_or_eq_true (s.outValid block) with hv | hv
  · rcases hdr with _ | h
    · exact .inr (.inl ⟨hv, rfl, by simp [hv]⟩)
    · refine .inr (.inr ⟨h, hv, rfl, ?_⟩)
      rcases Bool.eq_false_or_eq_true (headerReserved h.cat h.widx) with hr | hr
      · exact .inl ⟨hr, by simp [hv, hr]⟩
      · refine .inr ⟨hr, ?_⟩
        rcases hd : pfdDecode s.readIn h with _ | ⟨vals, t⟩
        · exact .inl ⟨rfl, by simp [hv, hr, hd]⟩
        · refine .inr ⟨vals, t, rfl, ?_⟩
          rcases Bool.eq_false_or_eq_true (s.overlaps t block) with ho | ho
          · exact .inl ⟨ho, by simp [hv, hr, hd, ho]⟩
          · exact .inr ⟨ho, by simp [hv, hr, hd, ho]⟩
  · exact .inl ⟨hv, by simp [hv]⟩

theorem ends_runPfddec (s : State) (hdr : Option PfdHeader) : Ends s block (s.runPfddec hdr) := by
  rcases runPfddec_cases s hdr with ⟨-, h⟩ | ⟨-, -, h⟩ |
    ⟨h0, hv, -, ⟨-, h⟩ | ⟨-, ⟨-, h⟩ | ⟨vals, t, hd, ⟨-, h⟩ | ⟨-, h⟩⟩⟩⟩
  · exact h ▸ .refused _ (by decide)
  · exact h ▸ .refused _ (by decide)
  · exact h ▸ .refused _ (by decide)
  · exact h ▸ .refused _ (by decide)
  · exact h ▸ .refused _ (by decide)
  · exact h ▸ .wrote _ _ hv (length_pfdDecode hd)

theorem exec_pack {bits : BitVec 6} {s t : State} (h : exec (.pack bits) s = .next t) :
    Ends s (outLen (.pack bits) s) t := by
  simp only [exec, execPack, Host.Outcome.next.injEq] at h
  subst h
  split
  · refine ends_checked fun hv _ _ => .wrote _ _ hv ?_
    simp [length_packn, wordsFor, group, outLen]
    omega
  · exact .refused _ (by decide)

theorem exec_unpack {bits : BitVec 6} {s t : State} (h : exec (.unpack bits) s = .next t) :
    Ends s (outLen (.unpack bits) s) t := by
  simp only [exec, execUnpack, Host.Outcome.next.injEq] at h
  subst h
  split
  · exact ends_checked fun hv _ _ => .wrote _ _ hv (by simp [outLen])
  · exact .refused _ (by decide)

theorem exec_s16enc {s t : State} (h : exec .s16enc s = .next t) : Ends s (outLen .s16enc s) t := by
  simp only [exec, execS16enc, Host.Outcome.next.injEq] at h
  subst h
  refine ends_checked fun hv _ _ => ?_
  have hl := length_s16Encode_le (s.input s.count.toNat)
  rw [length_input] at hl
  split
  · exact .filled _ hv hl
  · exact .partly _ hv hl

theorem exec_pfdenc {s t : State} (h : exec .pfdenc s = .next t) : Ends s (outLen .pfdenc s) t := by
  simp only [exec, execPfdenc, Host.Outcome.next.injEq] at h
  subst h
  exact ends_checked fun hv _ _ => .filled _ hv (length_pfdEncode_le (length_input ..))

/-- Every run of a word ends in one of the four ways. -/
theorem exec_ends {i : Instr} {s t : State} (h : exec i s = .next t) : Ends s (outLen i s) t := by
  cases i
  case pack => exact exec_pack h
  case unpack => exact exec_unpack h
  case s16enc => exact exec_s16enc h
  case pfdenc => exact exec_pfdenc h
  case s16dec => cases h; exact ends_runS16dec ..
  case pfddec => cases h; exact ends_runPfddec ..
  case pfdh => cases h; exact ends_runPfddec ..
  all_goals cases h; exact ends_runS16dec ..

/-! ### What holds however it ends -/

variable {s t : State} {lo : Nat}

theorem Ends.shell (h : Ends s lo t) : SameShell s t := by
  cases h <;> exact ⟨rfl, rfl, rfl, rfl, rfl, rfl, rfl, rfl⟩

theorem Ends.statusClean (h : Ends s lo t) : StatusClean t := by cases h <;> simp

theorem Ends.sameOutside (h : Ends s lo t) : SameOutside s t s.dst.toNat lo := by
  cases h with
  | refused => exact fun a _ => rfl
  | wrote ws res hv hl => exact fun a ha => sameOutside_writeOut s ws a (hl ▸ ha)
  | filled ws hv hl => exact fun a ha => sameOutside_writeOutReserved s ws lo hl a ha
  | partly ws hv hl => exact fun a ha => sameOutside_writeOutReserved s ws lo hl a ha

/-- The memory after a run: as before, or with words written inside a range that is inside memory. -/
theorem Ends.mem (h : Ends s lo t) :
    t.mem = s.mem ∨ ∃ ws, t.mem = s.mem.writeList s.dst.toNat ws ∧ s.outValid lo = true ∧ ws.length = lo := by
  cases h with
  | refused => exact .inl rfl
  | wrote ws res hv hl => exact .inr ⟨ws, rfl, hv, hl⟩
  | filled ws hv hl => exact .inr ⟨_, rfl, hv, by simp; omega⟩
  | partly ws hv hl => exact .inr ⟨_, rfl, hv, by simp; omega⟩

theorem Ends.draws_le (h : Ends s lo t) : s.draws ≤ t.draws := by cases h <;> simp

/-- `SERR` after a run: set if it was, and set by an error (10_state.md R29). -/
theorem Ends.serr (h : Ends s lo t) : t.serr = (s.serr || t.err != 0) := by
  have hz : ∀ e : OpError, e.code ≠ 0#4 := OpError.code_ne_zero
  cases h <;> simp [hz]

/-- The sixteen codewords run alike: each is the first codeword of its stream (log 9). -/
theorem exec_s16Instr {k : Nat} (hk : k < 16) (slots : List Word) (s : State) :
    exec (s16Instr k slots) s = .next (s.runCodeword slots) := by
  rcases lt_sixteen_cases hk with h | h | h | h | h | h | h | h | h | h | h | h | h | h | h | h <;> subst h <;> rfl

end Sys2Proof.Machine
end

