-- ==== Sys2Proof/Laws/PerInstr.lean ====
section
/-! SUPPORT. The family `RowBits`: the word of a well-formed instruction has the fixed bits of its row of
spec/opcode_table.json. -/

namespace Sys2Proof.Laws.RowBits

open Sys2Proof Machine

/-- The row's `mask`: which bits are fixed. -/
def rowMask : Instr → Word
  | .pack _ => 0xFFFFFC0F
  | .unpack _ => 0xFFFFFC0F
  | .s16enc => 0xFFFFFFFF
  | .s16dec => 0xFFFFFFFF
  | .pfdenc => 0xFFFFFFFF
  | .pfddec => 0xFFFFFFFF
  | .s16w0 _ => 0xF0000000
  | .s16w1 _ => 0xF0000000
  | .s16w2 _ => 0xF0000000
  | .s16w3 _ => 0xF0000000
  | .s16w4 _ => 0xF0000000
  | .s16w5 _ => 0xF0000000
  | .s16w6 _ => 0xF0000000
  | .s16w7 _ => 0xF0000000
  | .s16w8 _ => 0xF0000000
  | .s16w9 _ => 0xF0000000
  | .s16w10 _ => 0xF0000000
  | .s16w11 _ => 0xF0000000
  | .s16w12 _ => 0xF0000000
  | .s16w13 _ => 0xF0000000
  | .s16w14 _ => 0xF0000000
  | .s16w15 _ => 0xF0000000
  | .pfdh _ _ _ => 0x00000000

/-- The row's `match`: what the fixed bits are. -/
def rowMatch : Instr → Word
  | .pack _ => 0x00000001
  | .unpack _ => 0x00000002
  | .s16enc => 0x00000003
  | .s16dec => 0x00000004
  | .pfdenc => 0x00000005
  | .pfddec => 0x00000006
  | .s16w0 _ => 0x00000000
  | .s16w1 _ => 0x10000000
  | .s16w2 _ => 0x20000000
  | .s16w3 _ => 0x30000000
  | .s16w4 _ => 0x40000000
  | .s16w5 _ => 0x50000000
  | .s16w6 _ => 0x60000000
  | .s16w7 _ => 0x70000000
  | .s16w8 _ => 0x80000000
  | .s16w9 _ => 0x90000000
  | .s16w10 _ => 0xA0000000
  | .s16w11 _ => 0xB0000000
  | .s16w12 _ => 0xC0000000
  | .s16w13 _ => 0xD0000000
  | .s16w14 _ => 0xE0000000
  | .s16w15 _ => 0xF0000000
  | .pfdh _ _ _ => 0x00000000

/-- A well-formed instruction's word has the fixed bits of its row. -/
def Statement (i : Instr) : Prop := wellFormed i = true → encode i &&& rowMask i = rowMatch i

/-- The selector bits of a word, in place. -/
theorem and_selector (w : Word) : w &&& (0xF0000000 : Word) = BitVec.ofNat 32 (s16Sel w) <<< 28 := by
  rw [show (0xF0000000 : Word) = BitVec.ofNat 32 15 <<< 28 from rfl]
  refine BitVec.eq_of_getLsbD_eq fun i hi => ?_
  rw [BitVec.getLsbD_and, BitVec.getLsbD_shiftLeft, BitVec.getLsbD_shiftLeft, BitVec.getLsbD_ofNat,
    BitVec.getLsbD_ofNat, s16Sel, BitVec.testBit_toNat, BitVec.getLsbD_extractLsb']
  by_cases h : i < 28
  · simp [h]
  · have h15 : ∀ j < 4, Nat.testBit 15 j = true := by decide
    simp [h, hi, h15 (i - 28) (by omega), show i - 28 < 32 by omega, show i - 28 < 4 by omega,
      show 28 + (i - 28) = i by omega]

theorem codeword {k : Nat} (hk : k < 16) {slots : List Word} (h : slotsFit k slots = true) :
    s16Format k slots &&& (0xF0000000 : Word) = BitVec.ofNat 32 k <<< 28 := by
  rw [and_selector, s16Sel_s16Format hk ((slotsFit_iff ..).1 h).2]

theorem pack (bits : BitVec 6) : Statement (.pack bits) := by revert bits; unfold Statement; decide
theorem unpack (bits : BitVec 6) : Statement (.unpack bits) := by revert bits; unfold Statement; decide
theorem s16enc : Statement .s16enc := by unfold Statement; decide
theorem s16dec : Statement .s16dec := by unfold Statement; decide
theorem pfdenc : Statement .pfdenc := by unfold Statement; decide
theorem pfddec : Statement .pfddec := by unfold Statement; decide
theorem s16w0 (slots : List Word) : Statement (.s16w0 slots) := codeword (by decide)
theorem s16w1 (slots : List Word) : Statement (.s16w1 slots) := codeword (by decide)
theorem s16w2 (slots : List Word) : Statement (.s16w2 slots) := codeword (by decide)
theorem s16w3 (slots : List Word) : Statement (.s16w3 slots) := codeword (by decide)
theorem s16w4 (slots : List Word) : Statement (.s16w4 slots) := codeword (by decide)
theorem s16w5 (slots : List Word) : Statement (.s16w5 slots) := codeword (by decide)
theorem s16w6 (slots : List Word) : Statement (.s16w6 slots) := codeword (by decide)
theorem s16w7 (slots : List Word) : Statement (.s16w7 slots) := codeword (by decide)
theorem s16w8 (slots : List Word) : Statement (.s16w8 slots) := codeword (by decide)
theorem s16w9 (slots : List Word) : Statement (.s16w9 slots) := codeword (by decide)
theorem s16w10 (slots : List Word) : Statement (.s16w10 slots) := codeword (by decide)
theorem s16w11 (slots : List Word) : Statement (.s16w11 slots) := codeword (by decide)
theorem s16w12 (slots : List Word) : Statement (.s16w12 slots) := codeword (by decide)
theorem s16w13 (slots : List Word) : Statement (.s16w13 slots) := codeword (by decide)
theorem s16w14 (slots : List Word) : Statement (.s16w14 slots) := codeword (by decide)
theorem s16w15 (slots : List Word) : Statement (.s16w15 slots) := codeword (by decide)
theorem pfdh (start : BitVec 10) (cat : BitVec 2) (widx : BitVec 4) : Statement (.pfdh start cat widx) :=
  fun _ => BitVec.and_zero

end Sys2Proof.Laws.RowBits
end

