-- ==== Sys2Proof/Laws/Step.lean ====
section
/-! SUPPORT. What one step of the machine can do, said once. -/

namespace Sys2Proof.Machine

variable {s t : State} {h : HostStep} {rest : List HostStep}

theorem step_nil (hp : s.pending = []) : step s = .next s := by simp [step, State.advance, hp]

theorem step_cons (hp : s.pending = h :: rest) : step s = ({ s with pending := rest } : State).perform h := by
  simp [step, State.advance, hp]

/-- The ways a step that answers a next state ends, one for each kind of host step; a write of `CMD` has two. -/
theorem step_cases (hp : s.pending = h :: rest) (hs : step s = .next t) :
    (∃ c i, h = .regWrite 0 c ∧ decode .cmdw c = .ok i ∧ exec i { s with pending := rest, cmd := c } = .next t) ∨
    (∃ c e, h = .regWrite 0 c ∧ decode .cmdw c = .error e ∧
      t = ({ s with pending := rest, cmd := c } : State).raise .illegal 0) ∨
    (∃ k v, h = .regWrite (k + 1) v ∧ t = ({ s with pending := rest } : State).writeReg (k + 1) v) ∨
    (∃ idx, h = .regRead idx ∧ t = { s with pending := rest, reply := some (s.readReg idx) }) ∨
    (∃ a v, h = .memWrite a v ∧ a < s.memWords ∧ t = { s with pending := rest, mem := s.mem.write a v }) ∨
    (∃ a, h = .memRead a ∧ a < s.memWords ∧ t = { s with pending := rest, reply := some (s.memWord a) }) ∨
    (h = .reset ∧ t = ({ s with pending := rest } : State).resetEvent) := by
  rw [step_cons hp] at hs
  cases h with
  | regWrite idx v =>
    cases idx with
    | zero =>
      simp only [State.perform, State.hostRegWrite, State.startCommand] at hs
      split at hs
      · next i hi => exact .inl ⟨v, i, rfl, hi, hs⟩
      · next e he => cases hs; exact .inr (.inl ⟨v, e, rfl, he, rfl⟩)
    | succ k => cases hs; exact .inr (.inr (.inl ⟨k, v, rfl, rfl⟩))
  | regRead idx => cases hs; exact .inr (.inr (.inr (.inl ⟨idx, rfl, rfl⟩)))
  | memWrite a v =>
    simp only [State.perform] at hs
    split at hs
    · next hv => cases hs; exact .inr (.inr (.inr (.inr (.inl ⟨a, v, rfl, by simpa [State.valid] using hv, rfl⟩))))
    · cases hs
  | memRead a =>
    simp only [State.perform] at hs
    split at hs
    · next hv =>
      cases hs
      exact .inr (.inr (.inr (.inr (.inr (.inl ⟨a, rfl, by simpa [State.valid] using hv, rfl⟩)))))
    · cases hs
  | reset => cases hs; exact .inr (.inr (.inr (.inr (.inr (.inr ⟨rfl, rfl⟩)))))

/-- What a write of a register other than `CMD` leaves alone. -/
theorem writeReg_frame (s : State) (k : Nat) (v : Word) :
    (s.writeReg k v).pending = s.pending ∧ (s.writeReg k v).memWords = s.memWords ∧ (s.writeReg k v).mem = s.mem ∧
      (s.writeReg k v).cmd = s.cmd ∧ (s.writeReg k v).result = s.result ∧ (s.writeReg k v).reply = s.reply ∧
      (s.writeReg k v).draws = s.draws ∧ (s.writeReg k v).epoch = s.epoch := by
  unfold State.writeReg; split <;> simp

/-- A run of one step more is a step and then a run. -/
theorem core_run_succ (k : Nat) (s t : State) :
    core.run (k + 1) s = .next t ↔ ∃ u, step s = .next u ∧ core.run k u = .next t := by
  have e : core.run (k + 1) s = _ := Host.Core.run.eq_2 core s k
  rw [e]
  constructor
  · intro h
    split at h
    · next u hu => exact ⟨u, hu, h⟩
    · cases h
    · cases h
  · rintro ⟨u, hu, h⟩
    rw [show core.step s = .next u from hu]
    exact h

/-- What a step does to `SERR`: a reset and a write of `STATUS` with bit 4 set clear it, a command that ends in an error
sets it, and nothing else touches it (10_state.md R29). -/
theorem step_serr (hs : step s = .next t) :
    (s.pending.head? = some .reset ∧ t.serr = false) ∨
    (∃ v, s.pending.head? = some (.regWrite 4 v) ∧ v.getLsbD 4 = true ∧ t.serr = false) ∨
    (¬ CommandFails s ∧ t.serr = s.serr) ∨ (CommandFails s ∧ t.serr = true) := by
  have keeps (hc : ∀ c rest, s.pending ≠ .regWrite 0 c :: rest) (h : t.serr = s.serr) :
      ¬ CommandFails s ∧ t.serr = s.serr := ⟨fun ⟨c, rest, _, hp, _⟩ => hc c rest hp, h⟩
  cases hp : s.pending with
  | nil =>
    rw [step_nil hp] at hs
    cases hs
    exact .inr (.inr (.inl (keeps (by simp [hp]) rfl)))
  | cons h rest =>
    rcases step_cases hp hs with ⟨c, i, rfl, hd, he⟩ | ⟨c, e, rfl, hd, rfl⟩ | ⟨k, v, rfl, rfl⟩ | ⟨idx, rfl, rfl⟩ |
      ⟨a, v, rfl, ha, rfl⟩ | ⟨a, rfl, ha, rfl⟩ | ⟨rfl, rfl⟩
    · have h1 : t.serr = (s.serr || t.err != 0) := (exec_ends he).serr
      by_cases hz : t.err = 0
      · refine .inr (.inr (.inl ⟨?_, by rw [h1, hz]; simp⟩))
        rintro ⟨c', rest', t', -, ht', he'⟩
        rw [hs] at ht'
        cases ht'
        exact he' hz
      · exact .inr (.inr (.inr ⟨⟨c, rest, t, hp, hs, hz⟩, by rw [h1, bne_iff_ne.2 hz, Bool.or_true]⟩))
    · exact .inr (.inr (.inr ⟨⟨c, rest, _, hp, hs, by simp; decide⟩, by simp⟩))
    · match k, hp with
      | 0, hp | 1, hp | 2, hp | k + 4, hp => exact .inr (.inr (.inl (keeps (by simp [hp]) rfl)))
      | 3, hp =>
        by_cases hv : v.getLsbD 4 = true
        · refine .inr (.inl ⟨v, rfl, hv, ?_⟩)
          simp only [State.serr, State.writeReg, statusHostWrite, if_pos hv, statusSerr_statusOf]
        · refine .inr (.inr (.inl (keeps (by simp [hp]) ?_)))
          simp only [State.serr, State.writeReg, statusHostWrite, if_neg hv]
    · exact .inr (.inr (.inl (keeps (by simp [hp]) rfl)))
    · exact .inr (.inr (.inl (keeps (by simp [hp]) rfl)))
    · exact .inr (.inr (.inl (keeps (by simp [hp]) rfl)))
    · exact .inl ⟨rfl, by simp [State.serr, State.resetEvent, State.resetWith, statusSerr]⟩

end Sys2Proof.Machine
end

