-- ==== Sys2Proof/Tests/Slice0.lean ====
section
/-! SUPPORT. The model's own tests: ill-formed terms, words written out from the spec's encodings, the spec's vectors,
and for each obligation with hypotheses a state and operands that meet them. -/

namespace Sys2Proof.Tests

open Sys2Proof Machine

/-! ### Helpers -/

def words (l : List Nat) : List Word := l.map (BitVec.ofNat 32)

/-- The state after reset with the words `ws` at address `a` and the three operand registers set. -/
def st (a : Nat) (ws : List Word) (src dst count : Word) : State :=
  { State.reset with mem := Memory.writeList [] a ws, src := src, dst := dst, count := count }

/-- What `exec` leaves in `STATUS`, `RESULT` and the `n` words from `base` on; `none` for a word never written. -/
def seen (i : Instr) (s : State) (base n : Nat) : Option (Word × Word × List (Option Word)) :=
  match exec i s with
  | .next t => some (t.status, t.result, (List.range n).map fun j => t.mem.lookup (base + j))
  | _ => none

/-- The same after one step. -/
def stepSeen (s : State) (base n : Nat) : Option (Word × Word × List (Option Word)) :=
  match step s with
  | .next t => some (t.status, t.result, (List.range n).map fun j => t.mem.lookup (base + j))
  | _ => none

/-- Whether `exec` answers a next state with the property. -/
def endsIn (i : Instr) (s : State) (p : State → Bool) : Bool :=
  match exec i s with
  | .next t => p t
  | _ => false

theorem endsIn_spec {i : Instr} {s : State} {p : State → Bool} (h : endsIn i s p = true) :
    ∃ t, exec i s = .next t ∧ p t = true := by
  unfold endsIn at h
  split at h
  · next t ht => exact ⟨t, ht, h⟩
  · cases h

def known (l : List Nat) : List (Option Word) := (words l).map some

/-! ### Ill-formed terms are refused -/

theorem test_wf_pack : wellFormed (.pack 33) = false ∧ wellFormed (.pack 32) = true := by decide
theorem test_wf_unpack : wellFormed (.unpack 63) = false ∧ wellFormed (.unpack 0) = true := by decide
theorem test_wf_codeword_slot_missing : wellFormed (.s16w14 [1]) = false := by decide
theorem test_wf_codeword_slot_too_many : wellFormed (.s16w15 [1, 2]) = false := by decide
theorem test_wf_codeword_slot_too_large : wellFormed (.s16w13 [1023, 512, 511]) = false := by decide
/-- A codeword of every layout with no slots, and with a slot of 2^28. -/
theorem test_wf_codewords :
    ∀ k < 16, wellFormed (s16Instr k []) = false ∧
      wellFormed (s16Instr k (List.replicate (s16Slots k) 0x10000000)) = false ∧
      wellFormed (s16Instr k (List.replicate (s16Slots k) 0)) = true := by decide
theorem test_wf_header_category : wellFormed (.pfdh 128 3 0) = false := by decide
theorem test_wf_header_width : wellFormed (.pfdh 128 0 15) = false := by decide
theorem test_wf_header : wellFormed (.pfdh 1023 2 14) = true := by decide

/-! ### Words written out from 30_encoding.md -/

theorem test_decode_pack : decode .cmdw 0b0000000000000000000000_000101_0001 = .ok (.pack 5) := by decide
theorem test_decode_unpack : decode .cmdw 0b0000000000000000000000_100000_0010 = .ok (.unpack 32) := by decide
theorem test_decode_s16enc : decode .cmdw 0b0000000000000000000000_000000_0011 = .ok .s16enc := by decide
theorem test_decode_s16dec : decode .cmdw 0b0000000000000000000000_000000_0100 = .ok .s16dec := by decide
theorem test_decode_pfdenc : decode .cmdw 0b0000000000000000000000_000000_0101 = .ok .pfdenc := by decide
theorem test_decode_pfddec : decode .cmdw 0b0000000000000000000000_000000_0110 = .ok .pfddec := by decide
theorem test_decode_s16w0 : decode .s16w 0b0000_1_0_1_1_0_0_0_0_0_0_0_0_0_0_0_0_0_0_0_0_0_0_0_0_0_0_0_1 =
    .ok (.s16w0 (words [1, 0, 1, 1, 0, 0, 0, 0, 0, 0, 0, 0, 0, 0, 0, 0, 0, 0, 0, 0, 0, 0, 0, 0, 0, 0, 0, 1])) := by decide
theorem test_decode_s16w1 : decode .s16w 0b0001_11_00_10_01_00_00_11_1_0_0_0_0_0_0_0_0_0_0_0_0_1 =
    .ok (.s16w1 (words [3, 0, 2, 1, 0, 0, 3, 1, 0, 0, 0, 0, 0, 0, 0, 0, 0, 0, 0, 0, 1])) := by decide
theorem test_decode_s16w2 : decode .s16w 0b0010_1_0_0_0_0_0_1_10_01_00_00_00_00_11_1_0_0_0_0_0_1 =
    .ok (.s16w2 (words [1, 0, 0, 0, 0, 0, 1, 2, 1, 0, 0, 0, 0, 3, 1, 0, 0, 0, 0, 0, 1])) := by decide
theorem test_decode_s16w3 : decode .s16w 0b0011_1_0_0_0_0_0_0_0_0_0_0_0_0_1_10_01_00_00_00_00_11 =
    .ok (.s16w3 (words [1, 0, 0, 0, 0, 0, 0, 0, 0, 0, 0, 0, 0, 1, 2, 1, 0, 0, 0, 0, 3])) := by decide
theorem test_decode_s16w4 : decode .s16w 0b0100_11_10_01_00_00_00_00_00_00_00_00_00_01_10 =
    .ok (.s16w4 (words [3, 2, 1, 0, 0, 0, 0, 0, 0, 0, 0, 0, 1, 2])) := by decide
theorem test_decode_s16w5 : decode .s16w 0b0101_1000_001_010_011_100_101_110_111_100 =
    .ok (.s16w5 (words [8, 1, 2, 3, 4, 5, 6, 7, 4])) := by decide
theorem test_decode_s16w6 : decode .s16w 0b0110_100_1000_0001_0010_1111_101_110_011 =
    .ok (.s16w6 (words [4, 8, 1, 2, 15, 5, 6, 3])) := by decide
theorem test_decode_s16w7 : decode .s16w 0b0111_0001_0010_0011_0100_0101_0110_1111 =
    .ok (.s16w7 (words [1, 2, 3, 4, 5, 6, 15])) := by decide
theorem test_decode_s16w8 : decode .s16w 0b1000_10000_00001_00010_11111_1000_0111 =
    .ok (.s16w8 (words [16, 1, 2, 31, 8, 7])) := by decide
theorem test_decode_s16w9 : decode .s16w 0b1001_1000_0111_10000_00001_00010_11111 =
    .ok (.s16w9 (words [8, 7, 16, 1, 2, 31])) := by decide
theorem test_decode_s16w10 : decode .s16w 0b1010_100000_000001_111111_10000_00011 =
    .ok (.s16w10 (words [32, 1, 63, 16, 3])) := by decide
theorem test_decode_s16w11 : decode .s16w 0b1011_10000_00011_100000_000001_111111 =
    .ok (.s16w11 (words [16, 3, 32, 1, 63])) := by decide
theorem test_decode_s16w12 : decode .s16w 0b1100_1000000_0000001_1111111_0000010 =
    .ok (.s16w12 (words [64, 1, 127, 2])) := by decide
/-- 95_test_vectors.md 2.4: `0xDEADBEEF`. -/
theorem test_decode_s16w13 : decode .s16w 0b1101_1110101011_011011111_011101111 =
    .ok (.s16w13 (words [939, 223, 239])) := by decide
theorem test_decode_s16w14 : decode .s16w 0b1110_10000000000000_00000000000001 =
    .ok (.s16w14 (words [8192, 1])) := by decide
theorem test_decode_s16w15 : decode .s16w 0b1111_1000000000000000000000000001 =
    .ok (.s16w15 (words [0x8000001])) := by decide
/-- 95_test_vectors.md S4: `0x0000280A`; the bits [31:16] are ignored (R90). -/
theorem test_decode_pfdh : decode .pfdh 0b1010101111001101_0010_10_0000001010 = .ok (.pfdh 10 2 2) := by decide

/-- 60_exceptions.md R245 and 30_encoding.md R84, R94: each rejection, at the first word past the legal ones. -/
theorem test_reject :
    decode .cmdw 0x000 = .error .cmdOp ∧ decode .cmdw 0x007 = .error .cmdOp ∧
    decode .cmdw 0x211 = .error .cmdBits ∧ decode .cmdw 0x212 = .error .cmdBits ∧
    decode .cmdw 0x015 = .error .cmdBitsNotZero ∧ decode .cmdw 0x406 = .error .cmdReserved ∧
    decode .pfdh 0x0000F080 = .error .headerReserved ∧ decode .pfdh 0x00000C80 = .error .headerReserved := by decide

/-- What the host's table words decode to (log 10). -/
theorem test_decodeTableWord :
    decodeTableWord 32 0x051 = some (.pack 5) ∧ decodeTableWord 32 0x005 = some .pfdenc ∧
    decodeTableWord 32 0xE0004001 = some (.s16w14 [1, 1]) ∧
    decodeTableWord 32 0 = some (.s16w0 (List.replicate 28 0)) ∧ decodeTableWord 16 1 = none := by decide +kernel

/-! ### The vectors of 95_test_vectors.md, one instruction each -/

/-- P1. -/
theorem test_pack : seen (.pack 5) (st 0x100 (words (List.range 32)) 0x100 0x200 0) 0x200 6 =
    some (0x00, 5, known [0x00443214, 0xC74254B6, 0x35CF8465, 0x3A56D7C6, 0x75BE77DF] ++ [none]) := by decide +kernel
/-- 2.8: the input meets the first output word. -/
theorem test_pack_overlap : seen (.pack 5) (st 0x100 [] 0x100 0x11F 0) 0x11F 1 = some (0x13, 0, [none]) := by
  decide +kernel
/-- 2.2, width 3. -/
theorem test_unpack :
    seen (.unpack 3) (st 0x100 (words [0x12345678, 0x9ABCDEF0, 0x0F1E2D3C]) 0x100 0x200 0) 0x200 33 =
      some (0x00, 3, known [0, 4, 4, 3, 2, 1, 2, 6, 3, 6, 1, 1, 5, 2, 7, 4, 6, 7, 5, 7, 0, 0, 1, 7, 0, 7, 4, 2, 6, 4, 7, 4]
        ++ [none]) := by decide +kernel
/-- 2.8: width 0 has no input word, so `SRC` is not checked. -/
theorem test_unpack_zero : seen (.unpack 0) (st 0x100 [] 0xFFFFFFFF 0x200 0) 0x200 32 =
    some (0x00, 0, known (List.replicate 32 0)) := by decide +kernel
/-- P2; the nine reserved words after the two codewords are free. -/
theorem test_s16enc : seen .s16enc (st 0x100 (words [100, 200, 300, 5, 6, 7, 1, 0, 1, 0, 1]) 0x100 0x200 11) 0x200 2 =
    some (0x00, 2, known [0xD191912C, 0x55DC8208]) := by decide +kernel
/-- S8. -/
theorem test_s16enc_range : seen .s16enc (st 0x100 (words [1, 1, 0x10000000]) 0x100 0x200 3) 0x200 1 =
    some (0x14, 1, known [0xE0004001]) := by decide +kernel
/-- 2.4. -/
theorem test_s16dec : seen .s16dec (st 0x100 (words [0x12345678, 0x9ABCDEF0]) 0x100 0x200 25) 0x200 26 =
    some (0x00, 2, known [0, 2, 0, 3, 1, 0, 1, 0, 1, 0, 1, 1, 0, 0, 1, 1, 1, 1, 0, 0, 0, 10, 11, 25, 23] ++ [none]) := by
  decide +kernel
/-- 2.8: a third word would be needed at `0x1000`. -/
theorem test_s16dec_bounds : seen .s16dec (st 0xFFE [0, 0] 0xFFE 0x200 57) 0x200 1 = some (0x12, 0, [none]) := by
  decide +kernel

def ones200 : List Word := (List.replicate 128 1).set 5 200

/-- 2.5, "all 3, `blk[127] = 4`". -/
theorem test_pfdenc : seen .pfdenc (st 0x100 ((List.replicate 128 3).set 127 4) 0x100 0x200 0) 0x200 10 =
    some (0x00, 10, known ([0x0000007F] ++ List.replicate 8 0xFFFFFFFF ++ [0x04000000])) := by decide +kernel
/-- 2.8: 129 words are reserved. -/
theorem test_pfdenc_bounds : seen .pfdenc (st 0x100 [] 0x100 0xF80 0) 0xF80 1 = some (0x12, 0, [none]) := by
  decide +kernel
/-- 2.7: stored values all 1, so the walk visits every second position. -/
theorem test_pfddec : seen .pfddec
    (st 0x100 (words ([0] ++ List.replicate 8 0x55555555 ++ List.replicate 16 0x01020304)) 0x100 0x200 0) 0x200 9 =
      some (0x00, 25, known [1, 1, 2, 1, 3, 1, 4, 1, 1]) := by decide +kernel
/-- 2.8: the header check comes before the overlap check. -/
theorem test_pfddec_header : seen .pfddec (st 0x100 (words [0x0000F080]) 0x100 0x100 0) 0x101 1 =
    some (0x15, 0, [none]) := by decide +kernel
/-- 2.4, the word `0x1C900000` as a codeword of its own (log 9). -/
theorem test_s16w1 :
    seen (.s16w1 (words [3, 0, 2, 1, 0, 0, 0, 0, 0, 0, 0, 0, 0, 0, 0, 0, 0, 0, 0, 0, 0])) (st 0x100 [] 0x100 0x0FC 4)
      0x0FC 5 = some (0x00, 1, known [3, 0, 2, 1] ++ [none]) := by decide +kernel
/-- 2.3, boundary of every layout: the largest Value in each slot, as a codeword of its own (log 9). -/
theorem test_codewords : ∀ k < 16,
    seen (s16Instr k ((s16Layout k).map fun w => BitVec.ofNat 32 (2 ^ w - 1)))
      (st 0x100 [] 0x100 0x200 (BitVec.ofNat 32 (s16Slots k))) 0x200 (s16Slots k) =
        some (0x00, 1, (s16Layout k).map fun w => some (BitVec.ofNat 32 (2 ^ w - 1))) := by decide +kernel
/-- 2.7, the header `0x0000008F` as a header of its own (log 9). -/
theorem test_pfdh : seen (.pfdh 143 0 0) (st 0x101 (List.replicate 8 0x1B1B1B1B) 0x100 0x200 0) 0x200 129 =
    some (0x00, 9, known ((List.range 128).map (· % 4)) ++ [none]) := by decide +kernel

/-! ### Host steps and placed words -/

/-- 2.8: the last four rows. -/
theorem test_status_and_result_writes :
    let s : State := { State.reset with status := 0x11, result := 3 }
    stepSeen { s with pending := [.regWrite 4 0xFFFFFFEF] } 0 0 = some (0x11, 3, []) ∧
    stepSeen { s with pending := [.regWrite 4 0x10] } 0 0 = some (0x01, 3, []) ∧
    stepSeen { s with pending := [.regWrite 5 77] } 0 0 = some (0x11, 3, []) ∧
    stepSeen { s with pending := [.regWrite 0 0x001] } 0 0 = some (0x10, 0, []) := by decide +kernel

/-- A placed command and a placed codeword run in the very next step after reset. -/
theorem test_placed_words :
    stepSeen (State.reset.withFetchWord 32 0x012) 0 0 = some (0x13, 0, []) ∧
    stepSeen (State.reset.withFetchWord 32 0xE0004001) 0 3 = some (0x00, 1, known [0xE0004001, 1, 1]) := by
  decide +kernel

/-! ### Witnesses: states and operands that meet the hypotheses of the obligations -/

/-- A state with `SERR` set and host steps waiting. -/
def busy (steps : List HostStep) : State := { st 0x100 (words (List.range 32)) 0x100 0x200 0 with
  status := 0x14, pending := steps }

theorem test_witness_reset : (busy [.reset]).pending = .reset :: [] := rfl
theorem test_witness_wellFormed :
    wellFormed (.pack 0) = true ∧ wellFormed (.pack 32) = true ∧ wellFormed (.pfdh 1023 2 14) = true ∧
    wellFormed (.s16w15 [0xFFFFFFF]) = true ∧ decode .cmdw 0x201 = .ok (.pack 32) ∧
    decode .pfdh 0xFFFFEBFF = .ok (.pfdh 1023 2 14) ∧ decode .s16w 0xFFFFFFFF = .ok (.s16w15 [0xFFFFFFF]) := by decide
theorem test_witness_illegal : (busy [.regWrite 0 0x211]).pending = .regWrite 0 0x211 :: [] ∧
    decode .cmdw 0x211 = .error .cmdBits := by decide
theorem test_witness_slots : (15 : Nat) < 16 ∧ 0 < s16Slots 15 ∧ s16Sel 0xF0000001 = 15 ∧
    27 < s16Slots 0 ∧ s16Sel 0x00000001 = 0 := by decide
theorem test_witness_command : (busy [.regWrite 0 0x051]).pending = .regWrite 0 0x051 :: [] ∧
    decode .cmdw 0x051 = .ok (.pack 5) ∧ (busy [.regRead 0]).pending = .regRead 0 :: [] := by decide
theorem test_witness_stream : (st 0x100 (words [0x1C900000]) 0x100 0x200 4).readIn 0 = some 0x1C900000 ∧
    (st 0xFFF (words [0x0000280A]) 0xFFF 0x200 0).readIn 0 = some 0x0000280A ∧
    decode .pfdh 0x0000280A = .ok (.pfdh 10 2 2) := by decide
theorem test_witness_placed : (0xFFFFFFFF : Nat) < 2 ^ 32 ∧ decodeTableWord 32 0xFFFFFFFF = some (.s16w15 [0xFFFFFFF]) ∧
    formatOf (.s16w15 [0xFFFFFFF]) = .s16w ∧ State.reset.src.toNat < State.reset.memWords ∧
    decodeTableWord 32 0x006 = some .pfddec ∧ formatOf .pfddec = .cmdw := by decide +kernel
/-- The host's register accesses, at every index, with a legal and an illegal command word. -/
theorem test_witness_registers :
    (∀ idx v rest, (busy (.regWrite idx v :: rest)).pending = .regWrite idx v :: rest ∧
      (busy (.regRead idx :: rest)).pending = .regRead idx :: rest) ∧
    decode .cmdw 0x001 = .ok (.pack 0) ∧ decode .cmdw 0x000 = .error .cmdOp :=
  ⟨fun _ _ _ => ⟨rfl, rfl⟩, by decide, by decide⟩
theorem test_witness_status_clean : StatusClean (busy []) := by unfold StatusClean; decide
/-- Memory accesses at the last valid address and at the first that is not. -/
theorem test_witness_memory :
    (busy [.memWrite 4095 7]).pending = .memWrite 4095 7 :: [] ∧ 4095 < (busy []).memWords ∧
    (busy [.memRead 4095]).pending = .memRead 4095 :: [] ∧
    (busy [.memWrite 4096 7]).pending = .memWrite 4096 7 :: [] ∧ (busy []).memWords ≤ 4096 ∧
    (busy [.memRead 4096]).pending = .memRead 4096 :: [] :=
  ⟨rfl, by decide, rfl, rfl, by decide, rfl⟩
theorem test_witness_steps : (busy []).pending = [] ∧ ∃ t, step (busy [.regWrite 1 5, .reset]) = .next t := ⟨rfl, _, rfl⟩
/-- `SERR` is cleared by a reset and by a write of `STATUS`. -/
theorem test_witness_serr :
    (∃ t, step (busy [.reset]) = .next t ∧ (busy [.reset]).serr = true ∧ t.serr = false) ∧
    (∃ t, step (busy [.regWrite 4 0x10]) = .next t ∧ (busy [.regWrite 4 0x10]).serr = true ∧ t.serr = false) :=
  ⟨⟨_, rfl, by decide, by decide⟩, ⟨_, rfl, by decide, by decide⟩⟩
/-- The same with `SERR` clear. -/
def quiet (steps : List HostStep) : State := { busy steps with status := 0 }

theorem neverCleared_reads (k : Nat) (s : State) (h : ∀ x ∈ s.pending, x = .regWrite 0 0x007 ∨ x = .regRead 4) :
    NeverCleared k s := by
  intro x hx
  rcases h x (List.mem_of_mem_take hx) with rfl | rfl <;> simp

/-- A run with `SERR` set from the start, and one that goes wrong in its first step, neither ever cleared. -/
theorem test_witness_wrong_run :
    (NeverCleared 2 (busy [.regWrite 0 0x007, .regRead 4]) ∧ (busy [.regWrite 0 0x007, .regRead 4]).serr = true ∧
      ∃ t, core.run 2 (busy [.regWrite 0 0x007, .regRead 4]) = .next t) ∧
    (NeverCleared 2 (quiet [.regWrite 0 0x007, .regRead 4]) ∧ (quiet [.regWrite 0 0x007, .regRead 4]).serr = false ∧
      WentWrong 1 (quiet [.regWrite 0 0x007, .regRead 4]) ∧
      ∃ t, core.run 2 (quiet [.regWrite 0 0x007, .regRead 4]) = .next t ∧ t.serr = true) :=
  ⟨⟨neverCleared_reads _ _ (by simp [busy]), by decide, _, rfl⟩,
    neverCleared_reads _ _ (by simp [quiet, busy]), by decide,
    ⟨0, by decide, _, rfl, _, _, _, rfl, rfl, by decide⟩, _, rfl, by decide⟩

/-- P4: a command ends in an error and the host clears `SERR` after it. The run has gone wrong and is not clean. -/
theorem test_cleared_run_went_wrong :
    WentWrong 2 (quiet [.regWrite 0 0x007, .regWrite 4 0x10]) ∧
    (∃ t, core.run 2 (quiet [.regWrite 0 0x007, .regWrite 4 0x10]) = .next t ∧ t.serr = false) ∧
    ∀ t, ¬ CleanRun 2 (quiet [.regWrite 0 0x007, .regWrite 4 0x10]) t := by
  have h : WentWrong 2 (quiet [.regWrite 0 0x007, .regWrite 4 0x10]) :=
    ⟨0, by decide, _, rfl, _, _, _, rfl, rfl, by decide⟩
  exact ⟨h, ⟨_, rfl, by decide⟩, fun t ht => ht.2.2.2 h⟩

theorem test_witness_frame :
    (∃ t, (busy [.regWrite 0 0x051]).pending = .regWrite 0 0x051 :: [] ∧
      step (busy [.regWrite 0 0x051]) = .next t ∧ decode .cmdw 0x051 = .ok (.pack 5)) ∧
    (∃ t, (busy [.regWrite 0 0x406]).pending = .regWrite 0 0x406 :: [] ∧
      step (busy [.regWrite 0 0x406]) = .next t ∧ decode .cmdw 0x406 = .error .cmdReserved) ∧
    (∃ t, exec (.pack 5) (busy []) = .next t) := ⟨⟨_, rfl, rfl, by decide⟩, ⟨_, rfl, rfl, by decide⟩, _, rfl⟩
/-- Each of the five error codes. -/
theorem test_witness_errors :
    (∃ t, exec (.pack 33) (st 0 [] 0 0x200 0) = .next t ∧ (t.err == 1) = true) ∧
    (∃ t, exec .pfdenc (st 0 [] 0 0xF80 0) = .next t ∧ (t.err == 2) = true) ∧
    (∃ t, exec (.unpack 1) (st 0 [] 0 0 0) = .next t ∧ (t.err == 3) = true) ∧
    (∃ t, exec .s16enc (st 0 [0x10000000] 0 0x200 1) = .next t ∧ (t.err == 4) = true) ∧
    (∃ t, exec .pfddec (st 0 [0x0000F080] 0 0x200 0) = .next t ∧ (t.err == 5) = true) ∧
    (∃ t, exec (.pfdh 0 3 0) (st 0 [] 0 0x200 0) = .next t ∧ (t.err == 5) = true) :=
  ⟨endsIn_spec (by decide +kernel), endsIn_spec (by decide +kernel), endsIn_spec (by decide +kernel),
    endsIn_spec (by decide +kernel), endsIn_spec (by decide +kernel), endsIn_spec (by decide +kernel)⟩

/-- The state with one more word known, outside every range of the tests. -/
def elsewhere (s : State) : State := { s with mem := s.mem.write 0x900 7 }

theorem sameShell_elsewhere (s : State) : SameShell s (elsewhere s) := ⟨rfl, rfl, rfl, rfl, rfl, rfl, rfl, rfl⟩

/-- A state on which all four operations with a fixed input range run. -/
def fixedState : State := st 0x100 ones200 0x100 0x200 3

/-- Two states that agree on the input range of each of the four operations and differ elsewhere, and that all run. -/
theorem test_witness_fixed_input :
    SameShell fixedState (elsewhere fixedState) ∧ (elsewhere fixedState).status = fixedState.status ∧
    (elsewhere fixedState).mem ≠ fixedState.mem ∧
    (∀ i ∈ [Instr.pack 5, .unpack 32, .s16enc, .pfdenc],
      (∀ j < inLen i fixedState, inStream (elsewhere fixedState) j = inStream fixedState j) ∧
      endsIn i fixedState (fun t => t.err == 0) = true ∧ endsIn i (elsewhere fixedState) (fun t => t.err == 0) = true) :=
  ⟨sameShell_elsewhere _, rfl, by decide +kernel, by decide +kernel⟩

def s16decState : State := st 0x100 (words [0x1C900000]) 0x100 0x200 4
def pfddecState : State := st 0x100 (words (List.replicate 41 0)) 0x100 0x200 0

/-- Two states that agree on what the decoders consume and differ elsewhere; the decoders complete. -/
theorem test_witness_decoders :
    (SameShell s16decState (elsewhere s16decState) ∧ (elsewhere s16decState).mem ≠ s16decState.mem ∧
      endsIn .s16dec s16decState (fun t => t.err == 0 && t.result == 1) = true ∧
      ∀ j < 1, inStream (elsewhere s16decState) j = inStream s16decState j) ∧
    (SameShell pfddecState (elsewhere pfddecState) ∧ (elsewhere pfddecState).mem ≠ pfddecState.mem ∧
      endsIn .pfddec pfddecState (fun t => t.err == 0 && t.result == 41) = true ∧
      ∀ j < 41, inStream (elsewhere pfddecState) j = inStream pfddecState j) :=
  ⟨⟨sameShell_elsewhere _, by decide +kernel, by decide +kernel, by decide +kernel⟩,
    ⟨sameShell_elsewhere _, by decide +kernel, by decide +kernel, by decide +kernel⟩⟩

theorem inMemory_iff (s : State) (base len : Nat) : InMemory s base len ↔ len = 0 ∨ base + len ≤ s.memWords := by
  simp [InMemory, ← rangeValid_iff, rangeValid]

theorem meet_iff (a la b lb : Nat) : Meet a la b lb ↔ ((0 < la ∧ 0 < lb) ∧ a < b + lb) ∧ b < a + la := by
  simp [← rangesMeet_iff, rangesMeet]

/-- The checks' clauses at the edge of memory and of the other range, for lengths `li` and `lo` in a memory of 4096
words: output one word too far, input one word too far, both fitting and sharing one word, both fitting and only
touching. -/
def Edges (s : State) (li lo : Nat) : Prop :=
  ¬ InMemory s (4097 - lo) lo ∧ (InMemory s (4096 - lo) lo ∧ ¬ InMemory s (4097 - li) li) ∧
  (InMemory s (256 + li - 1) lo ∧ InMemory s 256 li ∧ Meet 256 li (256 + li - 1) lo) ∧
  (InMemory s (256 + li) lo ∧ InMemory s 256 li ∧ ¬ Meet 256 li (256 + li) lo)

theorem edges {li lo : Nat} (h1 : 1 ≤ li) (h2 : 1 ≤ lo) (h3 : li ≤ 1000) (h4 : lo ≤ 1000) : Edges State.reset li lo := by
  have em : State.reset.memWords = 4096 := rfl
  simp only [Edges, inMemory_iff, meet_iff, em]
  omega

/-- The clauses of the run of `PACK` and `UNPACK`: an illegal width, the widths 0, 1 and 32, and the checks. -/
theorem test_witness_packer : 32 < (33 : BitVec 6).toNat ∧ (0 : BitVec 6).toNat ≤ 32 ∧ (32 : BitVec 6).toNat ≤ 32 :=
  by decide
theorem test_witness_pack : Edges State.reset 32 5 := edges (by decide) (by decide) (by decide) (by decide)
theorem test_witness_unpack : Edges State.reset 5 32 := edges (by decide) (by decide) (by decide) (by decide)
theorem test_witness_pfdenc : Edges State.reset 128 129 := edges (by decide) (by decide) (by decide) (by decide)

/-- The clauses of the run of `S16ENC` with `COUNT = 3`: output and input out of bounds, meeting, touching, and both
ways the encoder ends. -/
theorem test_witness_s16enc :
    ¬ InMemory (st 0 [] 0x100 0xFFE 3) 0xFFE 3 ∧
    (InMemory (st 0 [] 0xFFE 0x100 3) 0x100 3 ∧ ¬ InMemory (st 0 [] 0xFFE 0x100 3) 0xFFE 3) ∧
    (InMemory (st 0 [] 0x100 0x102 3) 0x102 3 ∧ InMemory (st 0 [] 0x100 0x102 3) 0x100 3 ∧ Meet 0x100 3 0x102 3) ∧
    ¬ Meet 0x100 3 0x103 3 ∧
    (s16Encode (words [1, 1, 0x0FFFFFFF])).ok = true ∧ (s16Encode (words [1, 1, 0x10000000])).ok = false ∧
    (∃ j < 3, 2 ^ 28 ≤ (inStream (st 0x100 (words [1, 1, 0x10000000]) 0x100 0x200 3) j).toNat) :=
  by
    simp only [inMemory_iff, meet_iff]
    decide +kernel

/-- The clauses of the run of `S16DEC` (95_test_vectors.md 2.8): 57 Values need a third codeword past the end of
memory and 56 do not; four Values at `0x0FD` meet the codeword at `0x100` and at `0x0FC` they do not; an output past
the end of memory. -/
theorem test_witness_s16dec :
    ¬ InMemory (st 0 [] 0x100 0xFFE 3) 0xFFE 3 ∧
    (s16Decode (st 0xFFE [0, 0] 0xFFE 0x200 57).inSlots 57 = none ∧
      InMemory (st 0xFFE [0, 0] 0xFFE 0x200 57) 0x200 57 ∧ ¬ InMemory (st 0xFFE [0, 0] 0xFFE 0x200 57) 0xFFE 3) ∧
    ((s16Decode (st 0xFFE [0, 0] 0xFFE 0x200 56).inSlots 56).map Prod.snd = some 2 ∧
      InMemory (st 0xFFE [0, 0] 0xFFE 0x200 56) 0x200 56 ∧ InMemory (st 0xFFE [0, 0] 0xFFE 0x200 56) 0xFFE 2 ∧
      ¬ Meet 0xFFE 2 0x200 56) ∧
    ((s16Decode s16decState.inSlots 4).map Prod.snd = some 1 ∧ InMemory s16decState 0x0FD 4 ∧
      InMemory s16decState 0x100 1 ∧ Meet 0x100 1 0x0FD 4) ∧ ¬ Meet 0x100 1 0x0FC 4 := by
  simp only [inMemory_iff, meet_iff]
  decide +kernel

/-- The clauses of the run of `PFDDEC` (95_test_vectors.md 2.7, 2.8): output, header, reserved fields, main array past
the end of memory, meeting the output, and none of them. -/
theorem test_witness_pfddec :
    ¬ InMemory (st 0 [] 0x100 0xF81 0) 0xF81 128 ∧
    (InMemory (st 0 [] 0x1000 0x200 0) 0x200 128 ∧ ¬ InMemory (st 0 [] 0x1000 0x200 0) 0x1000 1) ∧
    (field 0x0000F080 15 12 = 15 ∧ field 0x00000C80 11 10 = 3 ∧ InMemory (st 0 [] 0xFFF 0x200 0) 0xFFF 1) ∧
    (¬ (field 0x00000080 15 12 = 15 ∨ field 0x00000080 11 10 = 3) ∧
      (pfdDecode (fun _ => some 0x00000080) (pfdHeaderOf 0x00000080)).map Prod.snd = some 9 ∧
      ¬ InMemory (st 0 [] 0xFF8 0x200 0) 0xFF8 9 ∧ InMemory (st 0 [] 0xFF7 0x200 0) 0xFF7 9 ∧
      ¬ Meet 0xFF7 9 0x200 128) ∧
    Meet 0x100 9 0x108 128 ∧ ¬ Meet 0x100 9 0x109 128 := by
  simp only [inMemory_iff, meet_iff]
  decide +kernel

theorem test_witness_codewords : (15 : Nat) < 16 ∧ slotsFit 15 (words [0xFFFFFFF]) = true ∧
    slotsFit 0 (List.replicate 28 1) = true := by decide

/-- A state off every run, with memory, that meets the invariant, and its step. -/
theorem test_witness_invariant :
    (∃ t, StateInv (busy [.memWrite 4095 1]) ∧ step (busy [.memWrite 4095 1]) = .next t) ∧
    (1 ≤ 1 ∧ 1 ≤ 2 ^ 32 ∧ 2 ^ 32 ≤ 2 ^ 32) :=
  ⟨⟨_, ⟨by decide, by decide, by decide, by decide, by unfold StatusClean; decide, by decide, by decide⟩, rfl⟩, by decide⟩
theorem test_witness_memories : StateInv (busy []) ∧ StateInv (busy [.reset]) ∧
    ∀ a, (busy []).mem.lookup a = (busy [.reset]).mem.lookup a :=
  ⟨⟨by decide, by decide, by decide, by decide, by unfold StatusClean; decide, by decide, by decide⟩,
    ⟨by decide, by decide, by decide, by decide, by unfold StatusClean; decide, by decide, by decide⟩, fun _ => rfl⟩

/-- The packer at widths 0, 1, 5 and 32: an element inside a word, one that fills it to the end, one across two. -/
theorem test_witness_packer_functions :
    (0 : Nat) ≤ 32 ∧ (words (List.range 32)).length = 32 ∧ ((words (List.range 32)).all fun v => v.toNat < 2 ^ 5) = true ∧
    (words [1, 2, 3, 4, 5]).length = 5 ∧ ([] : List Word).length = 0 ∧ (words (List.range 32)).length = (32 * 32 + 31) / 32 ∧
    elemStart 5 6 ≠ elemEnd 5 6 ∧ elemStart 8 3 = elemEnd 8 3 ∧ elemStart 32 1 = elemEnd 32 1 ∧
    elemStart 1 31 = elemEnd 1 31 ∧ elemStart 31 1 ≠ elemEnd 31 1 ∧
    (∀ p < 3 * 8, streamBit [0x11223300] p = streamBit [0x112233FF] p) := by decide +kernel

/-- The encoder's clauses: no layout fits, the first fits, the last only. -/
theorem test_witness_s16_encoder :
    let fits (vals : List Word) (k : Nat) :=
      ∀ j < min (s16Slots k) vals.length, (vals.getD j 0).toNat < 2 ^ (s16Layout k).getD j 0
    (∀ k < 16, ¬ fits [0x10000000] k) ∧ fits [1, 1] 0 ∧
    (fits [0x0FFFFFFF] 15 ∧ ∀ k' < 15, ¬ fits [0x0FFFFFFF] k') ∧
    (s16Encode [0x0FFFFFFF]).ok = true ∧ (s16Encode [0x10000000]).ok = false := by decide +kernel

/-- 2.5: "all `0xFFFFFFFF`", the block of width 32. -/
def wideBlock : List Word := List.replicate 128 0xFFFFFFFF

theorem wideBlock_exceptions {b : Nat} (hb : b < 32) : 128 ≤ (scan wideBlock b).pos.length := by
  have h := scan_spec b (blk := wideBlock) rfl
  have hall : ∀ i < 128, i ∈ (scan wideBlock b).pos := by
    intro i hi
    refine (h.mem_iff i hi).2 (.inl ?_)
    have h2 : 2 ^ b ≤ 2 ^ 31 := Nat.pow_le_pow_right (by decide) (by omega)
    simp only [wideBlock, List.getD, List.getElem?_replicate, if_pos hi, Option.getD_some]
    exact h2.trans (by decide)
  have := (List.nodup_range.subperm fun i hi => hall i (List.mem_range.1 hi)).length_le
  simpa using this

theorem test_witness_wide_exceptions : ∃ p, p ∈ (scan wideBlock 7).pos ∧ (7 : Nat) ≤ 7 ∧ wideBlock.length = 128 := by
  have h := wideBlock_exceptions (b := 7) (by decide)
  exact ⟨_, List.getElem_mem (show 0 < (scan wideBlock 7).pos.length by omega), le_rfl, rfl⟩

theorem wideBlock_choose : pfdChoose wideBlock = 14 := by
  have h := pfdChoose_le wideBlock
  by_contra hc
  have h1 := pfdChoose_accepts (blk := wideBlock) (by omega)
  have h2 := cand_lt (pfdChoose wideBlock) (by omega)
  rw [length_exc rfl] at h1
  have h3 := wideBlock_exceptions (b := cand (pfdChoose wideBlock)) (by omega)
  simp only [excMax] at h1
  omega

/-- Blocks of every category, one of width 32, one of Values below 4, one with a single outlier at either end. -/
theorem test_witness_blocks :
    (List.replicate 128 (0xFF : Word)).length = 128 ∧ (∀ v ∈ List.replicate 128 (0xFF : Word), v.toNat < 256) ∧
    (∀ v ∈ List.replicate 128 (0xFFFF : Word), v.toNat < 65536) ∧
    (∃ v ∈ List.replicate 128 (0xFFFF : Word), 256 ≤ v.toNat) ∧
    (∃ v ∈ wideBlock, 65536 ≤ v.toNat) ∧ wideBlock.length = 128 ∧ pfdChoose wideBlock = 14 ∧
    (pfdEncode wideBlock).length = 129 ∧ (∀ v ∈ List.replicate 128 (3 : Word), v.toNat < 4) ∧
    ones200.length = 128 ∧ pfdChoose (List.replicate 128 3) < 14 := by
  refine ⟨rfl, by simp, by simp, ⟨0xFFFF, by simp, by decide⟩, ⟨0xFFFFFFFF, by simp [wideBlock], by decide⟩, rfl,
    wideBlock_choose, ?_, by simp, rfl, by decide +kernel⟩
  rw [pfdEncode, wideBlock_choose, pfdEmit, if_pos (by decide)]
  rfl
theorem test_witness_outlier : ∀ p ∈ [0, 127], ∀ b ∈ [0, 6], ∀ j < 128,
    2 ^ b ≤ (((List.replicate 128 (0 : Word)).set p 200).getD j 0).toNat ↔ j = p := by decide +kernel
theorem test_witness_scan :
    (scan ones200 (cand 2)).pos = [5, 21, 37, 53, 69, 85, 101, 117] ∧ (2 : Nat) < 14 := by
  decide +kernel

theorem test_witness_walk : (List.replicate 128 (0 : Word)).length = 128 ∧ (127 : Nat) < 128 ∧ (128 : Nat) ≤ 128 :=
  ⟨rfl, by decide, by decide⟩
theorem test_witness_header : headerReserved (pfdHeaderOf 0x0000E87F).cat (pfdHeaderOf 0x0000E87F).widx = false ∧
    headerReserved (pfdHeaderOf 0x00000080).cat (pfdHeaderOf 0x00000080).widx = false ∧
    128 ≤ (pfdHeaderOf 0x00000080).start.toNat ∧ (pfdHeaderOf 0x0000E87F).start.toNat < 128 := by decide
theorem test_witness_script : (0 : Nat) ≤ 32 ∧ (32 : Nat) ≤ 32 ∧ (busy ScriptLine.clrerr.steps).pending = ScriptLine.clrerr.steps :=
  ⟨by decide, by decide, rfl⟩
/-- A script line with no other step waiting, at the end of memory. -/
theorem test_witness_loaded : (busy []).pending = [] ∧ 4095 + (words [7]).length ≤ (busy []).memWords ∧
    4095 < (busy []).memWords ∧ Reg.status ≠ Reg.cmd := by decide

end Sys2Proof.Tests
end

section
/-! The settled statements of `10_state.md`: reset, the host's register accesses, what a command may change, and the
stickiness of `SERR`. -/

namespace Sys2Proof.Machine

/-! ### `STATUS` after a host write of it (10_state.md R29) -/

/-- The word built from the two fields has its reserved bits 0. -/
theorem field_statusOf_reserved (b : Bool) (e : BitVec 4) : field (statusOf b e) 31 5 = 0 := by
  revert b e; decide

@[simp] theorem statusErr_hostWrite (w v : Word) : statusErr (statusHostWrite w v) = statusErr w := by
  unfold statusHostWrite; split <;> simp

@[simp] theorem statusSerr_hostWrite (w v : Word) :
    statusSerr (statusHostWrite w v) = (statusSerr w && !v.getLsbD 4) := by
  unfold statusHostWrite; cases v.getLsbD 4 <;> simp

theorem field_hostWrite_reserved {w : Word} (v : Word) (hw : field w 31 5 = 0) :
    field (statusHostWrite w v) 31 5 = 0 := by
  unfold statusHostWrite
  split
  · exact field_statusOf_reserved ..
  · exact hw

/-! ### The register indices without an effect (10_state.md R30, R31) -/

theorem writeReg_of_five_le (s : State) {idx : Nat} (v : Word) (h : 5 ≤ idx) : s.writeReg idx v = s := by
  obtain ⟨k, rfl⟩ := Nat.exists_eq_add_of_le' h
  rfl

theorem readReg_of_six_le (s : State) {idx : Nat} (h : 6 ≤ idx) : s.readReg idx = 0 := by
  obtain ⟨k, rfl⟩ := Nat.exists_eq_add_of_le' h
  rfl

/-! ### The step of each register access (10_state.md R25, R39) -/

section
variable {s : State} {rest : List HostStep}

theorem step_command_of_ok {c : Word} {i : Instr} (hp : s.pending = .regWrite 0 c :: rest)
    (hd : decode .cmdw c = .ok i) : step s = exec i { s with cmd := c, pending := rest } := by
  rw [step_cons hp]
  simp only [State.perform, State.hostRegWrite, State.startCommand, hd]

theorem step_command_of_error {c : Word} {e : Reject} (hp : s.pending = .regWrite 0 c :: rest)
    (hd : decode .cmdw c = .error e) :
    step s = .next (({ s with cmd := c, pending := rest } : State).raise .illegal 0) := by
  rw [step_cons hp]
  simp only [State.perform, State.hostRegWrite, State.startCommand, hd]

theorem step_regWrite {idx : Nat} {v : Word} (hp : s.pending = .regWrite idx v :: rest) (h : idx ≠ 0) :
    step s = .next (({ s with pending := rest } : State).writeReg idx v) := by
  obtain ⟨k, rfl⟩ := Nat.exists_eq_succ_of_ne_zero h
  exact step_cons hp

theorem step_regRead {idx : Nat} (hp : s.pending = .regRead idx :: rest) :
    step s = .next { s with pending := rest, reply := some (s.readReg idx) } :=
  step_cons hp

/-- The two ways a write of `CMD` ends. -/
theorem step_command_cases {t : State} {c : Word} (hp : s.pending = .regWrite 0 c :: rest) (hs : step s = .next t) :
    (∃ i, decode .cmdw c = .ok i ∧ exec i { s with cmd := c, pending := rest } = .next t) ∨
    (∃ e, decode .cmdw c = .error e ∧ t = ({ s with cmd := c, pending := rest } : State).raise .illegal 0) := by
  cases hd : decode .cmdw c with
  | ok i => exact .inl ⟨i, rfl, step_command_of_ok hp hd ▸ hs⟩
  | error e =>
    rw [step_command_of_error hp hd] at hs
    cases hs
    exact .inr ⟨e, rfl, rfl⟩

end

/-- Of the state, the length of the reserved output range depends on `COUNT` alone (20_memory.md R56). -/
theorem outLen_eq_of_count_eq (i : Instr) {s t : State} (h : t.count = s.count) : outLen i t = outLen i s := by
  cases i <;> simp only [outLen, h]

/-! ### Reset (10_state.md R38) -/

theorem memWord_of_lookup_eq_none {s : State} {a : Nat} (h : s.mem.lookup a = none) :
    s.memWord a = Config.freeWord s.epoch a := by
  rw [State.memWord, h, Option.getD_none]

/-- The slot widths of each layout (R86) are those of the bit positions R87 writes out. -/
theorem s16Layout_eq_slotBounds : ∀ k < 16,
    s16Layout k = (slotBounds.getD k []).map fun b => b.1 + 1 - b.2 := by decide

theorem stateInv_resetWith {memWords : Nat} (h1 : 1 ≤ memWords) (h2 : memWords ≤ 2 ^ 32) :
    StateInv (State.resetWith memWords) :=
  ⟨Memory.wf_nil, fun _ hc => absurd hc List.not_mem_nil, h1, h2, field_statusOf_reserved false 0, Nat.zero_le 5,
    Nat.zero_lt_one⟩

/-! ### The statements -/

/-- Settles O15: of the ways a step treats `SERR`, only a reset and a write of `STATUS` with bit 4 set leave it clear
when it was set. -/
theorem onlyResetOrStatusWriteClearsSerr : Obligations.OnlyResetOrStatusWriteClearsSerr := by
  intro s t hs hset hclear
  rcases step_serr hs with ⟨hreset, -⟩ | ⟨v, hwrite, hbit, -⟩ | ⟨-, hkept⟩ | ⟨-, hraised⟩
  · exact .inl hreset
  · exact .inr ⟨v, hwrite, hbit⟩
  · rw [hset, hclear] at hkept
    cases hkept
  · rw [hclear] at hraised
    cases hraised

/-- Settles O20: each way a run can end keeps the frame. -/
theorem everyWordKeepsItsFrame : Obligations.EveryWordKeepsItsFrame := fun _ _ _ h =>
  ⟨(exec_ends h).shell, (exec_ends h).statusClean, (exec_ends h).sameOutside⟩

/-- Settles O19: a legal command keeps the frame of the word it runs, from the state with `CMD` written; an illegal one
raises its error there and writes no word of memory. -/
theorem commandChangesOnlyItsFrame : Obligations.CommandChangesOnlyItsFrame := by
  intro s c rest t hp hs
  rcases step_command_cases hp hs with ⟨i, hd, he⟩ | ⟨e, hd, rfl⟩
  · obtain ⟨⟨hmw, hcmd, hsrc, hdst, hcount, hpend, hreply, hepoch⟩, -, hout⟩ := everyWordKeepsItsFrame i _ t he
    refine ⟨hcmd, hsrc, hdst, hcount, hmw, hpend, hreply, hepoch, fun j hj => ?_, fun e he => ?_⟩
    · obtain rfl : i = j := Except.ok.inj (hd.symm.trans hj)
      have hlen : outLen i { s with cmd := c, pending := rest } = outLen i s := outLen_eq_of_count_eq i rfl
      exact hlen ▸ hout
    · rw [hd] at he
      cases he
  · refine ⟨rfl, rfl, rfl, rfl, rfl, rfl, rfl, rfl, fun i hi => ?_, fun _ _ _ => rfl⟩
    rw [hd] at hi
    cases hi

/-- Settles O1: the registers and the memory by the definition of the state after reset, the tables by evaluation, the
idle step because no host step is pending. -/
theorem resetLeavesRegistersZeroAndMemoryUnknown : Obligations.ResetLeavesRegistersZeroAndMemoryUnknown := by
  intro memWords s
  have hmem (a : Nat) : s.mem.lookup a = none := Memory.lookup_nil a
  exact ⟨rfl, rfl, rfl, rfl, rfl, rfl, BitVec.getLsbD_zero, rfl, fun a => ⟨hmem a, memWord_of_lookup_eq_none (hmem a)⟩, by decide,
    fun k hk => ⟨s16Layout_sum k hk, s16Layout_eq_slotBounds k hk⟩, rfl, ⟨rfl, rfl, rfl⟩, step_nil rfl⟩

/-- Settles O8. -/
theorem stepRunsTheCommandWritten : Obligations.StepRunsTheCommandWritten :=
  ⟨fun _ _ _ _ hp hd => step_command_of_ok hp hd, fun _ _ hp => step_regRead hp⟩

/-- Settles O11: one clause for each register, and the indices without one. -/
theorem hostRegisterAccesses : Obligations.HostRegisterAccesses := by
  constructor
  · intro s idx v rest hp
    refine ⟨?cmd, ?src, ?dst, ?count, ?status, ?other⟩
    case cmd =>
      rintro rfl
      exact ⟨fun i hd => step_command_of_ok hp hd, fun e hd => step_command_of_error hp hd⟩
    case src => rintro rfl; exact step_regWrite hp (by decide)
    case dst => rintro rfl; exact step_regWrite hp (by decide)
    case count => rintro rfl; exact step_regWrite hp (by decide)
    case status =>
      rintro rfl
      exact ⟨_, step_regWrite hp (by decide), statusErr_hostWrite .., statusSerr_hostWrite ..,
        field_hostWrite_reserved v, rfl⟩
    case other =>
      intro h
      rw [step_regWrite hp (by omega), writeReg_of_five_le _ v h]
  · intro s idx rest hp
    refine ⟨s.readReg idx, step_regRead hp, ?_, ?_, ?_, ?_, ?_, ?_, readReg_of_six_le s⟩ <;> (rintro rfl; rfl)

/-- Settles O33. -/
theorem resetMeetsTheInvariant : Obligations.ResetMeetsTheInvariant :=
  ⟨fun _ h1 h2 => stateInv_resetWith h1 h2, stateInv_resetWith (by decide) (by decide)⟩

end Sys2Proof.Machine
end

section
/-! The settled statements of `20_memory.md`: the invariant that every step keeps, the order of the host's steps, the
host's memory accesses, placed words, and which words of memory an operation reads. -/

namespace Sys2Proof.Machine

/-! ### The invariant through the end of an operation (20_memory.md R50, R51, 60_exceptions.md R241) -/

theorem OpError.toNat_code_le (e : OpError) : e.code.toNat ≤ 5 := by cases e <;> decide

/-- A write inside the first `n` addresses lists only such addresses if memory did before. -/
theorem Memory.lt_of_mem_write {m : Memory} {a n : Nat} {v : Word} (hm : ∀ c ∈ m, c.1 < n) (ha : a < n) :
    ∀ c ∈ m.write a v, c.1 < n := by
  intro c hc
  rcases Memory.mem_write hc with rfl | hc
  · exact ha
  · exact hm c hc

theorem Memory.lt_of_mem_writeList {m : Memory} {ws : List Word} {base n : Nat} (hm : ∀ c ∈ m, c.1 < n)
    (hr : ∀ j < ws.length, base + j < n) : ∀ c ∈ m.writeList base ws, c.1 < n := by
  intro c hc
  rcases Memory.mem_writeList hc with ⟨h1, h2⟩ | hc
  · have := hr (c.1 - base) (by omega)
    omega
  · exact hm c hc

section
variable {s t : State} {lo : Nat}

/-- However a run ends, `ERR` is one of the codes 0 to 5 (60_exceptions.md R241). -/
theorem Ends.err_le (h : Ends s lo t) : t.err.toNat ≤ 5 := by
  cases h <;> simp [OpError.toNat_code_le]

/-- However a run ends, the invariant holds after it if it did before. -/
theorem Ends.stateInv (h : Ends s lo t) (hs : StateInv s) : StateInv t := by
  obtain ⟨hwf, hlt, hpos, hmax, -, -, hdraw⟩ := hs
  obtain ⟨hmw, -, -, -, -, -, -, hepoch⟩ := h.shell
  have hmem : t.mem.wf = true ∧ ∀ c ∈ t.mem, c.1 < t.memWords := by
    rw [hmw]
    rcases h.mem with hm | ⟨ws, hm, hv, hl⟩
    · rw [hm]
      exact ⟨hwf, hlt⟩
    · rw [hm]
      exact ⟨Memory.wf_writeList ws _ hwf, Memory.lt_of_mem_writeList hlt (hl ▸ (outValid_iff s lo).1 hv)⟩
  exact ⟨hmem.1, hmem.2, hmw ▸ hpos, hmw ▸ hmax, h.statusClean, h.err_le, hepoch ▸ hdraw.trans_le h.draws_le⟩

end

/-- A write of a register other than `CMD` keeps the invariant: of the fields it speaks of, only `STATUS` can change,
and there only `SERR` (10_state.md R29). -/
theorem stateInv_writeReg {s : State} (k : Nat) (v : Word) (hs : StateInv s) : StateInv (s.writeReg k v) := by
  unfold State.writeReg
  split
  case h_4 =>
    obtain ⟨hwf, hlt, hpos, hmax, hclean, herr, hdraw⟩ := hs
    refine ⟨hwf, hlt, hpos, hmax, field_hostWrite_reserved v hclean, ?_, hdraw⟩
    rw [State.err, statusErr_hostWrite]
    exact herr
  all_goals exact hs

/-- A write of the host inside memory keeps the canonical form and the bounds, and touches nothing else. -/
theorem stateInv_memWrite {s : State} {a : Nat} (v : Word) (ha : a < s.memWords) (hs : StateInv s) :
    StateInv { s with mem := s.mem.write a v } := by
  obtain ⟨hwf, hlt, hrest⟩ := hs
  exact ⟨Memory.wf_write a v hwf, Memory.lt_of_mem_write hlt ha, hrest⟩

/-- The reset event forgets memory and takes a draw not taken before. -/
theorem stateInv_resetEvent {s : State} (hs : StateInv s) : StateInv s.resetEvent := by
  obtain ⟨-, -, hpos, hmax, -, -, -⟩ := hs
  exact ⟨Memory.wf_nil, fun _ hc => absurd hc List.not_mem_nil, hpos, hmax, field_statusOf_reserved false 0,
    Nat.zero_le 5, Nat.lt_succ_self s.draws⟩

/-- Settles O34: each kind of step keeps the invariant; a command by the way its run ends. -/
theorem stepKeepsTheInvariant : Obligations.StepKeepsTheInvariant := by
  intro s t hs hstep
  cases hp : s.pending with
  | nil =>
    rw [step_nil hp] at hstep
    cases hstep
    exact hs
  | cons h rest =>
    have htaken : StateInv { s with pending := rest } := hs
    rcases step_cases hp hstep with ⟨c, i, -, -, hrun⟩ | ⟨c, e, -, -, rfl⟩ | ⟨k, v, -, rfl⟩ | ⟨idx, -, rfl⟩ |
      ⟨a, v, -, ha, rfl⟩ | ⟨a, -, -, rfl⟩ | ⟨-, rfl⟩
    · exact (exec_ends hrun).stateInv hs
    · exact (Ends.refused (lo := 0) .illegal (by decide)).stateInv hs
    · exact stateInv_writeReg (k + 1) v htaken
    · exact hs
    · exact stateInv_memWrite v ha htaken
    · exact hs
    · exact stateInv_resetEvent htaken

/-- Settles O35. -/
theorem memoriesInCanonicalFormAreDeterminedByTheirWords :
    Obligations.MemoriesInCanonicalFormAreDeterminedByTheirWords :=
  ⟨fun _ _ ⟨hs, _⟩ ⟨ht, _⟩ h => Memory.ext_of_wf hs ht h, fun m a v b => Memory.lookup_write m a b v⟩

/-! ### The host's steps (20_memory.md R64, R65) -/

/-- Running a word always answers a next state: no operation stops the machine (60_exceptions.md R240). -/
theorem exists_exec_next (i : Instr) (s : State) : ∃ t, exec i s = .next t := by
  cases i <;> exact ⟨_, rfl⟩

section
variable {s : State} {rest : List HostStep} {a : Nat}

theorem step_memWrite_of_lt {v : Word} (hp : s.pending = .memWrite a v :: rest) (ha : a < s.memWords) :
    step s = .next { s with pending := rest, mem := s.mem.write a v } := by
  rw [step_cons hp]
  exact if_pos (decide_eq_true ha)

theorem step_memRead_of_lt (hp : s.pending = .memRead a :: rest) (ha : a < s.memWords) :
    step s = .next { s with pending := rest, reply := some (s.memWord a) } := by
  rw [step_cons hp]
  exact if_pos (decide_eq_true ha)

theorem step_memWrite_of_ge {v : Word} (hp : s.pending = .memWrite a v :: rest) (ha : s.memWords ≤ a) :
    step s = .fault (.hostAddressInvalid a) := by
  rw [step_cons hp]
  exact if_neg (by simpa [State.valid] using ha)

theorem step_memRead_of_ge (hp : s.pending = .memRead a :: rest) (ha : s.memWords ≤ a) :
    step s = .fault (.hostAddressInvalid a) := by
  rw [step_cons hp]
  exact if_neg (by simpa [State.valid] using ha)

/-- Any step but a host access outside memory answers a next state. -/
theorem step_next_or_fault (s : State) : (∃ t, step s = .next t) ∨
    ∃ a, s.memWords ≤ a ∧ step s = .fault (.hostAddressInvalid a) ∧
      (s.pending.head? = some (.memRead a) ∨ ∃ v, s.pending.head? = some (.memWrite a v)) := by
  cases hp : s.pending with
  | nil => exact .inl ⟨s, step_nil hp⟩
  | cons h rest =>
    cases h with
    | regWrite idx v =>
      rcases Nat.eq_zero_or_pos idx with rfl | hidx
      · cases hd : decode .cmdw v with
        | ok i => exact .inl (step_command_of_ok hp hd ▸ exists_exec_next i _)
        | error e => exact .inl ⟨_, step_command_of_error hp hd⟩
      · exact .inl ⟨_, step_regWrite hp hidx.ne'⟩
    | regRead idx => exact .inl ⟨_, step_regRead hp⟩
    | memWrite a v =>
      rcases Nat.lt_or_ge a s.memWords with ha | ha
      · exact .inl ⟨_, step_memWrite_of_lt hp ha⟩
      · exact .inr ⟨a, ha, step_memWrite_of_ge hp ha, .inr ⟨v, rfl⟩⟩
    | memRead a =>
      rcases Nat.lt_or_ge a s.memWords with ha | ha
      · exact .inl ⟨_, step_memRead_of_lt hp ha⟩
      · exact .inr ⟨a, ha, step_memRead_of_ge hp ha, .inl rfl⟩
    | reset => exact .inl ⟨_, step_cons hp⟩

theorem step_pending_memWords {t : State} (hstep : step s = .next t) :
    t.pending = s.pending.tail ∧ t.memWords = s.memWords := by
  cases hp : s.pending with
  | nil =>
    rw [step_nil hp] at hstep
    cases hstep
    exact ⟨hp, rfl⟩
  | cons h rest =>
    rw [List.tail_cons]
    rcases step_cases hp hstep with ⟨c, i, -, -, hrun⟩ | ⟨c, e, -, -, rfl⟩ | ⟨k, v, -, rfl⟩ | ⟨idx, -, rfl⟩ |
      ⟨a, v, -, -, rfl⟩ | ⟨a, -, -, rfl⟩ | ⟨-, rfl⟩
    · obtain ⟨hmw, -, -, -, -, hpend, -, -⟩ := (exec_ends hrun).shell
      exact ⟨hpend, hmw⟩
    · exact ⟨rfl, rfl⟩
    · obtain ⟨hpend, hmw, -⟩ := writeReg_frame { s with pending := rest } (k + 1) v
      exact ⟨hpend, hmw⟩
    · exact ⟨rfl, rfl⟩
    · exact ⟨rfl, rfl⟩
    · exact ⟨rfl, rfl⟩
    · exact ⟨rfl, rfl⟩

end

/-- Settles O14. -/
theorem stepsFollowTheHostInOrder : Obligations.StepsFollowTheHostInOrder :=
  ⟨fun _ hp => step_nil hp, fun _ _ hstep => step_pending_memWords hstep, step_next_or_fault⟩

theorem memWord_write (s : State) (a b : Nat) (v : Word) :
    ({ s with mem := s.mem.write a v } : State).memWord b = if b = a then v else s.memWord b := by
  simp only [State.memWord, Memory.lookup_write]
  split <;> rfl

/-- Settles O12. -/
theorem hostMemoryAccesses : Obligations.HostMemoryAccesses := by
  refine ⟨fun s a v rest hp ha => ⟨_, step_memWrite_of_lt hp ha, ?same, fun b hb => ?other, rfl⟩,
    fun s a rest hp ha => step_memRead_of_lt hp ha⟩
  case same => exact (memWord_write s a a v).trans (if_pos rfl)
  case other => exact (memWord_write s a b v).trans (if_neg hb)

/-- Settles O13. -/
theorem hostAccessOutsideMemoryFaults : Obligations.HostAccessOutsideMemoryFaults :=
  fun _ _ _ ha => ⟨fun _ hp => step_memWrite_of_ge hp ha, fun hp => step_memRead_of_ge hp ha⟩

/-! ### Placed words (20_memory.md R67, 30_encoding.md R80) -/

/-- The command decoder answers only commands. -/
theorem formatOf_of_decodeCmd {c : Word} {i : Instr} (h : decodeCmd c = .ok i) : formatOf i = .cmdw := by
  rw [decodeCmd_eq] at h
  repeat' split at h
  all_goals cases h
  all_goals rfl

/-- A codeword at `in[0]` is what `S16DEC` runs (41_simple16.md R161, log 9). -/
theorem exec_s16dec_eq_exec_decodeS16w {s : State} {w : Word} (h : s.readIn 0 = some w) :
    exec .s16dec s = exec (decodeS16w w) s := by
  have hvalid : s.valid s.src.toNat = true := by
    by_contra hv
    simp [State.readIn, hv] at h
  have hslots : s.inSlotsWith (s16Split w) = s.inSlots := by
    funext u
    cases u with
    | zero => simp [State.inSlotsWith, State.inSlots, hvalid, h]
    | succ u => rfl
  rw [decodeS16w, exec_s16Instr (s16Sel_lt w), State.runCodeword, hslots]
  rfl

theorem s16Sel_ofNat {w : Nat} (hw : w < 2 ^ 32) : s16Sel (BitVec.ofNat 32 w) = w / 2 ^ 28 := by
  rw [s16Sel, toNat_extractLsb', BitVec.toNat_ofNat, Nat.mod_eq_of_lt hw]
  omega

theorem withFetchWord_eq_place (s : State) {w : Nat} (hw : w < 2 ^ 32) :
    s.withFetchWord 32 w = s.place (BitVec.ofNat 32 w) := by
  rw [State.withFetchWord, Nat.mod_eq_of_lt hw]

theorem step_placeCommand {c : Word} {i : Instr} (s : State) (hd : decode .cmdw c = .ok i) :
    step (s.placeCommand c) = exec i { s with cmd := c } :=
  step_command_of_ok (State.placeCommand_pending s c) hd

/-- The first input word of a placed codeword is the codeword. -/
theorem readIn_placeCodeword {s : State} (w : Word) (hsrc : s.src.toNat < s.memWords) :
    (s.placeCodeword w).readIn 0 = some w := by
  rw [readIn_of_lt hsrc]
  simp [State.memWord, Memory.lookup_write]

/-- Settles O10: a word placed as a command is decoded as it is written; a codeword is what `S16DEC` reads at `in[0]`. -/
theorem placedWordIsRunByTheNextStep : Obligations.PlacedWordIsRunByTheNextStep := by
  intro s w hw i hi
  rw [withFetchWord_eq_place s hw, State.place]
  rw [decodeTableWord, if_pos ⟨rfl, hw⟩] at hi
  cases hd : decode .cmdw (BitVec.ofNat 32 w) with
  | ok j =>
    rw [hd] at hi
    cases hi
    refine ⟨fun _ => step_placeCommand s hd, fun hf => ?_⟩
    rw [formatOf_of_decodeCmd hd] at hf
    cases hf
  | error e =>
    rw [hd] at hi
    obtain rfl : decodeS16w (BitVec.ofNat 32 w) = i := Option.some.inj hi
    refine ⟨fun hf => ?_, fun _ hsrc => ?_⟩
    · rw [decodeS16w, formatOf_s16Instr] at hf
      cases hf
    · rw [← s16Sel_ofNat hw]
      refine (step_command_of_ok (State.placeCodeword_pending ..) (i := .s16dec) (by decide)).trans ?_
      exact exec_s16dec_eq_exec_decodeS16w (readIn_placeCodeword _ hsrc)

/-! ### Two runs side by side (20_memory.md R55) -/

section
variable {s s' : State}

theorem outValid_congr (h : SameShell s s') (lo : Nat) : s'.outValid lo = s.outValid lo := by
  obtain ⟨hmw, -, -, hdst, -⟩ := h
  rw [State.outValid, hmw, hdst, State.outValid]

theorem inValid_congr (h : SameShell s s') (li : Nat) : s'.inValid li = s.inValid li := by
  obtain ⟨hmw, -, hsrc, -⟩ := h
  rw [State.inValid, hmw, hsrc, State.inValid]

theorem overlaps_congr (h : SameShell s s') (li lo : Nat) : s'.overlaps li lo = s.overlaps li lo := by
  obtain ⟨-, -, hsrc, hdst, -⟩ := h
  rw [State.overlaps, hsrc, hdst, State.overlaps]

theorem count_congr (h : SameShell s s') : s'.count = s.count := by
  obtain ⟨-, -, -, -, hcount, -⟩ := h
  exact hcount

theorem input_congr {n : Nat} (h : ∀ j < n, inStream s' j = inStream s j) : s'.input n = s.input n :=
  List.map_congr_left fun j hj => h j (List.mem_range.1 hj)

theorem readIn_congr {i : Nat} (hshell : SameShell s s') (h : inStream s' i = inStream s i) :
    s'.readIn i = s.readIn i := by
  obtain ⟨hmw, -, hsrc, -⟩ := hshell
  have hw : s'.memWord (s'.src.toNat + i) = s.memWord (s.src.toNat + i) := h
  rw [State.readIn, State.readIn, State.valid, State.valid, hw, hmw, hsrc]

/-- The checks decide alike in two states with the same shell, so a relation between what two checked runs leave holds
if it holds after each error of a check and after the work that follows the checks. -/
theorem checked_rel {R : State → State → Prop} {li lo : Nat} {done done' : State} (hshell : SameShell s s')
    (hraise : ∀ e, e ≠ .s16Range → R (s.raise e 0) (s'.raise e 0)) (hdone : R done done') :
    R (s.checked li lo done) (s'.checked li lo done') := by
  unfold State.checked
  rw [outValid_congr hshell, inValid_congr hshell, overlaps_congr hshell]
  split
  · exact hraise .bounds (by decide)
  · split
    · exact hraise .bounds (by decide)
    · split
      · exact hraise .overlap (by decide)
      · exact hdone

end

/-- `t` and `t'`, left by two runs, agree on `STATUS` and `RESULT`, and, where the runs produced output (they completed
or ended in `E_S16_RANGE`), on the `n` words from `base` on. -/
structure SameOutput (base n : Nat) (t t' : State) : Prop where
  status : t'.status = t.status
  result : t'.result = t.result
  words : t.err = 0 ∨ t.err = 4 → ∀ j < n, t'.memWord (base + j) = t.memWord (base + j)

theorem SameOutput.of_holds {base n : Nat} {ws : List Word} {t t' : State} (hstatus : t'.status = t.status)
    (hresult : t'.result = t.result) (hl : n ≤ ws.length) (h : Holds t base ws) (h' : Holds t' base ws) :
    SameOutput base n t t' :=
  ⟨hstatus, hresult, fun _ j hj => (h' j (by omega)).trans (h j (by omega)).symm⟩

/-- Of the errors, only `E_S16_RANGE` comes after output was produced (60_exceptions.md R244, R248). -/
theorem OpError.code_ne_output {e : OpError} (he : e ≠ .s16Range) : ¬ (e.code = 0 ∨ e.code = 4) := by
  revert he
  cases e <;> decide

/-- An error of a check produces no output. -/
theorem SameOutput.raise (s s' : State) (base n : Nat) {e : OpError} (he : e ≠ .s16Range) :
    SameOutput base n (s.raise e 0) (s'.raise e 0) where
  status := rfl
  result := rfl
  words herr := absurd (State.err_raise s e 0 ▸ herr) (OpError.code_ne_output he)

/-- `t` and `t'` are left by two runs of an encoder that produced `n` words: the same words, `RESULT` not above `n`. -/
def SameEncoding (base n : Nat) (t t' : State) : Prop := SameOutput base n t t' ∧ t.result.toNat ≤ n

theorem SameEncoding.raise (s s' : State) (base n : Nat) {e : OpError} (he : e ≠ .s16Range) :
    SameEncoding base n (s.raise e 0) (s'.raise e 0) :=
  ⟨.raise s s' base n he, by simp⟩

section
variable {s s' : State} (hshell : SameShell s s') (hstatus : s'.status = s.status)
include hshell hstatus

/-- Two runs that completed with the same words written. -/
theorem SameOutput.writeOut {n : Nat} {ws : List Word} (res : Nat) (hl : n ≤ ws.length) :
    SameOutput s.dst.toNat n ((s.writeOut ws).complete res) ((s'.writeOut ws).complete res) := by
  obtain ⟨-, -, -, hdst, -⟩ := hshell
  exact .of_holds (congrArg statusComplete hstatus) rfl hl (holds_writeOut s ws) (hdst ▸ holds_writeOut s' ws)

/-- Two encoders that completed with the same words produced; what is in the reserved words after them is not said. -/
theorem SameEncoding.complete (ws : List Word) (lo : Nat) :
    SameEncoding s.dst.toNat ws.length ((s.writeOutReserved ws lo).complete ws.length)
      ((s'.writeOutReserved ws lo).complete ws.length) := by
  obtain ⟨-, -, -, hdst, -⟩ := hshell
  refine ⟨.of_holds (congrArg statusComplete hstatus) rfl le_rfl (holds_writeOutReserved s ws lo)
    (hdst ▸ holds_writeOutReserved s' ws lo), ?_⟩
  exact (BitVec.toNat_ofNat ..).trans_le (Nat.mod_le ..)

omit hstatus in
/-- Two encoders that met a Value too large after producing the same words. -/
theorem SameEncoding.s16Range (ws : List Word) (lo : Nat) :
    SameEncoding s.dst.toNat ws.length ((s.writeOutReserved ws lo).raise .s16Range ws.length)
      ((s'.writeOutReserved ws lo).raise .s16Range ws.length) := by
  obtain ⟨-, -, -, hdst, -⟩ := hshell
  refine ⟨.of_holds rfl rfl le_rfl (holds_writeOutReserved s ws lo) (hdst ▸ holds_writeOutReserved s' ws lo), ?_⟩
  exact (BitVec.toNat_ofNat ..).trans_le (Nat.mod_le ..)

/-! ### The four operations with a fixed input range -/

theorem sameOutput_pack {bits : BitVec 6} {t t' : State}
    (hin : ∀ j < inLen (.pack bits) s, inStream s' j = inStream s j)
    (ht : exec (.pack bits) s = .next t) (ht' : exec (.pack bits) s' = .next t') :
    SameOutput s.dst.toNat (outLen (.pack bits) s) t t' := by
  simp only [exec, execPack, Host.Outcome.next.injEq] at ht ht'
  subst ht ht'
  rw [show s'.input group = s.input group from input_congr hin]
  split
  · refine checked_rel hshell (fun _ he => .raise s s' _ _ he) (.writeOut hshell hstatus _ ?_)
    simp [length_packn, wordsFor, group, outLen]
    omega
  · exact .raise s s' _ _ (by decide)

theorem sameOutput_unpack {bits : BitVec 6} {t t' : State}
    (hin : ∀ j < inLen (.unpack bits) s, inStream s' j = inStream s j)
    (ht : exec (.unpack bits) s = .next t) (ht' : exec (.unpack bits) s' = .next t') :
    SameOutput s.dst.toNat (outLen (.unpack bits) s) t t' := by
  simp only [exec, execUnpack, Host.Outcome.next.injEq] at ht ht'
  subst ht ht'
  rw [show s'.input bits.toNat = s.input bits.toNat from input_congr hin]
  split
  · exact checked_rel hshell (fun _ he => .raise s s' _ _ he)
      (.writeOut hshell hstatus _ (length_unpackn ..).ge)
  · exact .raise s s' _ _ (by decide)

theorem sameEncoding_s16enc {t t' : State} (hin : ∀ j < inLen .s16enc s, inStream s' j = inStream s j)
    (ht : exec .s16enc s = .next t) (ht' : exec .s16enc s' = .next t') :
    SameEncoding s.dst.toNat (s16Encode (s.input s.count.toNat)).words.length t t' := by
  simp only [exec, execS16enc, inLen, outLen, count_congr hshell, Host.Outcome.next.injEq] at ht ht'
  subst ht ht'
  rw [show s'.input s.count.toNat = s.input s.count.toNat from input_congr hin]
  refine checked_rel hshell (fun _ he => .raise s s' _ _ he) ?_
  split
  · exact .complete hshell hstatus _ _
  · exact .s16Range hshell _ _

theorem sameEncoding_pfdenc {t t' : State} (hin : ∀ j < inLen .pfdenc s, inStream s' j = inStream s j)
    (ht : exec .pfdenc s = .next t) (ht' : exec .pfdenc s' = .next t') :
    SameEncoding s.dst.toNat (pfdEncode (s.input block)).length t t' := by
  simp only [exec, execPfdenc, Host.Outcome.next.injEq] at ht ht'
  subst ht ht'
  rw [show s'.input block = s.input block from input_congr hin]
  exact checked_rel hshell (fun _ he => .raise s s' _ _ he) (.complete hshell hstatus _ _)

end

/-- Settles O23: `PACK` and `UNPACK` write their whole output range from the input words, and the encoders produce
their words from them. -/
theorem fixedInputOperationsReadOnlyTheirInput : Obligations.FixedInputOperationsReadOnlyTheirInput := by
  intro i s s' t t' hi hshell hstatus hin ht ht'
  rcases hi with hi | hi
  · have h : SameOutput s.dst.toNat (outLen i s) t t' := by
      obtain ⟨bits, rfl | rfl⟩ := hi
      · exact sameOutput_pack hshell hstatus hin ht ht'
      · exact sameOutput_unpack hshell hstatus hin ht ht'
    have hnot : ¬ (i = .s16enc ∨ i = .pfdenc) := by
      obtain ⟨bits, rfl | rfl⟩ := hi <;> simp
    exact ⟨h.status, h.result, fun _ herr => h.words (.inl herr), fun hc => absurd hc hnot⟩
  · obtain ⟨n, h, hn⟩ : ∃ n, SameEncoding s.dst.toNat n t t' := by
      rcases hi with rfl | rfl
      · exact ⟨_, sameEncoding_s16enc hshell hstatus hin ht ht'⟩
      · exact ⟨_, sameEncoding_pfdenc hshell hstatus hin ht ht'⟩
    have hnot : ¬ ∃ bits, i = .pack bits ∨ i = .unpack bits := by
      rcases hi with rfl | rfl <;> simp
    exact ⟨h.status, h.result, fun hc => absurd hc hnot, fun _ herr j hj => h.words herr j (hj.trans_le hn)⟩

/-! ### The decoders read no word they do not consume (41_simple16.md R166, 42_pfordelta.md R214) -/

/-- The Simple16 loop, over input words that agree with `slots` up to the last one consumed; every step consumes a word,
so no more are consumed than the bound on the steps. -/
theorem s16DecodeFrom_congr {slots slots' : Nat → Option (List Word)} {fuel need u u' : Nat} {vals : List Word}
    (h : s16DecodeFrom slots fuel need u = some (vals, u')) :
    u ≤ u' ∧ u' ≤ u + fuel ∧ ((∀ i, u ≤ i → i < u' → slots' i = slots i) →
      s16DecodeFrom slots' fuel need u = some (vals, u')) := by
  induction fuel generalizing need u vals with
  | zero =>
    cases need with
    | zero =>
      rw [s16DecodeFrom] at h
      cases h
      exact ⟨le_rfl, le_rfl, fun _ => by rw [s16DecodeFrom]⟩
    | succ need => rw [s16DecodeFrom] at h; cases h
  | succ fuel ih =>
    cases need with
    | zero =>
      rw [s16DecodeFrom] at h
      cases h
      exact ⟨le_rfl, by omega, fun _ => by rw [s16DecodeFrom]⟩
    | succ need =>
      rw [s16DecodeFrom] at h
      cases hs : slots u with
      | none => rw [hs] at h; cases h
      | some sl =>
        rw [hs] at h
        simp only [Option.map_eq_some_iff, Prod.exists, Prod.mk.injEq] at h
        obtain ⟨vs, v, hq, rfl, rfl⟩ := h
        obtain ⟨h1, h2, h3⟩ := ih hq
        refine ⟨by omega, by omega, fun hagree => ?_⟩
        rw [s16DecodeFrom, hagree u le_rfl (by omega), hs]
        simp only [h3 fun i hi => hagree i (by omega), Option.map_some]

section
variable {rd rd' : Nat → Option Word}

theorem readWords_congr {a n : Nat} (h : ∀ i, a ≤ i → i < a + n → rd' i = rd i) :
    readWords rd' a n = readWords rd a n := by
  induction n generalizing a with
  | zero => rfl
  | succ n ih =>
    rw [readWords, readWords, h a le_rfl (by omega), ih fun i h1 h2 => h i (by omega) (by omega)]

/-- The chain walk, over input words that agree with `rd` on the words of the entries it consumes (R212, R213). -/
theorem pfdWalk_congr {base ew fuel s n m : Nat} {vals res : List Word}
    (h : pfdWalk rd base ew fuel vals s n = some (res, m)) :
    n ≤ m ∧ m ≤ n + fuel ∧ ((∀ j, n ≤ j → j < m → rd' (base + j * ew / 32) = rd (base + j * ew / 32)) →
      pfdWalk rd' base ew fuel vals s n = some (res, m)) := by
  induction fuel generalizing vals s n with
  | zero =>
    rw [pfdWalk] at h
    cases h
    exact ⟨le_rfl, le_rfl, fun _ => by rw [pfdWalk]⟩
  | succ fuel ih =>
    rw [pfdWalk] at h
    rcases Nat.lt_or_ge s block with hs | hs
    · rw [if_pos hs] at h
      cases he : excEntry rd base ew n with
      | none => rw [he] at h; cases h
      | some e =>
        rw [he] at h
        obtain ⟨h1, h2, h3⟩ := ih h
        refine ⟨by omega, by omega, fun hagree => ?_⟩
        have he' : excEntry rd' base ew n = some e := by
          rw [← he, excEntry, hagree n le_rfl (by omega), excEntry]
        rw [pfdWalk, if_pos hs, he']
        exact h3 fun j hj => hagree j (by omega)
    · rw [if_neg (by omega)] at h
      cases h
      exact ⟨le_rfl, by omega, fun _ => by rw [pfdWalk, if_neg (by omega)]⟩

/-- The block decoder, over input words that agree with `rd` on the words it consumes, at most 257 (R214, R217). -/
theorem pfdDecode_congr {h : PfdHeader} {vals : List Word} {t : Nat} (hh : headerReserved h.cat h.widx = false)
    (hd : pfdDecode rd h = some (vals, t)) :
    1 ≤ t ∧ t ≤ 257 ∧ ((∀ i < t, rd' i = rd i) → pfdDecode rd' h = some (vals, t)) := by
  obtain ⟨hew, -, hb⟩ := widths_of_header hh
  simp only [pfdDecode] at hd ⊢
  generalize cand h.widx.toNat = b at *
  generalize catWidth h.cat.toNat = ew at *
  cases hmain : readWords rd 1 (4 * b) with
  | none => rw [hmain] at hd; cases hd
  | some main =>
    rw [hmain] at hd
    simp only [Option.map_eq_some_iff, Prod.exists, Prod.mk.injEq] at hd
    obtain ⟨res, m, hwalk, rfl, rfl⟩ := hd
    obtain ⟨-, hm, hcongr⟩ := pfdWalk_congr (rd' := rd') hwalk
    have hentry := (wordsFor_le_iff hew (1 + 4 * b) m _ (Nat.le_add_right ..)).1 le_rfl
    have hbits : m * ew ≤ 128 * 32 := Nat.mul_le_mul (by simpa [block] using hm) (by omega)
    have hwords : wordsFor (m * ew) ≤ 128 := by simp only [wordsFor]; omega
    refine ⟨by omega, by omega, fun hagree => ?_⟩
    rw [readWords_congr fun i _ hi => hagree i (by omega), hmain]
    simp only [hcongr fun j _ hj => hagree _ (hentry j hj), Option.map_some]

end

/-! ### The two decoders -/

section
variable {s s' t : State}

/-- A completed `S16DEC` decoded `COUNT` Values and wrote them. -/
theorem runS16dec_completed {slots : Nat → Option (List Word)} (herr : (s.runS16dec slots).err = 0) :
    ∃ vals u, s.outValid s.count.toNat = true ∧ s16Decode slots s.count.toNat = some (vals, u) ∧
      s.overlaps u s.count.toNat = false ∧ s.runS16dec slots = (s.writeOut vals).complete u := by
  rcases runS16dec_cases s slots with ⟨-, h⟩ | ⟨-, -, h⟩ | ⟨vals, u, hv, hd, ⟨-, h⟩ | ⟨ho, h⟩⟩
  case inr.inr.inr => exact ⟨vals, u, hv, hd, ho, h⟩
  all_goals
    rw [h, State.err_raise] at herr
    exact absurd herr (OpError.code_ne_zero _)

/-- A completed `PFDDEC` decoded a block with a header that is not reserved, and wrote it. -/
theorem runPfddec_completed {hdr : Option PfdHeader} (herr : (s.runPfddec hdr).err = 0) :
    ∃ h vals u, s.outValid block = true ∧ hdr = some h ∧ headerReserved h.cat h.widx = false ∧
      pfdDecode s.readIn h = some (vals, u) ∧ s.overlaps u block = false ∧
      s.runPfddec hdr = (s.writeOut vals).complete u := by
  rcases runPfddec_cases s hdr with ⟨-, h⟩ | ⟨-, -, h⟩ |
    ⟨h0, hv, hh, ⟨-, h⟩ | ⟨hr, ⟨-, h⟩ | ⟨vals, u, hd, ⟨-, h⟩ | ⟨ho, h⟩⟩⟩⟩
  case inr.inr.inr.inr.inr => exact ⟨h0, vals, u, hv, hh, hr, hd, ho, h⟩
  all_goals
    rw [h, State.err_raise] at herr
    exact absurd herr (OpError.code_ne_zero _)

variable (hshell : SameShell s s') (hstatus : s'.status = s.status)
include hshell hstatus

theorem s16dec_reads_consumed (herr : (s.runS16dec s.inSlots).err = 0)
    (hin : ∀ j < (s.runS16dec s.inSlots).result.toNat, inStream s' j = inStream s j) :
    SameOutput s.dst.toNat s.count.toNat (s.runS16dec s.inSlots) (s'.runS16dec s'.inSlots) := by
  obtain ⟨vals, u, hv, hd, ho, hrun⟩ := runS16dec_completed herr
  obtain ⟨-, hu, hcongr⟩ := s16DecodeFrom_congr (slots' := s'.inSlots) hd
  have hres : (s.runS16dec s.inSlots).result.toNat = u := by
    rw [hrun, State.complete_result, BitVec.toNat_ofNat, Nat.mod_eq_of_lt (by have := s.count.isLt; omega)]
  have hd' : s16Decode s'.inSlots s.count.toNat = some (vals, u) :=
    hcongr fun i _ hi => congrArg (Option.map s16Split) (readIn_congr hshell (hin i (hres ▸ hi)))
  have hrun' : s'.runS16dec s'.inSlots = (s'.writeOut vals).complete u := by
    simp [State.runS16dec, count_congr hshell, outValid_congr hshell, overlaps_congr hshell, hv, hd', ho]
  rw [hrun, hrun']
  exact .writeOut hshell hstatus u (length_s16Decode hd).ge

theorem pfddec_reads_consumed (herr : (s.runPfddec ((s.readIn 0).map pfdHeaderOf)).err = 0)
    (hin : ∀ j < (s.runPfddec ((s.readIn 0).map pfdHeaderOf)).result.toNat, inStream s' j = inStream s j) :
    SameOutput s.dst.toNat block (s.runPfddec ((s.readIn 0).map pfdHeaderOf))
      (s'.runPfddec ((s'.readIn 0).map pfdHeaderOf)) := by
  obtain ⟨h, vals, u, hv, hh, hr, hd, ho, hrun⟩ := runPfddec_completed herr
  obtain ⟨hpos, hu, hcongr⟩ := pfdDecode_congr (rd' := s'.readIn) hr hd
  have hres : (s.runPfddec ((s.readIn 0).map pfdHeaderOf)).result.toNat = u := by
    rw [hrun, State.complete_result, BitVec.toNat_ofNat, Nat.mod_eq_of_lt (by omega)]
  have hagree : ∀ i < u, s'.readIn i = s.readIn i := fun i hi => readIn_congr hshell (hin i (hres ▸ hi))
  have hrun' : s'.runPfddec ((s'.readIn 0).map pfdHeaderOf) = (s'.writeOut vals).complete u := by
    rw [hagree 0 hpos, hh]
    simp [State.runPfddec, outLen, outValid_congr hshell, overlaps_congr hshell, hv, hr, hcongr hagree, ho]
  rw [hrun, hrun']
  exact .writeOut hshell hstatus u (length_pfdDecode hd).ge

end

/-- Settles O24. -/
theorem decodersReadOnlyWhatTheyConsume : Obligations.DecodersReadOnlyWhatTheyConsume := by
  intro i s s' t hi hshell hstatus ht herr hin
  rcases hi with rfl | rfl
  · cases ht
    have h := s16dec_reads_consumed hshell hstatus herr hin
    exact ⟨_, rfl, h.status, h.result, h.words (.inl herr)⟩
  · cases ht
    have h := pfddec_reads_consumed hshell hstatus herr hin
    exact ⟨_, rfl, h.status, h.result, h.words (.inl herr)⟩

end Sys2Proof.Machine
end

section
/-! The settled statements of `30_encoding.md`: the illegal command words, the bit positions of a codeword's slots, the
data words where they are read, and the lines of a host script. -/

namespace Sys2Proof.Machine

/-! ### The command words (30_encoding.md R81 to R84) -/

/-- The fields `[31:10]`, `[3:0]` and `[9:4]` of a word, as the value of the word (00_scope.md R13). -/
theorem command_fields (c : Word) :
    field c 31 10 = c.toNat / 1024 ∧ field c 3 0 = c.toNat % 16 ∧ field c 9 4 = c.toNat / 16 % 64 := by
  have := c.isLt
  simp only [field]
  omega

/-- The words the decoder rejects, one disjunct of R84 for each of its rejecting branches. -/
theorem decodeCmd_error_iff (c : Word) : (∃ e, decodeCmd c = .error e) ↔
    (field c 31 10 ≠ 0 ∨ field c 3 0 = 0 ∨ 7 ≤ field c 3 0 ∨
      ((field c 3 0 = 1 ∨ field c 3 0 = 2) ∧ 32 < field c 9 4) ∨
      ((field c 3 0 = 3 ∨ field c 3 0 = 4 ∨ field c 3 0 = 5 ∨ field c 3 0 = 6) ∧ field c 9 4 ≠ 0)) := by
  rw [decodeCmd_eq]
  split_ifs <;> simp only [Except.error.injEq, exists_eq', exists_false, true_iff, false_iff] <;> omega

theorem decodeCmd_ok_iff_not_error (c : Word) : (∃ i, decodeCmd c = .ok i) ↔ ¬ ∃ e, decodeCmd c = .error e := by
  cases decodeCmd c <;> simp

/-- A command word of operation `k` and a width up to 32, in the form of R84's list. -/
theorem exists_width_iff (n : Nat) {k : Nat} (hk : k < 16) :
    (∃ b ≤ 32, n = k + 16 * b) ↔ n % 16 = k ∧ n / 16 ≤ 32 := by
  constructor
  · rintro ⟨b, hb, rfl⟩
    omega
  · rintro ⟨hop, hbits⟩
    exact ⟨n / 16, hbits, by omega⟩

/-- Settles O6: the illegal words by the branches of the decoder, the legal ones as the others, and the step by what
`raise` leaves. -/
theorem illegalCommandWordsRaiseIllegal : Obligations.IllegalCommandWordsRaiseIllegal := by
  refine ⟨decodeCmd_error_iff, fun c => ?legal, fun s c rest e hp hd => ?step⟩
  case legal =>
    obtain ⟨hreserved, hop, hbits⟩ := command_fields c
    rw [decode, decodeCmd_ok_iff_not_error, decodeCmd_error_iff, hreserved, hop, hbits,
      exists_width_iff _ (by decide), exists_width_iff _ (by decide)]
    omega
  case step =>
    exact ⟨_, step_command_of_error hp hd, rfl, State.err_raise .., State.serr_raise .., rfl, rfl, rfl, rfl,
      fun _ => rfl, rfl, rfl, rfl⟩

/-! ### The slots of a codeword (30_encoding.md R85, R87) -/

/-- Slot `j` is as wide as its width says and ends where the widths up to it end. -/
theorem getD_splitSlots (w : Word) {ws : List Nat} {j : Nat} (hj : j < ws.length) (top : Nat) :
    (splitSlots w top ws).getD j 0 = (w >>> (top - (ws.take (j + 1)).sum)) &&& mask (ws.getD j 0) := by
  induction ws generalizing top j with
  | nil => cases hj
  | cons wd ws ih =>
    cases j with
    | zero => simp [splitSlots]
    | succ j =>
      rw [splitSlots, List.getD_cons_succ, ih (Nat.lt_of_succ_lt_succ hj), List.getD_cons_succ,
        List.take_succ_cons, List.sum_cons, Nat.sub_sub]

/-- A word shifted down and cut to `wd` bits is the natural in its bits `[lo + wd - 1 : lo]` (00_scope.md R13). -/
theorem shift_and_mask_eq_field (w : Word) (lo : Nat) {wd : Nat} (h1 : 1 ≤ wd) (h2 : wd ≤ 32) :
    (w >>> lo) &&& mask wd = BitVec.ofNat 32 (field w (lo + wd - 1) lo) := by
  have hwidth : lo + wd - 1 - lo + 1 = wd := by omega
  have hle : w.toNat / 2 ^ lo % 2 ^ wd < 2 ^ 32 :=
    ((Nat.mod_le _ _).trans (Nat.div_le_self _ _)).trans_lt w.isLt
  refine BitVec.eq_of_toNat_eq ?_
  rw [toNat_and_mask _ h2, BitVec.toNat_ushiftRight, Nat.shiftRight_eq_div_pow, field, hwidth, BitVec.toNat_ofNat,
    Nat.mod_eq_of_lt hle]

theorem s16Layout_width_bounds : ∀ k < 16, ∀ j < s16Slots k,
    1 ≤ (s16Layout k).getD j 0 ∧ (s16Layout k).getD j 0 ≤ 32 := by decide

theorem slotBounds_eq_formula : ∀ k < 16, ∀ j < s16Slots k,
    (slotBounds.getD k []).getD j (0, 0) =
      (28 - ((s16Layout k).take (j + 1)).sum + (s16Layout k).getD j 0 - 1,
        28 - ((s16Layout k).take (j + 1)).sum) := by decide

theorem length_slotBounds : ∀ k < 16, (slotBounds.getD k []).length = s16Slots k := by decide

/-- Settles O7: the positions by evaluation of both tables, the slots by where the splitter cuts. -/
theorem slotsAreTheBitsOfTheirPositions : Obligations.SlotsAreTheBitsOfTheirPositions := by
  refine ⟨fun k hk j hj => ⟨slotBounds_eq_formula k hk j hj, ?slot⟩,
    fun w => ⟨(field_eq_extract w 31 28).symm, length_s16Split w⟩, length_slotBounds⟩
  case slot =>
    rintro w rfl
    obtain ⟨h1, h2⟩ := s16Layout_width_bounds _ hk j hj
    exact (getD_splitSlots w hj 28).trans (shift_and_mask_eq_field w _ h1 h2)

/-! ### The data words where they are read (30_encoding.md R80) -/

theorem readIn_eq_some_iff {s : State} {i : Nat} {w : Word} :
    s.readIn i = some w ↔ s.valid (s.src.toNat + i) = true ∧ s.memWord (s.src.toNat + i) = w := by
  simp [State.readIn]

/-- A header read is the header of the reader's fields (R90, 42_pfordelta.md R210). -/
theorem eq_pfdh_of_decodePfdh {w : Word} {i : Instr} (h : decodePfdh w = .ok i) :
    i = .pfdh (pfdHeaderOf w).start (pfdHeaderOf w).cat (pfdHeaderOf w).widx := by
  simp only [decodePfdh] at h
  split at h
  · cases h
  · exact (Except.ok.inj h).symm

/-- A header at `in[0]` is what `PFDDEC` runs (42_pfordelta.md R215, log 9). -/
theorem exec_pfddec_eq_exec_decodePfdh {s : State} {w : Word} {i : Instr} (hw : s.readIn 0 = some w)
    (hd : decodePfdh w = .ok i) : exec .pfddec s = exec i s := by
  obtain ⟨hvalid, -⟩ := readIn_eq_some_iff.1 hw
  obtain rfl := eq_pfdh_of_decodePfdh hd
  have hheader : (if s.valid s.src.toNat then some (pfdHeaderOf w) else none) = (s.readIn 0).map pfdHeaderOf := by
    rw [hw, Option.map_some]
    exact if_pos hvalid
  exact congrArg (fun hdr => Host.Outcome.next (s.runPfddec hdr)) hheader.symm

/-- Settles O9. -/
theorem streamWordsRunWhereTheyAreRead : Obligations.StreamWordsRunWhereTheyAreRead :=
  fun _ _ hw => ⟨exec_s16dec_eq_exec_decodeS16w hw, fun _ hd => exec_pfddec_eq_exec_decodePfdh hw hd⟩

/-! ### The lines of a host script (30_encoding.md R99, R100) -/

@[simp] theorem length_memWrites (a : Nat) (vs : List Word) : (memWrites a vs).length = vs.length := by
  induction vs generalizing a with
  | nil => rfl
  | cons v vs ih => simp [memWrites, ih]

theorem getElem?_memWrites (a : Nat) (vs : List Word) {i : Nat} (h : i < vs.length) :
    (memWrites a vs)[i]? = some (.memWrite (a + i) vs[i]) := by
  induction vs generalizing a i with
  | nil => cases h
  | cons v vs ih =>
    cases i with
    | zero => rfl
    | succ i =>
      rw [memWrites, List.getElem?_cons_succ, ih (a + 1) (Nat.lt_of_succ_lt_succ h), List.getElem_cons_succ,
        Nat.add_right_comm, Nat.add_assoc]

/-- The fields of the word that R99 writes for an operation and a width. -/
theorem fields_commandWord {op bits : Nat} (hop : op < 16) (hbits : bits ≤ 32) :
    (BitVec.ofNat 32 (op + 16 * bits)).toNat = op + 16 * bits ∧ field (BitVec.ofNat 32 (op + 16 * bits)) 31 10 = 0 ∧
      field (BitVec.ofNat 32 (op + 16 * bits)) 3 0 = op ∧ field (BitVec.ofNat 32 (op + 16 * bits)) 9 4 = bits := by
  have hval : (BitVec.ofNat 32 (op + 16 * bits)).toNat = op + 16 * bits := by
    rw [BitVec.toNat_ofNat]
    omega
  obtain ⟨hreserved, hfop, hfbits⟩ := command_fields (BitVec.ofNat 32 (op + 16 * bits))
  rw [hval] at hreserved hfop hfbits
  omega

theorem decodeCmd_packWord {bits : Nat} (h : bits ≤ 32) :
    decodeCmd (BitVec.ofNat 32 (1 + 16 * bits)) = .ok (.pack (BitVec.ofNat 6 bits)) := by
  obtain ⟨-, hreserved, hop, hbits⟩ := fields_commandWord (op := 1) (by decide) h
  simp [decodeCmd_eq, hreserved, hop, hbits, h]

theorem decodeCmd_unpackWord {bits : Nat} (h : bits ≤ 32) :
    decodeCmd (BitVec.ofNat 32 (2 + 16 * bits)) = .ok (.unpack (BitVec.ofNat 6 bits)) := by
  obtain ⟨-, hreserved, hop, hbits⟩ := fields_commandWord (op := 2) (by decide) h
  simp [decodeCmd_eq, hreserved, hop, hbits, h]

/-- The step of `clrerr` (R100): `SERR` is cleared, `ERR` kept, and nothing else touched. -/
theorem step_clrerr {s : State} (hp : s.pending = ScriptLine.clrerr.steps) :
    ∃ t, step s = .next t ∧ t.serr = false ∧ t.err = s.err ∧
      { t with status := s.status } = { s with pending := [] } := by
  refine ⟨_, step_regWrite hp (by decide), ?_, statusErr_hostWrite .., rfl⟩
  exact (statusSerr_hostWrite ..).trans (Bool.and_false _)

/-- Settles O59: a clause for each line of the table. -/
theorem scriptLinesWriteTheirCommandWords : Obligations.ScriptLinesWriteTheirCommandWords := by
  refine ⟨rfl, fun _ _ => rfl, fun _ => rfl, fun _ => rfl,
    fun a vs => ⟨length_memWrites a vs, fun _ h => getElem?_memWrites a vs h⟩, fun s script line => ⟨?load, rfl⟩,
    fun bits h => ⟨_, rfl, (fields_commandWord (by decide) h).1, decodeCmd_packWord h⟩,
    fun bits h => ⟨_, rfl, (fields_commandWord (by decide) h).1, decodeCmd_unpackWord h⟩, ?commands,
    rfl, fun _ hp => step_clrerr hp⟩
  case load => simp [State.load]
  case commands =>
    rintro l c i (⟨rfl, rfl, rfl⟩ | ⟨rfl, rfl, rfl⟩ | ⟨rfl, rfl, rfl⟩ | ⟨rfl, rfl, rfl⟩) <;> decide

/-! ### The lines performed (30_encoding.md R99) -/

theorem index_ne_zero {reg : Reg} (h : reg ≠ .cmd) : reg.index ≠ 0 := by
  cases reg with
  | cmd => exact absurd rfl h
  | src | dst | count | status | result => exact Nat.succ_ne_zero _

theorem core_run_one {s t : State} (h : step s = .next t) : core.run 1 s = .next t :=
  (core_run_succ 0 s t).2 ⟨t, h, rfl⟩

/-- With no host step waiting, the steps of a loaded line come next. -/
theorem pending_load_line {s : State} (hp : s.pending = []) (line : ScriptLine) :
    (s.load [line]).pending = line.steps ++ s.pending := by
  simp [State.load, hp]

/-- The writes of a `mw` line, all inside memory, one step each. -/
theorem core_run_memWrites {s : State} {a : Nat} {vs : List Word} {rest : List HostStep}
    (hp : s.pending = memWrites a vs ++ rest) (hin : a + vs.length ≤ s.memWords) :
    core.run vs.length s = .next { s with pending := rest, mem := s.mem.writeList a vs } := by
  induction vs generalizing s a with
  | nil =>
    obtain rfl : s.pending = rest := hp
    rfl
  | cons v vs ih =>
    rw [List.length_cons] at hin
    refine (core_run_succ ..).2 ⟨_, step_memWrite_of_lt hp (by omega), ?_⟩
    exact ih rfl (show a + 1 + vs.length ≤ s.memWords by omega)

theorem memWord_writeList (s : State) (base : Nat) (ws : List Word) (a : Nat) :
    ({ s with mem := s.mem.writeList base ws } : State).memWord a =
      if base ≤ a ∧ a < base + ws.length then ws.getD (a - base) 0 else s.memWord a :=
  getD_lookup_writeList ..

theorem holds_writeList (s : State) (base : Nat) (ws : List Word) :
    Holds { s with mem := s.mem.writeList base ws } base ws := by
  intro j hj
  rw [memWord_writeList, if_pos (by omega)]
  simp [List.getD, List.getElem?_eq_getElem hj]

theorem sameOutside_writeList (s : State) (base : Nat) (ws : List Word) :
    SameOutside s { s with mem := s.mem.writeList base ws } base ws.length := by
  intro a ha
  rw [memWord_writeList, if_neg (by omega)]

/-- Settles O60: a `mw` line by the run of its writes, each other line by its one step. -/
theorem loadedScriptLinesArePerformed : Obligations.LoadedScriptLinesArePerformed := by
  intro s hp
  have hload := pending_load_line hp
  refine ⟨fun a vs hin => ?mw, fun a ha => ?mr, fun reg => ?rd, fun reg v hreg => ?wr⟩
  case mw =>
    exact ⟨_, core_run_memWrites (hload (.mw a vs)) hin, holds_writeList s a vs, sameOutside_writeList s a vs, rfl⟩
  case mr => exact core_run_one (step_memRead_of_lt (hload (.mr a)) ha)
  case rd => exact core_run_one (step_regRead (hload (.rd reg)))
  case wr => exact core_run_one (step_regWrite (hload (.wr reg v)) (index_ne_zero hreg))

end Sys2Proof.Machine
end

section
/-! The settled statements of `40_block_packer.md`: where a packed element lies, packing and unpacking as inverses, and
the runs of `PACK` and `UNPACK`. -/

namespace Sys2Proof.Machine

/-! ### Where element `i` lies (40_block_packer.md R121, R127) -/

theorem elemOff_lt (B i : Nat) : elemOff B i < 32 := Nat.mod_lt _ (by decide)

/-- Settles O38: with `i·B = x`, both words and the offset are quotients and remainders of `x` by 32. -/
theorem noElementSpansMoreThanTwoWords : Obligations.NoElementSpansMoreThanTwoWords := by
  intro B i h1 h2
  simp only [elemStart, elemEnd, elemOff, Nat.add_one_mul]
  generalize i * B = x
  omega

/-- The words of an element are the same exactly when the element fits the rest of its first word. -/
theorem elemStart_eq_elemEnd_iff {B : Nat} (i : Nat) (h1 : 1 ≤ B) (h2 : B ≤ 32) :
    elemStart B i = elemEnd B i ↔ elemOff B i + B ≤ 32 :=
  eq_comm.trans (noElementSpansMoreThanTwoWords B i h1 h2).2

/-! ### Stream positions -/

/-- A position below `n·B` is a bit of one of the `n` elements of width `B`. -/
theorem exists_elem_position {p n B : Nat} (h : p < n * B) : ∃ i < n, ∃ j < B, p = i * B + j :=
  have hB : 0 < B := Nat.pos_of_mul_pos_left (Nat.zero_lt_of_lt h)
  ⟨p / B, Nat.div_lt_of_lt_mul (Nat.mul_comm n B ▸ h), p % B, Nat.mod_lt p hB, (Nat.div_add_mod' p B).symm⟩

theorem elem_position_lt {i j n B : Nat} (hi : i < n) (hj : j < B) : i * B + j < n * B :=
  calc i * B + j < i * B + B := by omega
    _ = (i + 1) * B := (Nat.add_one_mul i B).symm
    _ ≤ n * B := Nat.mul_le_mul_right B hi

/-- Stream bit `j` of word `i`, most significant first (00_scope.md R14). -/
theorem streamBit_word {ws : List Word} {i j : Nat} (hi : i < ws.length) (hj : j < 32) :
    streamBit ws (i * 32 + j) = ws[i].getLsbD (31 - j) := by
  simp [streamBit, show (i * 32 + j) / 32 = i by omega, show (i * 32 + j) % 32 = j by omega, List.getD, hi]

/-! ### The stream bits of `packn` and the bits of `unpackn`, for every width up to 32

A width of 0 has no stream bits and only zero Values, so it needs no case in what follows. -/

section
variable {B : Nat} (hB : B ≤ 32)
include hB

theorem streamBit_packn_elem {vals : List Word} {i j : Nat} (hi : i < vals.length) (hj : j < B) :
    streamBit (packn vals B) (i * B + j) = vals[i].getLsbD (B - 1 - j) := by
  rw [streamBit_packn (by omega) hB, elemBit_elem vals hi hj]
  simp [List.getD, hi]

theorem streamBit_packn_tail {vals : List Word} {p : Nat} (hp : vals.length * B ≤ p) :
    streamBit (packn vals B) p = false := by
  rcases Nat.eq_zero_or_pos B with rfl | h
  · simp [packn, streamBit]
  · rw [streamBit_packn h hB, elemBit, decide_eq_false ((Nat.le_div_iff_mul_le h).2 hp).not_gt, Bool.false_and]

theorem getLsbD_getElem_unpackn {words : List Word} {n i : Nat} (hi : i < (unpackn words n B).length) (b : Nat) :
    (unpackn words n B)[i].getLsbD b = (decide (b < B) && streamBit words (i * B + (B - 1 - b))) := by
  rcases Nat.eq_zero_or_pos B with rfl | h
  · simp [unpackn]
  · simpa [unpackn, h.ne'] using getLsbD_unpackElem h hB words i b

/-- Every Value of `unpackn` fits the width (40_block_packer.md R130). -/
theorem toNat_getElem_unpackn_lt {words : List Word} {n i : Nat} (hi : i < (unpackn words n B).length) :
    (unpackn words n B)[i].toNat < 2 ^ B := by
  refine Nat.lt_pow_two_of_testBit _ fun b hb => ?_
  rw [BitVec.testBit_toNat, getLsbD_getElem_unpackn hB hi, decide_eq_false hb.not_gt, Bool.false_and]

/-! ### One after the other (40_block_packer.md R125, R128) -/

/-- Unpacking a packed list gives each Value cut to its low `B` bits. -/
theorem unpackn_packn (vals : List Word) : unpackn (packn vals B) vals.length B = vals.map (· &&& mask B) := by
  refine List.ext_getElem (by simp) fun i h _ => BitVec.eq_of_getLsbD_eq fun b hb32 => ?_
  have hi : i < vals.length := by simpa using h
  rw [getLsbD_getElem_unpackn hB h, List.getElem_map, BitVec.getLsbD_and, getLsbD_mask]
  by_cases hb : b < B
  · rw [streamBit_packn_elem hB hi (by omega), show B - 1 - (B - 1 - b) = b by omega]
    simp [hb, hb32]
  · simp [hb]

/-- A list of Values that fit the width is what its packed words unpack to. -/
theorem unpackn_packn_of_lt {vals : List Word} (h : ∀ v ∈ vals, v.toNat < 2 ^ B) :
    unpackn (packn vals B) vals.length B = vals := by
  rw [unpackn_packn hB, List.map_congr_left fun v hv => and_mask_of_lt (h v hv), List.map_id']

/-- Packing unpacked words gives the stream back up to the last element, and zeros after it. -/
theorem streamBit_packn_unpackn (words : List Word) (n p : Nat) :
    streamBit (packn (unpackn words n B) B) p = (decide (p < n * B) && streamBit words p) := by
  by_cases hp : p < n * B
  · obtain ⟨i, hi, j, hj, rfl⟩ := exists_elem_position hp
    have hi' : i < (unpackn words n B).length := by simpa using hi
    rw [streamBit_packn_elem hB hi' hj, getLsbD_getElem_unpackn hB hi', show B - 1 - (B - 1 - j) = j by omega]
    simp [hp, show B - 1 - j < B by omega]
  · rw [streamBit_packn_tail hB (by simpa using hp)]
    simp [hp]

/-- Of each Value only the low `B` bits are packed. -/
theorem packn_map_and_mask (vals : List Word) : packn (vals.map (· &&& mask B)) B = packn vals B := by
  refine words_ext_stream (by simp [length_packn]) fun p _ => ?_
  by_cases hp : p < vals.length * B
  · obtain ⟨i, hi, j, hj, rfl⟩ := exists_elem_position hp
    rw [streamBit_packn_elem hB hi hj, streamBit_packn_elem hB (by simpa using hi) hj]
    simp [show B - 1 - j < B by omega, show B - 1 - j < 32 by omega]
  · rw [streamBit_packn_tail hB (by simpa using hp), streamBit_packn_tail hB (by omega)]

/-- Unpacking reads only the stream bits of its elements. -/
theorem unpackn_congr {ws vs : List Word} {n : Nat} (h : ∀ p < n * B, streamBit ws p = streamBit vs p) :
    unpackn ws n B = unpackn vs n B := by
  refine List.ext_getElem (by simp) fun i hi hi' => BitVec.eq_of_getLsbD_eq fun b _ => ?_
  rw [getLsbD_getElem_unpackn hB hi, getLsbD_getElem_unpackn hB hi']
  by_cases hb : b < B
  · rw [h _ (elem_position_lt (by simpa using hi) (by omega))]
  · simp [hb]

/-- Cutting to `B` bits, in the words of the spec. -/
theorem ofNat_mod_eq_and_mask (v : Word) : BitVec.ofNat 32 (v.toNat % 2 ^ B) = v &&& mask B := by
  rw [← toNat_and_mask v hB, BitVec.ofNat_toNat, BitVec.setWidth_eq]

end

/-- 32 elements of width `B` fill exactly `B` words (40_block_packer.md R120). -/
theorem length_packn_of_length_eq {vals : List Word} (h : vals.length = 32) (B : Nat) : (packn vals B).length = B := by
  rw [length_packn, h, wordsFor]
  omega

/-- At width 32 the elements are the words (40_block_packer.md R126). -/
theorem packn_width_32 (vals : List Word) : packn vals 32 = vals := by
  have hl : (packn vals 32).length = vals.length := by
    rw [length_packn, wordsFor]
    omega
  refine words_ext_stream hl fun p hp => ?_
  obtain ⟨i, hi, j, hj, rfl⟩ := exists_elem_position (show p < vals.length * 32 by omega)
  rw [streamBit_packn_elem le_rfl hi hj, streamBit_word hi hj]

/-! ### The statements about `packn` and `unpackn` -/

/-- Settles O36: the length of a packed list and its stream bits. -/
theorem packedElementsLieAtTheirStreamBits : Obligations.PackedElementsLieAtTheirStreamBits :=
  fun vals B hB =>
    ⟨length_packn vals B, fun h => length_packn_of_length_eq h B, fun _ hi _ hj => streamBit_packn_elem hB hi hj⟩

/-- Settles O37: the bits of an unpacked Value, those above the width being zero. -/
theorem unpackedElementsAreTheirStreamBits : Obligations.UnpackedElementsAreTheirStreamBits := by
  intro words n B hB
  refine ⟨length_unpackn words n B, fun i hi => ⟨toNat_getElem_unpackn_lt hB hi, fun j hj => ?_⟩⟩
  rw [getLsbD_getElem_unpackn hB hi, show B - 1 - (B - 1 - j) = j by omega]
  simp [show B - 1 - j < B by omega]

/-- Settles O39: width 0 by definition; at width 32 a list is its own packed form, and unpacking undoes packing. -/
theorem edgeWidthsOfThePacker : Obligations.EdgeWidthsOfThePacker := by
  refine ⟨fun _ => rfl, fun _ _ => rfl, packn_width_32, fun words => ?_⟩
  have h := unpackn_packn_of_lt le_rfl fun v (_ : v ∈ words) => v.isLt
  rwa [packn_width_32] at h

/-- Settles O40: both lists unpack to their Values cut to the width, and these differ at `i` only. -/
theorem packingTruncatesEachValueAlone : Obligations.PackingTruncatesEachValueAlone := by
  intro vals B hB
  refine ⟨?_, fun i v j hj => ?_⟩
  · simp only [ofNat_mod_eq_and_mask hB, packn_map_and_mask hB]
  · have h := unpackn_packn hB (vals.set i v)
    rw [List.length_set, List.map_set] at h
    rw [h, unpackn_packn hB, getD_set, if_neg fun hc => hj hc.1]

/-- Settles O42: the stream bits of a packed list end with its elements, and unpacking reads none after them. -/
theorem tailOfAPackedListIsZeroAndIgnored : Obligations.TailOfAPackedListIsZeroAndIgnored :=
  fun _ hB => ⟨fun _ _ hp => streamBit_packn_tail hB hp, fun _ _ _ h => unpackn_congr hB h⟩

/-- Settles O41: one way by the bits of the Values, the other by the bits of the stream; the shift amounts by where an
element lies. -/
theorem packAndUnpackAreInverse : Obligations.PackAndUnpackAreInverse := by
  intro B hB
  refine ⟨fun vals => ?cut, fun vals h => unpackn_packn_of_lt hB h, fun words h => ?words,
    fun words n h => ⟨?length, fun p _ => streamBit_packn_unpackn hB words n p⟩, fun i h1 => ?shifts⟩
  case cut => simp only [ofNat_mod_eq_and_mask hB, unpackn_packn hB]
  case words =>
    have hl : (packn (unpackn words 32 B) B).length = B := length_packn_of_length_eq (length_unpackn ..) B
    refine words_ext_stream (hl.trans h.symm) fun p hp => ?_
    rw [streamBit_packn_unpackn hB, decide_eq_true (hl ▸ hp), Bool.true_and]
  case length => rw [length_packn, length_unpackn, h, wordsFor]
  case shifts =>
    have hoff := elemOff_lt B i
    rw [Ne, elemStart_eq_elemEnd_iff i h1 hB]
    omega

/-! ### The runs of `PACK` and `UNPACK` (40_block_packer.md R129, R130) -/

theorem failsWith_of_raise {i : Instr} {s : State} {e : OpError} (h : exec i s = .next (s.raise e 0)) :
    FailsWith i s e :=
  ⟨_, h, raised_raise s e 0, memWord_raise s e 0⟩

section
variable {s : State} {li lo : Nat}

theorem checked_of_not_inMemory (done : State) (h : ¬ InMemory s s.dst.toNat lo ∨ ¬ InMemory s s.src.toNat li) :
    s.checked li lo done = s.raise .bounds 0 := by
  rw [← outValid_eq_false_iff, ← inValid_eq_false_iff] at h
  rcases h with h | h <;> simp [State.checked, h]

variable (ho : InMemory s s.dst.toNat lo) (hi : InMemory s s.src.toNat li)
include ho hi

theorem checked_of_meet (done : State) (hm : Meet s.src.toNat li s.dst.toNat lo) :
    s.checked li lo done = s.raise .overlap 0 := by
  simp [State.checked, (outValid_iff ..).2 ho, (inValid_iff ..).2 hi, (overlaps_iff ..).2 hm]

theorem checked_of_not_meet (done : State) (hm : ¬ Meet s.src.toNat li s.dst.toNat lo) :
    s.checked li lo done = done := by
  simp [State.checked, (outValid_iff ..).2 ho, (inValid_iff ..).2 hi, (overlaps_eq_false_iff ..).2 hm]

end

/-- An instruction that is a checked operation runs through its checks in order (60_exceptions.md R243). -/
theorem checkedRun_of_checked {i : Instr} {s done : State} {li lo : Nat} {P : State → Prop}
    (h : exec i s = .next (s.checked li lo done)) (hP : P done) : CheckedRun i s li lo P :=
  ⟨fun hb => failsWith_of_raise (checked_of_not_inMemory done hb ▸ h),
    fun ho hi hm => failsWith_of_raise (checked_of_meet ho hi done hm ▸ h),
    fun ho hi hm => ⟨done, checked_of_not_meet ho hi done hm ▸ h, hP⟩⟩

/-- What an operation leaves that completes with the `lo` words `ws` as its output (20_memory.md R58). -/
theorem completed_holds_sameOutside (s : State) {ws : List Word} {lo : Nat} (res : Nat) (hl : ws.length = lo) :
    let t := (s.writeOut ws).complete res
    Completed s t res ∧ Holds t s.dst.toNat ws ∧ SameOutside s t s.dst.toNat lo :=
  ⟨completed_writeOut s ws res, holds_writeOut s ws, hl ▸ sameOutside_writeOut s ws⟩

theorem exec_pack_of_gt {bits : BitVec 6} (s : State) (h : 32 < bits.toNat) :
    exec (.pack bits) s = .next (s.raise .illegal 0) := by
  simp [exec, execPack, h.not_ge]

theorem exec_pack_of_le {bits : BitVec 6} (s : State) (h : bits.toNat ≤ 32) :
    exec (.pack bits) s = .next (s.checked 32 bits.toNat
      ((s.writeOut (packn ((List.range 32).map (inStream s)) bits.toNat)).complete bits.toNat)) := by
  simp only [exec, execPack, h, if_true]
  rfl

theorem exec_unpack_of_gt {bits : BitVec 6} (s : State) (h : 32 < bits.toNat) :
    exec (.unpack bits) s = .next (s.raise .illegal 0) := by
  simp [exec, execUnpack, h.not_ge]

theorem exec_unpack_of_le {bits : BitVec 6} (s : State) (h : bits.toNat ≤ 32) :
    exec (.unpack bits) s = .next (s.checked bits.toNat 32
      ((s.writeOut (unpackn ((List.range bits.toNat).map (inStream s)) 32 bits.toNat)).complete bits.toNat)) := by
  simp only [exec, execUnpack, h, if_true]
  rfl

/-- Settles O25: the checks, then the words of `packn` written at `DST`. -/
theorem packWritesThePackedGroup : Obligations.PackWritesThePackedGroup := by
  intro bits s
  have hl := length_packn_of_length_eq (vals := (List.range 32).map (inStream s)) (by simp) bits.toNat
  exact ⟨fun h => failsWith_of_raise (exec_pack_of_gt s h),
    fun h => checkedRun_of_checked (exec_pack_of_le s h) ⟨hl, completed_holds_sameOutside s _ hl⟩⟩

/-- Settles O26: the checks, then the Values of `unpackn` written at `DST`. -/
theorem unpackWritesThirtyTwoValues : Obligations.UnpackWritesThirtyTwoValues := by
  intro bits s
  refine ⟨fun h => failsWith_of_raise (exec_unpack_of_gt s h), fun h => checkedRun_of_checked (exec_unpack_of_le s h)
    ⟨length_unpackn .., fun v hv => ?_, completed_holds_sameOutside s _ (length_unpackn ..)⟩⟩
  obtain ⟨i, hi, rfl⟩ := List.getElem_of_mem hv
  exact toNat_getElem_unpackn_lt h hi

end Sys2Proof.Machine
end

section
/-! The settled statements of `41_simple16.md`: what the encoder does and where it stops, decoding what it wrote, the
codewords consumed, and the runs of `S16ENC`, `S16DEC` and the sixteen codewords. -/

namespace Sys2Proof.Machine

/-! ### Values that fit the slots of a layout (41_simple16.md R151) -/

/-- Fitting, slot by slot: the leading Values, as many as there are of slots and Values. -/
theorem fit_iff_getD (ws : List Nat) (vs : List Word) :
    Fit ws vs ↔ ∀ j < min ws.length vs.length, (vs.getD j 0).toNat < 2 ^ ws.getD j 0 := by
  have hlen : (vs.zip ws).length = min ws.length vs.length := by rw [List.length_zip, Nat.min_comm]
  rw [Fit, List.forall_mem_iff_getElem, ← hlen]
  refine forall₂_congr fun j hj => ?_
  obtain ⟨hw, hv⟩ := Nat.lt_min.1 (hlen ▸ hj)
  simp [List.getD, hw, hv]

theorem s16Layout_width_le_payload : ∀ k < 16, ∀ x ∈ s16Layout k, x ≤ 28 := by decide

/-- A Value in a slot is below 2^28: no slot is wider than the payload (R156). -/
theorem toNat_lt_of_fit_s16Layout {k : Nat} (hk : k < 16) {vs : List Word} (hf : Fit (s16Layout k) vs)
    (hlen : vs.length ≤ s16Slots k) : ∀ v ∈ vs, v.toNat < 2 ^ 28 := by
  intro v hv
  obtain ⟨j, hj, rfl⟩ := List.getElem_of_mem hv
  have hslot : j < (s16Layout k).length := hj.trans_le hlen
  have hfit := (fit_iff_getD ..).1 hf j (Nat.lt_min.2 ⟨hslot, hj⟩)
  simp only [List.getD, List.getElem?_eq_getElem hj, List.getElem?_eq_getElem hslot, Option.getD_some] at hfit
  exact hfit.trans_le (Nat.pow_le_pow_right (by decide) (s16Layout_width_le_payload k hk _ (List.getElem_mem hslot)))

theorem toNat_lt_of_mem_s16Split (w : Word) : ∀ v ∈ s16Split w, v.toNat < 2 ^ 28 := by
  obtain ⟨hlen, hfit⟩ := (slotsFit_iff ..).1 (slotsFit_s16Split w)
  exact toNat_lt_of_fit_s16Layout (s16Sel_lt w) hfit hlen.le

/-! ### The choice of a layout (R153) -/

theorem s16Choose_eq_none_iff {vals : List Word} :
    s16Choose vals = none ↔ ∀ k < 16, ¬ Fit (s16Layout k) vals := by
  simp only [s16Choose, List.find?_range_eq_none, Bool.not_eq_true', ← Bool.not_eq_true, s16Attempt_iff]

theorem s16Choose_eq_some_iff {vals : List Word} {k : Nat} :
    s16Choose vals = some k ↔ Fit (s16Layout k) vals ∧ k < 16 ∧ ∀ k' < k, ¬ Fit (s16Layout k') vals := by
  simp only [s16Choose, List.find?_range_eq_some, List.mem_range, Bool.not_eq_true', ← Bool.not_eq_true,
    s16Attempt_iff]

/-- Where no layout fits, the first Value fits not even the one slot of layout 15. -/
theorem le_toNat_of_s16Choose_eq_none {v : Word} {vs : List Word} (h : s16Choose (v :: vs) = none) :
    2 ^ 28 ≤ v.toNat := by
  have h15 : ¬ Fit [28] (v :: vs) := s16Choose_eq_none_iff.1 h 15 (by decide)
  rw [fit_cons] at h15
  exact Nat.le_of_not_lt fun hv => h15 ⟨hv, by simp [Fit]⟩

/-! ### The encoder loop, one codeword at a time (R155) -/

/-- Where the loop starts counting only shifts the position it reaches. -/
theorem s16EncodeFrom_add_pos (fuel : Nat) (vals : List Word) (pos d : Nat) :
    s16EncodeFrom fuel vals (pos + d) =
      { s16EncodeFrom fuel vals pos with pos := (s16EncodeFrom fuel vals pos).pos + d } := by
  induction fuel generalizing vals pos with
  | zero => cases vals <;> rfl
  | succ fuel ih =>
    cases vals with
    | nil => rfl
    | cons v vs =>
      rw [s16EncodeFrom, s16EncodeFrom]
      cases s16Choose (v :: vs) with
      | none => rfl
      | some k => simp only [Nat.add_right_comm pos d, ih]

theorem s16Encode_nil : s16Encode [] = ⟨[], true, 0⟩ := rfl

theorem s16Encode_of_none {v : Word} {vs : List Word} (h : s16Choose (v :: vs) = none) :
    s16Encode (v :: vs) = ⟨[], false, 0⟩ := by
  rw [s16Encode, List.length_cons, s16EncodeFrom, h]

theorem s16Encode_of_some {v : Word} {vs : List Word} {k m : Nat} (h : s16Choose (v :: vs) = some k)
    (hm : m = min (s16Slots k) (v :: vs).length) :
    s16Encode (v :: vs) = ⟨s16Format k ((v :: vs).take m) :: (s16Encode ((v :: vs).drop m)).words,
      (s16Encode ((v :: vs).drop m)).ok, (s16Encode ((v :: vs).drop m)).pos + m⟩ := by
  have hpos := s16Slots_pos k (s16Choose_some h).1
  have hrest : s16EncodeFrom vs.length ((v :: vs).drop m) 0 = s16Encode ((v :: vs).drop m) := by
    refine s16EncodeFrom_fuel ?_ le_rfl 0
    rw [List.length_drop]
    rw [List.length_cons] at hm ⊢
    omega
  rw [s16Encode, List.length_cons, s16EncodeFrom, h]
  simp only [← hm, s16EncodeFrom_add_pos _ _ 0 m, hrest]

/-- Induction along the encoder's codewords: what holds of no Values, holds where the first Value is too large, and is
kept by a codeword put before the encoding of the rest, holds of every encoding. A codeword fills its layout unless no
Values are left. -/
theorem s16Encode_induction {motive : List Word → S16Encoded → Prop}
    (nil : motive [] ⟨[], true, 0⟩)
    (large : ∀ v vs, 2 ^ 28 ≤ v.toNat → motive (v :: vs) ⟨[], false, 0⟩)
    (codeword : ∀ k taken rest r, k < 16 → Fit (s16Layout k) taken → 1 ≤ taken.length →
      taken.length ≤ s16Slots k → (rest = [] ∨ taken.length = s16Slots k) → motive rest r →
      motive (taken ++ rest) ⟨s16Format k taken :: r.words, r.ok, r.pos + taken.length⟩)
    (vals : List Word) : motive vals (s16Encode vals) := by
  induction hn : vals.length using Nat.strong_induction_on generalizing vals with
  | _ n ih =>
    cases vals with
    | nil => exact nil
    | cons v vs =>
      cases hc : s16Choose (v :: vs) with
      | none => exact s16Encode_of_none hc ▸ large v vs (le_toNat_of_s16Choose_eq_none hc)
      | some k =>
        obtain ⟨hk, hfit⟩ := s16Choose_some hc
        have hslots := s16Slots_pos k hk
        obtain ⟨m, hm⟩ : ∃ m, m = min (s16Slots k) (v :: vs).length := ⟨_, rfl⟩
        have htaken : ((v :: vs).take m).length = m := by rw [List.length_take]; omega
        have hpos : 1 ≤ m := by rw [List.length_cons] at hm; omega
        have hrest : (v :: vs).drop m = [] ∨ m = s16Slots k := by rw [List.drop_eq_nil_iff]; omega
        have hmotive := codeword k ((v :: vs).take m) ((v :: vs).drop m) (s16Encode ((v :: vs).drop m)) hk
          (fit_take hfit m) (by omega) (by omega) (htaken.symm ▸ hrest)
          (ih _ (by rw [List.length_drop]; omega) _ rfl)
        rwa [List.take_append_drop, htaken, ← s16Encode_of_some hc hm] at hmotive

/-! ### Decoding what was encoded (R165) -/

/-- The first word of an encoding spells the Values it was formatted from, and no more of those asked for. -/
theorem take_s16Split_s16Format {k : Nat} (hk : k < 16) {taken rest : List Word} (hf : Fit (s16Layout k) taken)
    (hlen : taken.length ≤ s16Slots k) (hrest : rest = [] ∨ taken.length = s16Slots k) :
    (s16Split (s16Format k taken)).take (taken ++ rest).length = taken := by
  rw [s16Split_s16Format hk hf hlen]
  rcases hrest with rfl | hfull
  · simp
  · simp [hfull]

/-- One turn of the decoder loop that reads a codeword (R162). -/
theorem s16DecodeFrom_of_some {slots : Nat → Option (List Word)} {fuel need u : Nat} {sl : List Word}
    (hneed : 1 ≤ need) (hsl : slots u = some sl) : s16DecodeFrom slots (fuel + 1) need u =
      (s16DecodeFrom slots fuel (need - (sl.take need).length) (u + 1)).map fun r => (sl.take need ++ r.1, r.2) := by
  obtain ⟨n, rfl⟩ := Nat.exists_eq_add_of_le' hneed
  rw [s16DecodeFrom, hsl]

/-- Wherever the words stand in the decoder's input, asked for as many Values as `vals` has it answers `vals` and
consumes exactly the words. -/
def DecodesTo (words vals : List Word) : Prop :=
  ∀ slots fuel u, vals.length ≤ fuel → (∀ i, slots (u + i) = words[i]?.map s16Split) →
    s16DecodeFrom slots fuel vals.length u = some (vals, u + words.length)

theorem decodesTo_nil : DecodesTo [] [] := by
  intro slots fuel u _ _
  cases fuel <;> rfl

/-- A codeword before words that decode to the rest: full, or the last one. -/
theorem decodesTo_cons {k : Nat} {taken rest words : List Word} (hk : k < 16) (hf : Fit (s16Layout k) taken)
    (hpos : 1 ≤ taken.length) (hlen : taken.length ≤ s16Slots k) (hrest : rest = [] ∨ taken.length = s16Slots k)
    (h : DecodesTo words rest) : DecodesTo (s16Format k taken :: words) (taken ++ rest) := by
  intro slots fuel u hfuel hslots
  have hneed : 1 ≤ (taken ++ rest).length := by rw [List.length_append]; omega
  have hleft : (taken ++ rest).length - taken.length = rest.length := by rw [List.length_append]; omega
  obtain ⟨f, rfl⟩ := Nat.exists_eq_add_of_le' (hneed.trans hfuel)
  have htail : s16DecodeFrom slots f rest.length (u + 1) = some (rest, u + 1 + words.length) := by
    refine h slots f (u + 1) (by omega) fun i => ?_
    rw [Nat.add_assoc, Nat.add_comm 1 i, hslots (i + 1), List.getElem?_cons_succ]
  have hfirst : slots u = some (s16Split (s16Format k taken)) := hslots 0
  rw [s16DecodeFrom_of_some hneed hfirst, take_s16Split_s16Format hk hf hlen hrest, hleft, htail]
  simp only [Option.map_some, List.length_cons, Nat.add_right_comm u 1, Nat.add_assoc]

/-- Settles O45: along the encoder's codewords, each decodes to the Values it was formatted from. -/
theorem s16DecodeOfEncodeIsTheValues : Obligations.S16DecodeOfEncodeIsTheValues := by
  intro vals hok
  have h : (s16Encode vals).ok = true → DecodesTo (s16Encode vals).words vals := by
    refine s16Encode_induction (motive := fun vals r => r.ok = true → DecodesTo r.words vals)
      ?nil ?large ?codeword vals
    case nil => exact fun _ => decodesTo_nil
    case large => exact fun _ _ _ => nofun
    case codeword =>
      exact fun k taken rest r hk hfit hpos hlen hrest ih hok => decodesTo_cons hk hfit hpos hlen hrest (ih hok)
  exact (h hok _ _ 0 le_rfl fun i => by rw [Nat.zero_add]).trans (by rw [Nat.zero_add])

/-! ### What the encoder does and where it stops (R155 to R157) -/

/-- The codeword that a layout makes of the leading Values it fits (30_encoding.md R88). -/
theorem s16Format_take_of_fit {k m : Nat} {vals : List Word} (hk : k < 16) (hf : Fit (s16Layout k) vals)
    (hm : m = min (s16Slots k) vals.length) : s16Sel (s16Format k (vals.take m)) = k ∧
      s16Split (s16Format k (vals.take m)) = vals.take m ++ List.replicate (s16Slots k - m) 0 := by
  have hlen : (vals.take m).length = m := by rw [List.length_take]; omega
  have hsplit := s16Split_s16Format hk (fit_take hf m) (by omega)
  rw [hlen] at hsplit
  exact ⟨s16Sel_s16Format hk (fit_take hf m), hsplit⟩

/-- Settles O43: the choice of a layout, the codeword of a layout that fits, and one turn of the loop. -/
theorem s16EncoderTakesTheFirstLayoutThatFits : Obligations.S16EncoderTakesTheFirstLayoutThatFits := by
  refine ⟨s16Encode_nil, fun v vs => ?_⟩
  intro vals fits
  have hfits (k : Nat) : fits k ↔ Fit (s16Layout k) vals := (fit_iff_getD ..).symm
  simp only [hfits]
  exact ⟨fun hnone => s16Encode_of_none (s16Choose_eq_none_iff.2 hnone),
    fun k hk hfit => s16Format_take_of_fit hk hfit rfl,
    fun k hk hfit hfirst => s16Encode_of_some (s16Choose_eq_some_iff.2 ⟨hfit, hk, hfirst⟩) rfl⟩

/-- Where an encoding of `vals` stops: at the end, or at the first Value that no codeword holds. -/
inductive S16Stops : List Word → S16Encoded → Prop where
  | atEnd (vals words : List Word) (hsmall : ∀ v ∈ vals, v.toNat < 2 ^ 28) :
      S16Stops vals ⟨words, true, vals.length⟩
  | atLarge (before : List Word) (v : Word) (after words : List Word) (hsmall : ∀ v ∈ before, v.toNat < 2 ^ 28)
      (hlarge : 2 ^ 28 ≤ v.toNat) : S16Stops (before ++ v :: after) ⟨words, false, before.length⟩

theorem S16Stops.append_left {taken rest : List Word} {r : S16Encoded} (w : Word)
    (htaken : ∀ v ∈ taken, v.toNat < 2 ^ 28) (h : S16Stops rest r) :
    S16Stops (taken ++ rest) ⟨w :: r.words, r.ok, r.pos + taken.length⟩ := by
  cases h with
  | atEnd _ words hsmall =>
    have h := atEnd (taken ++ rest) (w :: words) (List.forall_mem_append.2 ⟨htaken, hsmall⟩)
    rwa [List.length_append, Nat.add_comm] at h
  | atLarge before v after words hsmall hlarge =>
    have h := atLarge (taken ++ before) v after (w :: words) (List.forall_mem_append.2 ⟨htaken, hsmall⟩) hlarge
    rwa [List.length_append, Nat.add_comm, List.append_assoc] at h

theorem s16Stops_s16Encode (vals : List Word) : S16Stops vals (s16Encode vals) := by
  refine s16Encode_induction ?nil ?large ?codeword vals
  case nil => exact .atEnd [] [] nofun
  case large => exact fun v vs hv => .atLarge [] v vs [] nofun hv
  case codeword =>
    exact fun k taken rest r hk hfit _ hlen _ ih => ih.append_left _ (toNat_lt_of_fit_s16Layout hk hfit hlen)

theorem S16Stops.ok_eq_false_iff {vals : List Word} {r : S16Encoded} (h : S16Stops vals r) :
    r.ok = false ↔ ∃ v ∈ vals, 2 ^ 28 ≤ v.toNat := by
  cases h with
  | atEnd _ words hsmall => exact ⟨nofun, fun ⟨v, hv, hlarge⟩ => absurd (hsmall v hv) hlarge.not_gt⟩
  | atLarge before v after words hsmall hlarge =>
    exact ⟨fun _ => ⟨v, List.mem_append_right _ List.mem_cons_self, hlarge⟩, fun _ => rfl⟩

theorem S16Stops.pos_of_not_ok {vals : List Word} {r : S16Encoded} (h : S16Stops vals r) (hok : r.ok = false) :
    ∃ hp : r.pos < vals.length, 2 ^ 28 ≤ vals[r.pos].toNat ∧ ∀ j (hj : j < r.pos), vals[j].toNat < 2 ^ 28 := by
  cases h with
  | atEnd _ words hsmall => cases hok
  | atLarge before v after words hsmall hlarge =>
    refine ⟨by simp, by simpa using hlarge, fun j hj => ?_⟩
    rw [List.getElem_append_left hj]
    exact hsmall _ (List.getElem_mem hj)

theorem S16Stops.pos_of_ok {vals : List Word} {r : S16Encoded} (h : S16Stops vals r) (hok : r.ok = true) :
    r.pos = vals.length := by
  cases h with
  | atEnd _ words hsmall => rfl
  | atLarge before v after words hsmall hlarge => cases hok

/-- Settles O44: from where an encoding stops; the example by evaluation. -/
theorem s16EncodeFailsExactlyOnLargeValues : Obligations.S16EncodeFailsExactlyOnLargeValues := by
  refine ⟨fun vals => ?_, by decide, by decide, s16Encode_nil⟩
  have h := s16Stops_s16Encode vals
  exact ⟨h.ok_eq_false_iff, h.pos_of_not_ok, h.pos_of_ok, length_s16Encode_le vals⟩

/-! ### The codewords consumed (R166) -/

theorem length_spell (sl : Nat → List Word) (u m : Nat) :
    (spell sl u m).length = ((List.range m).map fun i => (sl (u + i)).length).sum := List.length_flatMap

theorem length_spell_le {sl : Nat → List Word} {n : Nat} (h : ∀ i, (sl i).length ≤ n) (u m : Nat) :
    (spell sl u m).length ≤ m * n := by
  have hsum := List.sum_le_card_nsmul ((List.range m).map fun i => (sl (u + i)).length) n
    (List.forall_mem_map.2 fun i _ => h (u + i))
  rwa [← length_spell, List.length_map, List.length_range] at hsum

theorem le_length_spell {sl : Nat → List Word} (h : ∀ i, 1 ≤ (sl i).length) (u m : Nat) :
    m ≤ (spell sl u m).length := by
  have hsum := List.card_nsmul_le_sum ((List.range m).map fun i => (sl (u + i)).length) 1
    (List.forall_mem_map.2 fun i _ => h (u + i))
  rwa [← length_spell, List.length_map, List.length_range, smul_eq_mul, Nat.mul_one] at hsum

theorem length_s16Split_le (w : Word) : (s16Split w).length ≤ 28 :=
  (length_s16Split w).trans_le (s16Slots_le _ (s16Sel_lt w))

/-- Settles O46: the least number of codewords is what the loop consumes; a codeword spells between 1 and 28 Values. -/
theorem s16WordsConsumed : Obligations.S16WordsConsumed := by
  intro words cnt
  obtain ⟨u, henough, hleast, hdecode, -⟩ := s16DecodeFrom_spec (fun i => s16Split (words i))
    (fun i => some (s16Split (words i))) (fun _ => true) (fun _ => rfl) (fun i => one_le_length_s16Split (words i))
    cnt cnt 0 le_rfl
  have hlen (m : Nat) : (spell (fun i => s16Split (words i)) 0 m).length =
      ((List.range m).map fun i => s16Slots (s16Sel (words i))).sum := by
    simp only [length_spell, length_s16Split, Nat.zero_add]
  have hmost := length_spell_le (fun i => length_s16Split_le (words i)) 0 u
  have hzero : u = 0 ↔ cnt = 0 := by
    constructor
    · rintro rfl
      exact Nat.le_zero.1 henough
    · rintro rfl
      exact Nat.eq_zero_of_not_pos fun hu => Nat.not_lt_zero _ (hleast 0 hu)
  have hle : u ≤ cnt := by
    cases u with
    | zero => exact Nat.zero_le _
    | succ u =>
      exact (le_length_spell (fun i => one_le_length_s16Split (words i)) 0 u).trans_lt (hleast u (Nat.lt_succ_self u))
  refine ⟨_, u, (hdecode fun _ _ => rfl).trans (by rw [Nat.zero_add]), hlen u ▸ henough,
    fun u' hu' => hlen u' ▸ hleast u' hu', hzero, by omega, hle⟩

/-! ### The runs of `S16DEC` and of the codewords (R161, R167) -/

section
variable {s : State} {slots : Nat → Option (List Word)}

theorem runS16dec_of_not_inMemory (slots : Nat → Option (List Word)) (h : ¬ InMemory s s.dst.toNat s.count.toNat) :
    s.runS16dec slots = s.raise .bounds 0 := by
  simp [State.runS16dec, (outValid_eq_false_iff ..).2 h]

variable (ho : InMemory s s.dst.toNat s.count.toNat)
include ho

theorem runS16dec_of_decode_none (hd : s16Decode slots s.count.toNat = none) :
    s.runS16dec slots = s.raise .bounds 0 := by
  simp [State.runS16dec, (outValid_iff ..).2 ho, hd]

variable {vals : List Word} {u : Nat} (hd : s16Decode slots s.count.toNat = some (vals, u))
include hd

theorem runS16dec_of_meet (hm : Meet s.src.toNat u s.dst.toNat s.count.toNat) :
    s.runS16dec slots = s.raise .overlap 0 := by
  simp [State.runS16dec, (outValid_iff ..).2 ho, hd, (overlaps_iff ..).2 hm]

theorem runS16dec_of_not_meet (hm : ¬ Meet s.src.toNat u s.dst.toNat s.count.toNat) :
    s.runS16dec slots = (s.writeOut vals).complete u := by
  simp [State.runS16dec, (outValid_iff ..).2 ho, hd, (overlaps_eq_false_iff ..).2 hm]

end

theorem toNat_lt_of_mem_spelled {stream : Nat → Word} {u : Nat} {v : Word} (hv : v ∈ spelled stream u) :
    v.toNat < 2 ^ 28 := by
  obtain ⟨i, -, hi⟩ := List.mem_flatMap.1 hv
  exact toNat_lt_of_mem_s16Split _ v hi

/-- An instruction that runs the decoder over the words of `stream`, those without a valid address missing. -/
theorem s16decRun_of_runS16dec {i : Instr} {s : State} {stream : Nat → Word} {slots : Nat → Option (List Word)}
    (hrun : exec i s = .next (s.runS16dec slots))
    (hslots : ∀ u, slots u = if s.valid (s.src.toNat + u) then some (s16Split (stream u)) else none) :
    S16decRun i s stream := by
  obtain ⟨u, henough, hleast, hdecode, hnone⟩ := s16DecodeFrom_spec (fun u => s16Split (stream u)) slots
    (fun u => s.valid (s.src.toNat + u)) hslots (fun u => one_le_length_s16Split (stream u))
    s.count.toNat s.count.toNat 0 le_rfl
  have hspell (m : Nat) : spell (fun u => s16Split (stream u)) 0 m = spelled stream m := by
    simp only [spell, spelled, Nat.zero_add]
  simp only [hspell, Nat.zero_add] at henough hleast hdecode hnone
  replace hdecode (hin : InMemory s s.src.toNat u) :
      s16Decode slots s.count.toNat = some ((spelled stream u).take s.count.toNat, u) :=
    hdecode fun j hj => decide_eq_true (hin j hj)
  replace hnone (hin : ¬ InMemory s s.src.toNat u) : s16Decode slots s.count.toNat = none :=
    hnone (by simpa [InMemory, State.valid] using hin)
  refine ⟨fun ho => failsWith_of_raise (runS16dec_of_not_inMemory slots ho ▸ hrun), u, ⟨henough, hleast⟩,
    fun ho => ⟨fun hin => ?input, fun hin hm => ?overlap, fun hin hm => ?done⟩⟩
  case input => exact failsWith_of_raise (runS16dec_of_decode_none ho (hnone hin) ▸ hrun)
  case overlap => exact failsWith_of_raise (runS16dec_of_meet ho (hdecode hin) hm ▸ hrun)
  case done =>
    rw [runS16dec_of_not_meet ho (hdecode hin) hm] at hrun
    exact ⟨List.length_take_of_le henough, fun v hv => toNat_lt_of_mem_spelled (List.mem_of_mem_take hv), _, hrun,
      completed_holds_sameOutside s u rfl⟩

/-- `S16DEC` reads the words of memory from `SRC` on. -/
theorem inSlots_eq (s : State) (u : Nat) :
    s.inSlots u = if s.valid (s.src.toNat + u) then some (s16Split (inStream s u)) else none := by
  rw [State.inSlots, State.readIn]
  split <;> rfl

/-- Settles O28: the decoder over the words of memory from `SRC` on. -/
theorem s16decWritesExactlyCountValues : Obligations.S16decWritesExactlyCountValues :=
  fun s => s16decRun_of_runS16dec rfl (inSlots_eq s)

theorem s16Split_s16Format_of_slotsFit {k : Nat} (hk : k < 16) {slots : List Word} (h : slotsFit k slots = true) :
    s16Split (s16Format k slots) = slots := by
  obtain ⟨hlen, hfit⟩ := (slotsFit_iff ..).1 h
  rw [s16Split_s16Format hk hfit hlen.le, hlen, Nat.sub_self, List.replicate_zero, List.append_nil]

/-- Settles O31: the first word of the stream splits into the slots of the instruction. -/
theorem codewordsRunAsTheFirstOfTheirStream : Obligations.CodewordsRunAsTheFirstOfTheirStream := by
  intro k hk slots hfit s
  refine ⟨encode_s16Instr hk slots, s16decRun_of_runS16dec (exec_s16Instr hk slots s) fun u => ?_⟩
  rw [encode_s16Instr hk, State.inSlotsWith]
  cases u with
  | zero => simp [s16Split_s16Format_of_slotsFit hk hfit]
  | succ u => exact inSlots_eq s (u + 1)

/-! ### The run of `S16ENC` (R159) -/

theorem exists_large_input_iff (s : State) (n : Nat) :
    (∃ v ∈ (List.range n).map (inStream s), 2 ^ 28 ≤ v.toNat) ↔ ∃ j < n, 2 ^ 28 ≤ (inStream s j).toNat := by
  simp only [List.mem_map, List.mem_range, exists_exists_and_eq_and]

/-- Settles O27: the checks, then the codewords written at `DST`, completed or raised by how the encoder stopped. -/
theorem s16encWritesTheCodewords : Obligations.S16encWritesTheCodewords := by
  intro s
  refine checkedRun_of_checked rfl ?_
  intro r
  have hlen : r.words.length ≤ s.count.toNat := (length_s16Encode_le _).trans_eq (length_input ..)
  have hfail := (s16Stops_s16Encode _).ok_eq_false_iff.trans (exists_large_input_iff s s.count.toNat)
  have hholds := holds_writeOutReserved s r.words s.count.toNat
  have hsame := sameOutside_writeOutReserved s r.words s.count.toNat hlen
  split
  · next hok =>
    exact ⟨hlen, hholds, hsame, fun _ => completed_writeOutReserved .., fun h => absurd hok (Bool.eq_false_iff.1 h),
      hfail⟩
  · next hok => exact ⟨hlen, hholds, hsame, fun h => absurd h hok, fun _ => raised_writeOutReserved .., hfail⟩

end Sys2Proof.Machine
end

section
/-! The settled statements of `42_pfordelta.md`: the header, what a scan finds and the encoder chooses, the encoded
block, the chain walk, decoding what was encoded, and the runs of `PFDENC`, `PFDDEC` and the header. -/

namespace Sys2Proof.Machine

/-! ### The header (30_encoding.md R90, 42_pfordelta.md R200, R210) -/

/-- The fields of a header do not overlap. -/
theorem toNat_encodePfdh (start : BitVec 10) (cat : BitVec 2) (widx : BitVec 4) :
    (encodePfdh start cat widx).toNat = widx.toNat * 2 ^ 12 + cat.toNat * 2 ^ 10 + start.toNat := by
  have hs := start.isLt
  have hc := cat.isLt
  have hw := widx.isLt
  rw [encodePfdh, BitVec.or_assoc]
  simp (disch := omega) only [BitVec.toNat_or, BitVec.toNat_shiftLeft, BitVec.toNat_setWidth, Nat.mod_eq_of_lt]
  rw [← Nat.shiftLeft_add_eq_or_of_lt hs, ← Nat.shiftLeft_add_eq_or_of_lt (by omega)]
  omega

@[simp] theorem pfdHeaderOf_encodePfdh (start : BitVec 10) (cat : BitVec 2) (widx : BitVec 4) :
    pfdHeaderOf (encodePfdh start cat widx) = ⟨start, cat, widx⟩ := by
  have hs := start.isLt
  have hc := cat.isLt
  have hw := widx.isLt
  simp only [pfdHeaderOf, PfdHeader.mk.injEq]
  refine ⟨?_, ?_, ?_⟩ <;> apply BitVec.eq_of_toNat_eq <;> rw [toNat_extractLsb', toNat_encodePfdh] <;> omega

theorem field_cat (h : Word) : field h 11 10 = (pfdHeaderOf h).cat.toNat := field_eq_extract h 11 10
theorem field_widx (h : Word) : field h 15 12 = (pfdHeaderOf h).widx.toNat := field_eq_extract h 15 12
theorem field_start (h : Word) : field h 9 0 = (pfdHeaderOf h).start.toNat := field_eq_extract h 9 0

theorem headerReserved_iff (h : Word) :
    headerReserved (pfdHeaderOf h).cat (pfdHeaderOf h).widx = true ↔ field h 15 12 = 15 ∨ field h 11 10 = 3 := by
  simp [headerReserved, field_cat, field_widx, ← BitVec.toNat_inj]

section
variable {k c start : Nat} (hk : k < 16) (hc : c < 4) (hs : start < 1024)
include hk hc hs

/-- The fields of the header as the header formatter is given them (R200). -/
theorem pfdHeader_eq_ofNat : pfdHeader k c start = BitVec.ofNat 32 (k * 2 ^ 12 + c * 2 ^ 10 + start) := by
  apply BitVec.eq_of_toNat_eq
  simp only [pfdHeader, toNat_encodePfdh, BitVec.toNat_ofNat]
  omega

theorem fields_pfdHeader : field (pfdHeader k c start) 31 16 = 0 ∧ field (pfdHeader k c start) 15 12 = k ∧
    field (pfdHeader k c start) 11 10 = c ∧ field (pfdHeader k c start) 9 0 = start := by
  simp only [field, pfdHeader_eq_ofNat hk hc hs, BitVec.toNat_ofNat]
  omega

end

/-! ### The category of a block (42_pfordelta.md R191) -/

theorem maxValue_lt_iff {blk : List Word} {n : Nat} (hn : 0 < n) : maxValue blk < n ↔ ∀ v ∈ blk, v.toNat < n := by
  have h (m : Nat) : blk.foldl (fun mx v => max mx v.toNat) m < n ↔ m < n ∧ ∀ v ∈ blk, v.toNat < n := by
    induction blk generalizing m with
    | nil => simp
    | cons v vs ih => rw [List.foldl_cons, ih, max_lt_iff, List.forall_mem_cons, and_assoc]
  exact (h 0).trans (and_iff_right hn)

theorem le_maxValue_iff {blk : List Word} {n : Nat} (hn : 0 < n) : n ≤ maxValue blk ↔ ∃ v ∈ blk, n ≤ v.toNat := by
  rw [← not_lt, maxValue_lt_iff hn]
  simp

/-- Settles O47: the category is defined by the largest Value, which is below a bound iff every Value is. -/
theorem categoryIsThatOfTheLargestValue : Obligations.CategoryIsThatOfTheLargestValue := by
  intro blk
  rw [← maxValue_lt_iff (by decide), ← maxValue_lt_iff (by decide), ← le_maxValue_iff (by decide),
    ← le_maxValue_iff (by decide), catWidth, Nat.shiftLeft_eq, pfdCat]
  split <;> [skip; split] <;> omega

/-- Every Value fits the width of the block's category (R191, R199). -/
theorem toNat_lt_catWidth {blk : List Word} {v : Word} (hv : v ∈ blk) : v.toNat < 2 ^ catWidth (pfdCat blk) := by
  obtain ⟨h0, h1, -⟩ := categoryIsThatOfTheLargestValue blk
  have hle := pfdCat_le blk
  interval_cases h : pfdCat blk
  · exact h0.1 rfl v hv
  · exact (h1.1 rfl).1 v hv
  · exact v.isLt

/-! ### The exceptions of a scan (R194 to R199) -/

/-- Settles O48: what `scan_spec` says, the latest exception before `i` being the one that the gap is measured from. -/
theorem scanFindsExactlyTheExceptions : Obligations.ScanFindsExactlyTheExceptions := by
  intro blk b hb
  have h := scan_spec b hb
  have hpos := Nat.two_pow_pos b
  refine ⟨h.rising, h.below, h.exc_eq, fun i hi => (h.mem_iff i hi).trans (or_congr_right ?_)⟩
  refine exists_congr fun p => and_congr_right fun _ => ?_
  constructor
  · rintro ⟨rfl, hlast⟩
    exact ⟨hlast, by omega, by omega⟩
  · rintro ⟨hlast, hlt, hgap⟩
    exact ⟨by omega, hlast⟩

theorem getD_mem {l : List Word} {i : Nat} (hi : i < l.length) : l.getD i 0 ∈ l := by
  rw [List.getD_eq_getElem _ _ hi]
  exact List.getElem_mem hi

theorem getLast?_of_length {l : List Nat} {n : Nat} (hn : n + 1 = l.length) : l.getLast? = some l[n] := by
  rw [List.getLast?_eq_getElem?, show l.length - 1 = n by omega, List.getElem?_eq_getElem]

section
variable {b : Nat} {blk : List Word} {r : ScanState} (h : ScanSpec b blk r)
include h

theorem ScanSpec.getElem_lt_getElem {m n : Nat} (hmn : m < n) (hn : n < r.pos.length) : r.pos[m] < r.pos[n] :=
  List.pairwise_iff_getElem.1 h.rising m n (by omega) hn hmn

theorem ScanSpec.getElem_lt {n : Nat} (hn : n < r.pos.length) : r.pos[n] < 128 := h.below _ (List.getElem_mem hn)

/-- The first exception is one by its Value: no gap is measured before it (R195). -/
theorem ScanSpec.two_pow_le_of_first (hne : 0 < r.pos.length) : 2 ^ b ≤ (blk.getD r.pos[0] 0).toNat := by
  have hpos := Nat.two_pow_pos b
  refine ((h.mem_iff _ (h.getElem_lt hne)).1 (List.getElem_mem hne)).resolve_right ?_
  rintro ⟨p, hp, hgap, -⟩
  obtain ⟨n, hn, rfl⟩ := List.getElem_of_mem hp
  rcases Nat.eq_zero_or_pos n with rfl | h0
  · omega
  · have := h.getElem_lt_getElem h0 hn
    omega

/-- An exception before the last stores the hop to the next, at most `2^b` further on (R197, R199). -/
theorem ScanSpec.toNat_hop {n : Nat} (hn : n + 1 < r.pos.length) :
    (r.work.getD r.pos[n] 0).toNat = r.pos[n + 1] - 1 - r.pos[n] ∧ r.pos[n + 1] - r.pos[n] ≤ 2 ^ b := by
  obtain ⟨hgap, hstored⟩ := h.hop n hn
  have hlt := h.getElem_lt hn
  rw [hstored, BitVec.toNat_ofNat, Nat.mod_eq_of_lt (by omega)]
  exact ⟨rfl, Nat.sub_le_iff_le_add'.2 hgap⟩

/-- The last exception stores a hop that leaves the block (R197, R199). -/
theorem ScanSpec.toNat_last (hb : b ≤ 32) {p : Nat} (hp : r.pos.getLast? = some p) :
    (r.work.getD p 0).toNat = 2 ^ b - 1 ∧ 128 ≤ p + 2 ^ b := by
  obtain ⟨hout, hstored⟩ := h.last p hp
  have hle : 2 ^ b ≤ 2 ^ 32 := Nat.pow_le_pow_right (by decide) hb
  rw [hstored, BitVec.toNat_ofNat, Nat.mod_eq_of_lt (by omega)]
  exact ⟨rfl, hout⟩

/-- Every entry of the working array fits the width: an unexceptional Value, a hop, or the last hop (R199). -/
theorem ScanSpec.toNat_work_lt (hb : b ≤ 32) {w : Word} (hw : w ∈ r.work) : w.toNat < 2 ^ b := by
  obtain ⟨i, hi, rfl⟩ := List.getElem_of_mem hw
  have hpos := Nat.two_pow_pos b
  have hi128 : i < 128 := hi.trans_eq h.length_work
  rw [← List.getD_eq_getElem _ 0 hi]
  by_cases hmem : i ∈ r.pos
  · obtain ⟨n, hn, rfl⟩ := List.getElem_of_mem hmem
    rcases Nat.lt_or_ge (n + 1) r.pos.length with hnext | hlast
    · have := h.toNat_hop hnext
      have := h.getElem_lt_getElem (Nat.lt_add_one n) hnext
      omega
    · have := h.toNat_last hb (getLast?_of_length (show n + 1 = r.pos.length by omega))
      omega
  · rw [h.plain i hi128 hmem]
    exact Nat.lt_of_not_ge fun hge => hmem ((h.mem_iff i hi128).2 (.inl hge))

section
variable (hl : blk.length = 128)
include hl

theorem ScanSpec.mem_of_mem_exc {v : Word} (hv : v ∈ r.exc) : v ∈ blk := by
  rw [h.exc_eq] at hv
  obtain ⟨p, hp, rfl⟩ := List.mem_map.1 hv
  exact getD_mem ((h.below p hp).trans_eq hl.symm)

/-- A block of Values that fit the width has no exceptions. -/
theorem ScanSpec.pos_eq_nil (hlt : ∀ v ∈ blk, v.toNat < 2 ^ b) : r.pos = [] := by
  rcases Nat.eq_zero_or_pos r.pos.length with h0 | h0
  · exact List.length_eq_zero_iff.1 h0
  · have hfit := hlt _ (getD_mem ((h.getElem_lt h0).trans_eq hl.symm))
    exact absurd (h.two_pow_le_of_first h0) hfit.not_ge

/-- Without exceptions the working array is the block. -/
theorem ScanSpec.work_eq (hnil : r.pos = []) : r.work = blk := by
  refine List.ext_getElem (h.length_work.trans hl.symm) fun i hi hi' => ?_
  rw [← List.getD_eq_getElem _ 0 hi, ← List.getD_eq_getElem _ 0 hi']
  exact h.plain i (hi'.trans_eq hl) (hnil ▸ List.not_mem_nil)

end

/-- At width 7 and more every exception is one by its Value: a gap of `2^b` does not fit the block (R198). -/
theorem ScanSpec.two_pow_le_of_mem (hb : 7 ≤ b) {p : Nat} (hp : p ∈ r.pos) : 2 ^ b ≤ (blk.getD p 0).toNat := by
  have hlt : p < 128 := h.below p hp
  refine ((h.mem_iff p hlt).1 hp).resolve_right ?_
  rintro ⟨q, -, hgap, -⟩
  have : 2 ^ 7 ≤ 2 ^ b := Nat.pow_le_pow_right (by decide) hb
  omega

/-- With one Value of `2^b` or more, at `p`, the exceptions lie `2^b` apart from `p` on (R198). -/
theorem ScanSpec.getElem_pos_of_one_outlier {p : Nat} (hone : ∀ j < 128, 2 ^ b ≤ (blk.getD j 0).toNat ↔ j = p) {n : Nat}
    (hn : n < r.pos.length) : r.pos[n] = p + n * 2 ^ b := by
  have hpos := Nat.two_pow_pos b
  induction n with
  | zero =>
    have := (hone _ (h.getElem_lt hn)).1 (h.two_pow_le_of_first hn)
    omega
  | succ n ih =>
    specialize ih (by omega)
    have hlt := h.getElem_lt_getElem (Nat.lt_add_one n) hn
    have hle := (h.hop n hn).1
    rcases (h.mem_iff _ (h.getElem_lt hn)).1 (List.getElem_mem hn) with hval | ⟨q, -, hgap, hlast⟩
    · have := (hone _ (h.getElem_lt hn)).1 hval
      omega
    · have := hlast r.pos[n] (List.getElem_mem _) hlt
      rw [Nat.add_one_mul]
      omega

end

/-- Settles O49: the stored hops and the side list of a scan, at widths up to 20. -/
theorem everythingPackedFits : Obligations.EverythingPackedFits := by
  intro blk k hl hk
  have h := scan_spec (cand k) hl
  have hb : cand k ≤ 32 := (cand_lt k hk).2.trans (by decide)
  exact ⟨h.length_work, fun w hw => h.toNat_work_lt hb hw, h.plain, fun n hn => h.toNat_hop hn,
    fun p hp => h.toNat_last hb hp, fun v hv => toNat_lt_catWidth (h.mem_of_mem_exc hl hv)⟩

/-- Settles O50: the last of the equally spaced exceptions lies in the block and at most `2^b` before its end. -/
theorem forcedExceptionsOnlyAtSmallWidths : Obligations.ForcedExceptionsOnlyAtSmallWidths := by
  refine ⟨fun blk b hl hb p hp => (scan_spec b hl).two_pow_le_of_mem hb hp, fun blk b p hl hp hb hone => ?_⟩
  have h := scan_spec b hl
  have hmem : p ∈ (scan blk b).pos := (h.mem_iff p hp).2 (.inl ((hone p hp).2 rfl))
  obtain ⟨m, hm⟩ := Nat.exists_eq_succ_of_ne_zero (List.length_pos_of_mem hmem).ne'
  have hlast := h.toNat_last (by omega) (getLast?_of_length hm.symm)
  have hlt := h.getElem_lt (show m < (scan blk b).pos.length by omega)
  rw [h.getElem_pos_of_one_outlier hone] at hlast hlt
  have hdiv : (127 - p) / 2 ^ b = m := Nat.div_eq_of_lt_le (by omega) (by rw [Nat.add_one_mul]; omega)
  omega

/-! ### The width selector (R192) -/

theorem pfdChoose_rejects {blk : List Word} {k : Nat} (h : k < pfdChoose blk) :
    excMax < (scan blk (cand k)).exc.length := by
  have hk : k < 14 := h.trans_le (pfdChoose_le blk)
  rw [pfdChoose] at h
  cases hf : (List.range 14).find? fun k => (scan blk (cand k)).exc.length ≤ excMax with
  | none => simpa using List.find?_eq_none.1 hf k (List.mem_range.2 hk)
  | some j =>
    rw [hf] at h
    simpa using (List.find?_range_eq_some.1 hf).2.2 k h

/-! ### The four groups of a block (30_encoding.md R95, 42_pfordelta.md R202, R211) -/

/-- A list of pieces of one length, cut apart again. -/
theorem take_drop_flatten {α : Type} {L : List (List α)} {n g : Nat} (hL : ∀ l ∈ L, l.length = n) (hg : g < L.length) :
    (L.flatten.drop (g * n)).take n = L[g] := by
  induction L generalizing g with
  | nil => cases hg
  | cons l L ih =>
    obtain ⟨hl, hL⟩ := List.forall_mem_cons.1 hL
    rw [List.flatten_cons]
    cases g with
    | zero => rw [Nat.zero_mul, List.drop_zero, List.take_left' hl, List.getElem_cons_zero]
    | succ g =>
      rw [Nat.add_one_mul, Nat.add_comm, ← List.drop_drop, List.drop_left' hl, ih hL (Nat.lt_of_succ_lt_succ hg),
        List.getElem_cons_succ]

theorem packMain_eq_flatten (work : List Word) (b : Nat) :
    packMain work b = ((List.range 4).map fun g => packn (groupOf g work) b).flatten := by
  simp [packMain, List.range_succ]

theorem unpackMain_eq_flatten (main : List Word) (b : Nat) :
    unpackMain main b = ((List.range 4).map fun g => unpackn (main.drop (g * b)) 32 b).flatten := by
  simp [unpackMain, List.range_succ, group]

theorem flatten_groupOf {l : List Word} (hl : l.length = 128) :
    ((List.range 4).map fun g => groupOf g l).flatten = l := by
  have hlast : (l.drop 96).take 32 = l.drop 96 := List.take_of_length_le (by rw [List.length_drop, hl])
  have hstep (n : Nat) : (l.drop n).take 32 ++ l.drop (n + 32) = l.drop n := by
    rw [← List.drop_drop, List.take_append_drop]
  simp only [List.range_succ, List.range_zero, List.nil_append, List.cons_append, List.map_cons, List.map_nil,
    List.flatten_cons, List.flatten_nil, List.append_nil, groupOf, group]
  rw [hlast, hstep 64, hstep 32, hstep 0, List.drop_zero]

/-- Group `g` of a packed main array is packed group `g`. -/
theorem take_drop_packMain {work : List Word} (hl : work.length = 128) {g : Nat} (hg : g < 4) (b : Nat) :
    ((packMain work b).drop (g * b)).take b = packn (groupOf g work) b := by
  rw [packMain_eq_flatten, take_drop_flatten _ (by simpa using hg), List.getElem_map, List.getElem_range]
  simp only [List.mem_map, List.mem_range, forall_exists_index, and_imp, forall_apply_eq_imp_iff₂]
  exact fun g hg => length_packn_of_length_eq (length_groupOf hl hg) b

/-- Group `g` of an unpacked main array is unpacked from the words from `g·b` on. -/
theorem groupOf_unpackMain (main : List Word) (b : Nat) {g : Nat} (hg : g < 4) :
    groupOf g (unpackMain main b) = unpackn (main.drop (g * b)) 32 b := by
  rw [groupOf, Nat.mul_comm, group, unpackMain_eq_flatten, take_drop_flatten (by simp) (by simpa using hg),
    List.getElem_map, List.getElem_range]

/-- 32 elements of width `b` are unpacked from `b` words. -/
theorem unpackn_take {b : Nat} (hb : b ≤ 32) (words : List Word) :
    unpackn (words.take b) 32 b = unpackn words 32 b := by
  refine unpackn_congr hb fun p hp => ?_
  simp only [streamBit, List.getD, List.getElem?_take_of_lt (show p / 32 < b by omega)]

/-- Unpacking gives back the array that was packed, if its entries fit the width (R199, R218). -/
theorem unpackMain_packMain {work : List Word} {b : Nat} (hl : work.length = 128) (hb : b ≤ 32)
    (hfit : ∀ v ∈ work, v.toNat < 2 ^ b) : unpackMain (packMain work b) b = work := by
  have hgroup : ∀ g < 4, unpackn ((packMain work b).drop (g * b)) 32 b = groupOf g work := by
    intro g hg
    have h := unpackn_packn_of_lt hb fun v (hv : v ∈ groupOf g work) =>
      hfit v (List.mem_of_mem_drop (List.mem_of_mem_take hv))
    rwa [length_groupOf hl hg, ← take_drop_packMain hl hg, group, unpackn_take hb] at h
  rw [unpackMain_eq_flatten, List.map_congr_left fun g hg => hgroup g (List.mem_range.1 hg), flatten_groupOf hl]

/-- At width 32 a main array is the array itself (R201). -/
theorem packMain_width_32 {work : List Word} (hl : work.length = 128) : packMain work 32 = work := by
  simp only [packMain_eq_flatten, packn_width_32, flatten_groupOf hl]

/-! ### The encoded block (R200 to R205) -/

theorem pfdChoose_lt_or_eq (blk : List Word) : pfdChoose blk < 14 ∨ pfdChoose blk = 14 :=
  Nat.lt_or_eq_of_le (pfdChoose_le blk)

/-- A block at an accepted width below 32 (R202). -/
theorem pfdEncode_of_lt {blk : List Word} (h : pfdChoose blk < 14) :
    pfdEncode blk = pfdHeader (pfdChoose blk) (pfdCat blk) ((scan blk (cand (pfdChoose blk))).pos.headD 128) ::
      (packMain (scan blk (cand (pfdChoose blk))).work (cand (pfdChoose blk)) ++
        packn (scan blk (cand (pfdChoose blk))).exc (catWidth (pfdCat blk))) :=
  if_neg ((cand_lt _ h).2.trans_lt (by decide)).ne

/-- A block at width 32 (R201). -/
theorem pfdEncode_of_eq {blk : List Word} (h : pfdChoose blk = 14) :
    pfdEncode blk = pfdHeader 14 (pfdCat blk) 128 :: blk := by
  rw [pfdEncode, h]
  rfl

/-- `START` of an encoded block (R200). -/
def pfdStart (blk : List Word) : Nat :=
  if pfdChoose blk < 14 then (scan blk (cand (pfdChoose blk))).pos.headD 128 else 128

theorem head_pfdEncode (blk : List Word) :
    (pfdEncode blk).getD 0 0 = pfdHeader (pfdChoose blk) (pfdCat blk) (pfdStart blk) := by
  rcases pfdChoose_lt_or_eq blk with h | h
  · rw [pfdEncode_of_lt h, pfdStart, if_pos h, List.getD_cons_zero]
  · rw [pfdEncode_of_eq h, pfdStart, h, if_neg (lt_irrefl 14), List.getD_cons_zero]

section
variable {blk : List Word} (hl : blk.length = 128)
include hl

theorem headD_pos_le (b : Nat) : (scan blk b).pos.headD 128 ≤ 128 := by
  cases h : (scan blk b).pos with
  | nil => exact le_rfl
  | cons p ps => exact ((scan_spec b hl).below p (h ▸ List.mem_cons_self)).le

theorem pfdStart_le : pfdStart blk ≤ 128 := by
  rw [pfdStart]
  split
  · exact headD_pos_le hl _
  · exact le_rfl

theorem fields_head_pfdEncode :
    field ((pfdEncode blk).getD 0 0) 31 16 = 0 ∧ field ((pfdEncode blk).getD 0 0) 15 12 = pfdChoose blk ∧
      field ((pfdEncode blk).getD 0 0) 11 10 = pfdCat blk ∧ field ((pfdEncode blk).getD 0 0) 9 0 = pfdStart blk := by
  rw [head_pfdEncode]
  exact fields_pfdHeader ((pfdChoose_le blk).trans_lt (by decide)) ((pfdCat_le blk).trans_lt (by decide))
    ((pfdStart_le hl).trans_lt (by decide))

/-- If every Value fits a candidate width, that width or a smaller one is accepted. -/
theorem pfdChoose_le_of_lt {k : Nat} (hk : ∀ v ∈ blk, v.toNat < 2 ^ cand k) : pfdChoose blk ≤ k := by
  refine Nat.le_of_not_lt fun h => ?_
  have hrej := pfdChoose_rejects h
  rw [length_exc hl, (scan_spec (cand k) hl).pos_eq_nil hl hk] at hrej
  exact absurd hrej (by decide)

/-- Values below 65536 would be accepted at the candidate 13, the width 20, so a block of the width-32 path has
category 2 (R201). -/
theorem pfdCat_of_choose_eq (h : pfdChoose blk = 14) : pfdCat blk = 2 := by
  obtain ⟨-, -, h2, -⟩ := categoryIsThatOfTheLargestValue blk
  refine h2.2 ?_
  by_contra! hsmall
  have hle : pfdChoose blk ≤ 13 := pfdChoose_le_of_lt hl fun v hv => (hsmall v hv).trans (by decide)
  omega

end

/-- Settles O51: the selector answers the first accepted candidate, and the header holds its answer. -/
theorem pfdencChoosesTheSmallestWidth : Obligations.PfdencChoosesTheSmallestWidth := fun blk hl =>
  ⟨pfdChoose_le blk, pfdChoose_accepts, fun _ => pfdChoose_rejects, (fields_head_pfdEncode hl).2.1⟩

/-- Settles O52: the fields that the header formatter is given are all in range. -/
theorem headerOfAnEncodedBlock : Obligations.HeaderOfAnEncodedBlock := fun blk hl => by
  obtain ⟨hhigh, hwidx, hcat, hstart⟩ := fields_head_pfdEncode hl
  exact ⟨hhigh, hcat, hwidx, hstart⟩

/-- Settles O53: the emitted words, with the header as a sum of its shifted fields. -/
theorem encodedBlockIsHeaderGroupsAndSideList : Obligations.EncodedBlockIsHeaderGroupsAndSideList := by
  intro blk hl hk
  have hew : catWidth (pfdCat blk) = 8 * 2 ^ pfdCat blk := Nat.shiftLeft_eq ..
  refine ⟨fun _ => pfdChoose_rejects, pfdChoose_accepts hk, ?_, ?_⟩
  · rw [pfdEncode_of_lt hk, pfdHeader_eq_ofNat (by omega) ((pfdCat_le blk).trans_lt (by decide))
      ((headD_pos_le hl _).trans_lt (by decide)), hew]
    simp [packMain, groupOf, group]
  · rw [length_exc hl, ← hew]
    exact length_pfdEmit hl hk

/-- Settles O54: packing at width 32 changes no word. -/
theorem widthThirtyTwoPathIsVerbatim : Obligations.WidthThirtyTwoPathIsVerbatim := by
  intro blk hl h
  have hcat := pfdCat_of_choose_eq hl h
  have henc : pfdEncode blk = 0x0000E880 :: blk := by
    rw [pfdEncode_of_eq h, hcat, show pfdHeader 14 2 128 = 0x0000E880 by decide]
  refine ⟨hcat, henc, by rw [henc, List.length_cons, hl], ?_⟩
  rw [packMain_width_32 hl, show pfdHeader 14 2 128 = 0x0000E880 by decide]

section
variable {blk : List Word} (hl : blk.length = 128)
include hl

/-- At most 12 exceptions of at most 32 bits, and a main array of at most 80 words (R205 (a)). -/
theorem length_pfdEncode_bounds_of_lt (h : pfdChoose blk < 14) :
    9 ≤ (pfdEncode blk).length ∧ (pfdEncode blk).length ≤ 93 := by
  have hb := cand_lt _ h
  have hew := catWidth_mem _ (pfdCat_le blk)
  have hn := pfdChoose_accepts h
  rw [length_exc hl] at hn
  have hbits : (scan blk (cand (pfdChoose blk))).pos.length * catWidth (pfdCat blk) ≤ 12 * 32 :=
    Nat.mul_le_mul hn (by omega)
  rw [pfdEncode, length_pfdEmit hl h, wordsFor]
  omega

theorem length_pfdEncode_bounds : 9 ≤ (pfdEncode blk).length ∧ (pfdEncode blk).length ≤ 129 := by
  refine ⟨?_, length_pfdEncode_le hl⟩
  rcases pfdChoose_lt_or_eq blk with h | h
  · exact (length_pfdEncode_bounds_of_lt hl h).1
  · rw [pfdEncode_of_eq h, List.length_cons, hl]
    decide

/-- A block of Values below 4 has no exceptions at the smallest width, 2 (R205 (c)). -/
theorem pfdEncode_of_lt_four (h4 : ∀ v ∈ blk, v.toNat < 4) : pfdEncode blk = 0x00000080 :: packMain blk 2 := by
  have hchoose : pfdChoose blk = 0 := Nat.le_zero.1 (pfdChoose_le_of_lt hl h4)
  have hcat : pfdCat blk = 0 := (categoryIsThatOfTheLargestValue blk).1.2 fun v hv => (h4 v hv).trans (by decide)
  have hscan := scan_spec (cand 0) hl
  have hnil := hscan.pos_eq_nil hl h4
  have hexc : (scan blk (cand 0)).exc = [] := by rw [hscan.exc_eq, hnil, List.map_nil]
  rw [pfdEncode_of_lt (by omega), hchoose, hcat, hnil, hexc, hscan.work_eq hl hnil,
    show packn [] (catWidth 0) = [] by decide, List.append_nil, show cand 0 = 2 by decide,
    show pfdHeader 0 0 ([].headD 128) = 0x00000080 by decide]

end

/-- Settles O55: a length of 129 is above the bound for the widths below 32. -/
theorem encodedBlockLengths : Obligations.EncodedBlockLengths := by
  refine ⟨fun blk hl => ?_, fun blk hl h4 => ?_, ?_⟩
  · obtain ⟨hlow, hhigh⟩ := length_pfdEncode_bounds hl
    refine ⟨hlow, hhigh, fun h129 => ?_, fun h => (length_pfdEncode_bounds_of_lt hl h).2⟩
    refine (pfdChoose_lt_or_eq blk).resolve_left fun h => ?_
    have := (length_pfdEncode_bounds_of_lt hl h).2
    omega
  · have henc := pfdEncode_of_lt_four hl h4
    exact ⟨henc, by rw [henc, List.length_cons, length_packMain hl]⟩
  · rw [pfdEncode_of_lt_four (by simp) (by simp)]
    decide

/-! ### Reading the main array and the side list (42_pfordelta.md R211, R213) -/

theorem readWords_eq_some {rd : Nat → Option Word} {ws : List Word} {a : Nat}
    (h : ∀ i < ws.length, rd (a + i) = ws[i]?) : readWords rd a ws.length = some ws := by
  induction ws generalizing a with
  | nil => rfl
  | cons w ws ih =>
    have hrest (i : Nat) (hi : i < ws.length) : rd (a + 1 + i) = ws[i]? := by
      rw [Nat.add_assoc, Nat.add_comm 1, h (i + 1) (Nat.succ_lt_succ hi), List.getElem?_cons_succ]
    have hfirst : rd a = some w := h 0 (Nat.succ_pos _)
    simp [readWords, hfirst, ih hrest]

/-- A side-list entry of a width that divides 32 is the packed element of its index. -/
theorem excEntry_eq_unpackElem {rd : Nat → Option Word} {base ew j : Nat} {words : List Word}
    (hew : ew = 8 ∨ ew = 16 ∨ ew = 32) (h : rd (base + j * ew / 32) = words[j * ew / 32]?)
    (hj : j * ew / 32 < words.length) : excEntry rd base ew j = some (unpackElem words ew j) := by
  have hone : elemStart ew j = elemEnd ew j := by
    rw [elemStart_eq_elemEnd_iff j (by omega) (by omega), elemOff]
    rcases hew with rfl | rfl | rfl <;> omega
  rw [excEntry, h, List.getElem?_eq_getElem hj, unpackElem, if_pos hone, elemOff, elemStart,
    List.getD_eq_getElem _ _ hj, Option.map_some]

/-- A packed side list is read back entry by entry. -/
theorem excEntry_packn {rd : Nat → Option Word} {base ew j : Nat} {exc : List Word}
    (hew : ew = 8 ∨ ew = 16 ∨ ew = 32) (hfit : ∀ v ∈ exc, v.toNat < 2 ^ ew)
    (h : ∀ i < (packn exc ew).length, rd (base + i) = (packn exc ew)[i]?) (hj : j < exc.length) :
    excEntry rd base ew j = some exc[j] := by
  have hin : j * ew / 32 < (packn exc ew).length := by
    rw [length_packn, wordsFor]
    rcases hew with rfl | rfl | rfl <;> omega
  rw [excEntry_eq_unpackElem hew (h _ hin) hin, ← getD_unpackn hj (by omega), unpackn_packn_of_lt (by omega) hfit,
    List.getD_eq_getElem _ _ hj]

/-! ### The chain walk, hop by hop (R212) -/

section
variable (rd : Nat → Option Word) (base ew : Nat)

theorem pfdWalk_of_ge (fuel : Nat) (vals : List Word) {s : Nat} (n : Nat) (hs : block ≤ s) :
    pfdWalk rd base ew fuel vals s n = some (vals, n) := by
  cases fuel with
  | zero => rfl
  | succ fuel => exact if_neg hs.not_gt

/-- From position `s`, `128 - s` steps are enough, and more change nothing. -/
theorem pfdWalk_fuel {f g : Nat} (vals : List Word) {s : Nat} (n : Nat) (hf : block ≤ s + f) (hg : block ≤ s + g) :
    pfdWalk rd base ew f vals s n = pfdWalk rd base ew g vals s n := by
  induction f generalizing g vals s n with
  | zero => rw [pfdWalk_of_ge (s := s) (hs := hf), pfdWalk_of_ge (s := s) (hs := hf)]
  | succ f ih =>
    cases g with
    | zero => rw [pfdWalk_of_ge (s := s) (hs := hg), pfdWalk_of_ge (s := s) (hs := hg)]
    | succ g =>
      rw [pfdWalk, pfdWalk]
      cases excEntry rd base ew n with
      | none => rfl
      | some e =>
        have hnext := ih (g := g) (vals.set s e) (s := s + (vals.getD s 0).toNat + 1) (n + 1) (by omega) (by omega)
        simp only [hnext]

/-- One hop: the entry takes the place of the stored value, which gives the length of the hop. -/
theorem pfdWalk_of_lt (vals : List Word) {s : Nat} (n : Nat) (hs : s < block) : pfdWalk rd base ew block vals s n =
    (excEntry rd base ew n).bind fun e =>
      pfdWalk rd base ew block (vals.set s e) (s + (vals.getD s 0).toNat + 1) (n + 1) := by
  change pfdWalk rd base ew (127 + 1) vals s n = _
  rw [pfdWalk, if_pos hs]
  cases excEntry rd base ew n with
  | none => rfl
  | some e => exact pfdWalk_fuel rd base ew _ _ (by rw [block]; omega) (by omega)

end

/-- Settles O56: one hop, with the entry cut from its word by a shift and a mask. -/
theorem chainWalkGoesHopByHop : Obligations.ChainWalkGoesHopByHop := by
  intro rd base ew vals s n _ hew
  refine ⟨pfdWalk_of_ge rd base ew 128 vals n, fun hs => ?_⟩
  rw [← block, pfdWalk_of_lt rd base ew vals n hs, excEntry]
  cases rd (base + n * ew / 32) with
  | none => rfl
  | some w =>
    have hcut := ofNat_mod_eq_and_mask (show ew ≤ 32 by omega) (w >>> (32 - n * ew % 32 - ew))
    rw [BitVec.toNat_ushiftRight, Nat.shiftRight_eq_div_pow] at hcut
    simp only [hcut, Option.map_some, Option.bind_some]

/-! ### The walk along the exceptions of a scan (R197, R218) -/

/-- The positions `ps` of an array are a chain from `s`: each stores the hop to the next, the last one a hop out of the
block. -/
def Chain (work : List Word) : Nat → List Nat → Prop
  | s, [] => block ≤ s
  | s, p :: ps => s = p ∧ p < block ∧ Chain work (p + (work.getD p 0).toNat + 1) ps

/-- The array `vals` with `value p` at each position `p` of `ps`. -/
def putValues (value : Nat → Word) (ps : List Nat) (vals : List Word) : List Word :=
  ps.foldl (fun l p => l.set p (value p)) vals

@[simp] theorem putValues_nil (value : Nat → Word) (vals : List Word) : putValues value [] vals = vals := rfl

@[simp] theorem putValues_cons (value : Nat → Word) (p : Nat) (ps : List Nat) (vals : List Word) :
    putValues value (p :: ps) vals = putValues value ps (vals.set p (value p)) := rfl

@[simp] theorem length_putValues (value : Nat → Word) (ps : List Nat) (vals : List Word) :
    (putValues value ps vals).length = vals.length := by
  induction ps generalizing vals with
  | nil => rfl
  | cons p ps ih => rw [putValues_cons, ih, List.length_set]

theorem getD_putValues {value : Nat → Word} {vals : List Word} {i : Nat} (ps : List Nat) (hi : i < vals.length) :
    (putValues value ps vals).getD i 0 = if i ∈ ps then value i else vals.getD i 0 := by
  induction ps generalizing vals with
  | nil => simp
  | cons p ps ih =>
    rw [putValues_cons, ih (by rwa [List.length_set]), getD_set]
    by_cases hp : i = p
    · subst hp
      simp [hi]
    · simp [hp]

/-- The walk along a chain puts the side list at its positions. -/
theorem pfdWalk_of_chain {rd : Nat → Option Word} {base ew : Nat} {work vals : List Word} {s n : Nat} {ps : List Nat}
    {value : Nat → Word} (hchain : Chain work s ps) (hrest : ∀ j, s ≤ j → vals.getD j 0 = work.getD j 0)
    (hentry : ∀ j (h : j < ps.length), excEntry rd base ew (n + j) = some (value ps[j])) :
    pfdWalk rd base ew block vals s n = some (putValues value ps vals, n + ps.length) := by
  induction ps generalizing vals s n with
  | nil => exact pfdWalk_of_ge rd base ew block vals n hchain
  | cons p ps ih =>
    obtain ⟨rfl, hs, hchain⟩ := hchain
    have hfirst : excEntry rd base ew n = some (value s) := hentry 0 (Nat.succ_pos _)
    rw [pfdWalk_of_lt rd base ew vals n hs, hfirst, Option.bind_some, hrest s le_rfl, ih hchain]
    · rw [putValues_cons, List.length_cons, Nat.add_assoc, Nat.add_comm 1]
    · intro j hj
      rw [getD_set, if_neg (by omega), hrest j (by omega)]
    · intro j hj
      rw [Nat.add_assoc, Nat.add_comm 1]
      exact hentry (j + 1) (Nat.succ_lt_succ hj)

theorem chain_of_hops {work : List Word} {ps : List Nat} (hlt : ∀ p ∈ ps, p < block)
    (hhop : ∀ n (h : n + 1 < ps.length), ps[n] + (work.getD ps[n] 0).toNat + 1 = ps[n + 1])
    (hlast : ∀ p, ps.getLast? = some p → block ≤ p + (work.getD p 0).toNat + 1) :
    Chain work (ps.headD block) ps := by
  induction ps with
  | nil => exact le_rfl
  | cons p ps ih =>
    refine ⟨rfl, hlt p List.mem_cons_self, ?_⟩
    cases ps with
    | nil => exact hlast p rfl
    | cons q qs =>
      rw [show p + (work.getD p 0).toNat + 1 = q from hhop 0 (by simp)]
      exact ih (fun r hr => hlt r (List.mem_cons_of_mem p hr)) (fun n hn => hhop (n + 1) (Nat.succ_lt_succ hn))
        (fun r hr => hlast r (by rwa [List.getLast?_cons_cons]))

section
variable {b : Nat} {blk : List Word} {r : ScanState} (h : ScanSpec b blk r)
include h

/-- The exceptions of a scan are a chain from the first of them (R197, R199). -/
theorem ScanSpec.chain (hb : b ≤ 32) : Chain r.work (r.pos.headD block) r.pos := by
  refine chain_of_hops h.below (fun n hn => ?_) fun p hp => ?_
  · have := h.toNat_hop hn
    have := h.getElem_lt_getElem (Nat.lt_add_one n) hn
    omega
  · have hlast := h.toNat_last hb hp
    have := Nat.two_pow_pos b
    simp only [block]
    omega

/-- The true Values of the exceptions put back into the working array give the block (R218). -/
theorem ScanSpec.putValues_work (hl : blk.length = 128) : putValues (fun p => blk.getD p 0) r.pos r.work = blk := by
  refine List.ext_getElem (by rw [length_putValues, h.length_work, hl, block]) fun i hi hi' => ?_
  have hw : i < r.work.length := by rwa [length_putValues] at hi
  rw [← List.getD_eq_getElem _ 0 hi, ← List.getD_eq_getElem _ 0 hi', getD_putValues _ hw]
  split
  · rfl
  · next hmem => exact h.plain i (hw.trans_eq h.length_work) hmem

/-- The walk over the working array with the packed side list gives the block and uses every entry (R218). -/
theorem ScanSpec.pfdWalk_work (hl : blk.length = 128) (hb : b ≤ 32) {rd : Nat → Option Word} {base : Nat}
    (hrd : ∀ i < (packn r.exc (catWidth (pfdCat blk))).length,
      rd (base + i) = (packn r.exc (catWidth (pfdCat blk)))[i]?) :
    pfdWalk rd base (catWidth (pfdCat blk)) block r.work (r.pos.headD block) 0 = some (blk, r.pos.length) := by
  have hentry (j : Nat) (hj : j < r.pos.length) :
      excEntry rd base (catWidth (pfdCat blk)) (0 + j) = some (blk.getD r.pos[j] 0) := by
    have hj' : j < r.exc.length := by rwa [h.exc_eq, List.length_map]
    rw [Nat.zero_add, excEntry_packn (catWidth_mem _ (pfdCat_le blk))
      (fun v hv => toNat_lt_catWidth (h.mem_of_mem_exc hl hv)) hrd hj']
    simp only [h.exc_eq, List.getElem_map]
  rw [pfdWalk_of_chain (value := fun p => blk.getD p 0) (h.chain hb) (fun _ _ => rfl) hentry, h.putValues_work hl,
    Nat.zero_add]

end

/-! ### Decoding an encoded block (R218) -/

theorem pfdDecode_eq_some {rd : Nat → Option Word} {h : PfdHeader} {main vals : List Word} {k c n : Nat}
    (hk : h.widx.toNat = k) (hc : h.cat.toNat = c) (hmain : ∀ i < main.length, rd (1 + i) = main[i]?)
    (hlen : main.length = 4 * cand k) (hwalk : pfdWalk rd (1 + 4 * cand k) (catWidth c) block (unpackMain main (cand k))
      h.start.toNat 0 = some (vals, n)) :
    pfdDecode rd h = some (vals, 1 + 4 * cand k + wordsFor (n * catWidth c)) := by
  have hread := readWords_eq_some hmain
  rw [hlen] at hread
  simp only [pfdDecode, hk, hc, hread, hwalk, Option.map_some]

section
variable {blk : List Word} (hl : blk.length = 128)
include hl

theorem headerReserved_head_pfdEncode : headerReserved (pfdHeaderOf ((pfdEncode blk).getD 0 0)).cat
    (pfdHeaderOf ((pfdEncode blk).getD 0 0)).widx = false := by
  obtain ⟨-, hwidx, hcat, -⟩ := fields_head_pfdEncode hl
  have hk := pfdChoose_le blk
  have hc := pfdCat_le blk
  rw [← Bool.not_eq_true, headerReserved_iff]
  omega

theorem toNat_fields_head_pfdEncode : (pfdHeaderOf ((pfdEncode blk).getD 0 0)).widx.toNat = pfdChoose blk ∧
    (pfdHeaderOf ((pfdEncode blk).getD 0 0)).cat.toNat = pfdCat blk ∧
    (pfdHeaderOf ((pfdEncode blk).getD 0 0)).start.toNat = pfdStart blk := by
  simpa only [field_widx, field_cat, field_start] using (fields_head_pfdEncode hl).2

/-- Below width 32 the main array unpacks to the working array, and the walk puts the side list back. -/
theorem pfdDecode_pfdEncode_of_lt (hlt : pfdChoose blk < 14) :
    pfdDecode (fun i => (pfdEncode blk)[i]?) (pfdHeaderOf ((pfdEncode blk).getD 0 0)) =
      some (blk, (pfdEncode blk).length) := by
  obtain ⟨hk, hc, hstart⟩ := toNat_fields_head_pfdEncode hl
  have h := scan_spec (cand (pfdChoose blk)) hl
  have hb : cand (pfdChoose blk) ≤ 32 := (cand_lt _ hlt).2.trans (by decide)
  have hlen := length_packMain h.length_work (cand (pfdChoose blk))
  have hout : (pfdEncode blk).length = _ := length_pfdEmit hl hlt
  rw [hout]
  refine pfdDecode_eq_some hk hc (main := packMain (scan blk (cand (pfdChoose blk))).work (cand (pfdChoose blk)))
    (fun i hi => ?_) hlen ?_
  · rw [pfdEncode_of_lt hlt, Nat.add_comm, List.getElem?_cons_succ, List.getElem?_append_left hi]
  · rw [unpackMain_packMain h.length_work hb fun _ => h.toNat_work_lt hb, hstart, pfdStart, if_pos hlt]
    refine h.pfdWalk_work hl hb fun i _ => ?_
    rw [pfdEncode_of_lt hlt, Nat.add_assoc, Nat.add_comm, List.getElem?_cons_succ, ← hlen,
      List.getElem?_append_right (Nat.le_add_right ..), Nat.add_sub_cancel_left]

/-- At width 32 the words after the header are the block, and there is no exception. -/
theorem pfdDecode_pfdEncode_of_eq (heq : pfdChoose blk = 14) :
    pfdDecode (fun i => (pfdEncode blk)[i]?) (pfdHeaderOf ((pfdEncode blk).getD 0 0)) =
      some (blk, (pfdEncode blk).length) := by
  obtain ⟨hk, hc, hstart⟩ := toNat_fields_head_pfdEncode hl
  rw [heq] at hk
  have hunpack : unpackMain blk (cand 14) = blk := by
    have h := unpackMain_packMain hl le_rfl fun v _ => v.isLt
    rwa [packMain_width_32 hl] at h
  have hout : (pfdEncode blk).length = 1 + 4 * cand 14 + wordsFor (0 * catWidth (pfdCat blk)) := by
    rw [pfdEncode_of_eq heq, List.length_cons, hl, Nat.zero_mul]
    rfl
  rw [hout]
  refine pfdDecode_eq_some hk hc (main := blk) (fun i _ => ?_) hl ?_
  · rw [pfdEncode_of_eq heq, Nat.add_comm, List.getElem?_cons_succ]
  · rw [hunpack]
    refine pfdWalk_of_ge _ _ _ _ _ _ ?_
    rw [hstart, pfdStart, if_neg (by omega), block]

end

/-- Settles O58: for an accepted width below 32 and for the width-32 path. -/
theorem pfdDecodeOfEncodeIsTheBlock : Obligations.PfdDecodeOfEncodeIsTheBlock := fun blk hl =>
  ⟨headerReserved_head_pfdEncode hl,
    (pfdChoose_lt_or_eq blk).elim (pfdDecode_pfdEncode_of_lt hl) (pfdDecode_pfdEncode_of_eq hl)⟩

/-! ### The decoder on any words (R211 to R217) -/

/-- Group `g` of the array stored in the words from 1 on. -/
theorem groupOf_stored (words : Nat → Word) {b g : Nat} (hb : b ≤ 32) (hg : g < 4) :
    groupOf g (unpackMain ((List.range (4 * b)).map fun i => words (1 + i)) b) =
      unpackn ((List.range b).map fun i => words (1 + g * b + i)) 32 b := by
  rw [groupOf_unpackMain _ b hg, ← unpackn_take hb]
  have hgb : g * b + b ≤ 4 * b := Nat.add_one_mul g b ▸ Nat.mul_le_mul_right b hg
  congr 1
  refine List.ext_getElem (by simp; omega) fun i _ _ => ?_
  simp [Nat.add_assoc]

/-- Settles O57: the walk over input words without end takes at most one entry per position. -/
theorem decoderIsTotalAndBounded : Obligations.DecoderIsTotalAndBounded := by
  intro words h hh
  obtain ⟨hew, hb2, hb32⟩ := widths_of_header hh
  have hwalks := pfdWalk_spec (fun i => if i < 0 then some (words i) else none) words 0 (fun _ => rfl)
    (1 + 4 * cand h.widx.toNat) (catWidth h.cat.toNat) block
    (unpackMain ((List.range (4 * cand h.widx.toNat)).map fun i => words (1 + i)) (cand h.widx.toNat)) h.start.toNat 0
    (Nat.le_add_left ..)
  obtain ⟨vals, n, -, hn, -, hwalk, -, -⟩ := hwalks
  specialize hwalk block (Nat.le_add_left ..)
  have hn128 : n ≤ 128 := by simp only [block] at hn; omega
  have hbits : n * catWidth h.cat.toNat ≤ 128 * 32 := Nat.mul_le_mul hn128 (by omega)
  refine ⟨_, vals, _, n, length_unpackMain .., fun g hg => groupOf_stored words hb32 hg, hwalk,
    pfdDecode_eq_some rfl rfl (fun i hi => ?_) (by simp) hwalk, ?_, hn128, rfl, by omega, ?_, fun hs => ?_⟩
  · rw [List.getElem?_map, List.getElem?_range (by simpa using hi), Option.map_some]
  · rw [length_pfdWalk hwalk, length_unpackMain, block]
  · rw [wordsFor]
    omega
  · rw [pfdWalk_of_ge _ _ _ _ _ _ hs] at hwalk
    cases hwalk
    exact ⟨rfl, rfl⟩

/-! ### The runs of `PFDENC`, `PFDDEC` and the header (R204, R210, R215) -/

theorem exec_pfdenc_eq (s : State) : exec .pfdenc s = .next (s.checked 128 129
    ((s.writeOutReserved (pfdEncode ((List.range 128).map (inStream s))) 129).complete
      (pfdEncode ((List.range 128).map (inStream s))).length)) := rfl

/-- What an operation leaves that completes with the words `ws` in a reserved range of `lo` words (20_memory.md R58). -/
theorem completed_holds_sameOutside_reserved (s : State) {ws : List Word} {lo : Nat} (hl : ws.length ≤ lo) :
    let t := (s.writeOutReserved ws lo).complete ws.length
    Completed s t ws.length ∧ Holds t s.dst.toNat ws ∧ SameOutside s t s.dst.toNat lo :=
  ⟨completed_writeOutReserved .., holds_writeOutReserved s ws lo, sameOutside_writeOutReserved s ws lo hl⟩

/-- Settles O29: the checks, then the encoded block written at `DST`. -/
theorem pfdencWritesTheEncodedBlock : Obligations.PfdencWritesTheEncodedBlock := by
  intro s
  obtain ⟨hlow, hhigh⟩ := length_pfdEncode_bounds (blk := (List.range 128).map (inStream s)) (by simp)
  exact checkedRun_of_checked (exec_pfdenc_eq s) ⟨hlow, hhigh, completed_holds_sameOutside_reserved s hhigh⟩

section
variable {s : State}

theorem runPfddec_of_not_inMemory (hdr : Option PfdHeader) (ho : ¬ InMemory s s.dst.toNat 128) :
    s.runPfddec hdr = s.raise .bounds 0 := by
  simp [State.runPfddec, outLen, block, (outValid_eq_false_iff ..).2 ho]

variable (ho : InMemory s s.dst.toNat 128)
include ho

theorem runPfddec_of_none : s.runPfddec none = s.raise .bounds 0 := by
  simp [State.runPfddec, outLen, block, (outValid_iff ..).2 ho]

variable {h : PfdHeader}

theorem runPfddec_of_reserved (hr : headerReserved h.cat h.widx = true) :
    s.runPfddec (some h) = s.raise .pfdHeader 0 := by
  simp [State.runPfddec, outLen, block, (outValid_iff ..).2 ho, hr]

variable (hr : headerReserved h.cat h.widx = false)
include hr

theorem runPfddec_of_decode_none (hd : pfdDecode s.readIn h = none) : s.runPfddec (some h) = s.raise .bounds 0 := by
  simp [State.runPfddec, outLen, block, (outValid_iff ..).2 ho, hr, hd]

variable {vals : List Word} {t : Nat} (hd : pfdDecode s.readIn h = some (vals, t))
include hd

theorem runPfddec_of_meet (hm : Meet s.src.toNat t s.dst.toNat 128) :
    s.runPfddec (some h) = s.raise .overlap 0 := by
  simp [State.runPfddec, outLen, block, (outValid_iff ..).2 ho, hr, hd, (overlaps_iff ..).2 hm]

theorem runPfddec_of_not_meet (hm : ¬ Meet s.src.toNat t s.dst.toNat 128) :
    s.runPfddec (some h) = (s.writeOut vals).complete t := by
  simp [State.runPfddec, outLen, block, (outValid_iff ..).2 ho, hr, hd, (overlaps_eq_false_iff ..).2 hm]

end

theorem readIn_eq_if_lt (s : State) (i : Nat) :
    s.readIn i = if i < s.memWords - s.src.toNat then some (inStream s i) else none := by
  simp [State.readIn, State.valid, inStream, Nat.lt_sub_iff_add_lt']

/-- An instruction that runs the block decoder over the words of memory from `SRC` on, with the header word `h`. -/
theorem pfddecRun_of_runPfddec {i : Instr} {s : State} {h : Word}
    (hrun : exec i s = .next (s.runPfddec (if s.valid s.src.toNat then some (pfdHeaderOf h) else none))) :
    PfddecRun i s h := by
  have hvalid : s.valid s.src.toNat = true ↔ InMemory s s.src.toNat 1 := by
    simp [State.valid, InMemory]
  rw [PfddecRun, ← headerReserved_iff]
  refine ⟨fun ho => ?output, fun ho hi => ?address, fun ho hi hr => ?reserved, fun ho hi hr => ?fields⟩
  case output => exact failsWith_of_raise (runPfddec_of_not_inMemory _ ho ▸ hrun)
  case address =>
    rw [if_neg (mt hvalid.1 hi), runPfddec_of_none ho] at hrun
    exact failsWith_of_raise hrun
  case reserved =>
    rw [if_pos (hvalid.2 hi), runPfddec_of_reserved ho hr] at hrun
    exact failsWith_of_raise hrun
  case fields =>
    rw [if_pos (hvalid.2 hi)] at hrun
    rw [Bool.not_eq_true] at hr
    obtain ⟨vals, n, hlen, -, -, htotal, hsome, hnone, -⟩ :=
      pfdDecode_spec s.readIn (inStream s) (s.memWords - s.src.toNat) (readIn_eq_if_lt s) (pfdHeaderOf h) hr
    rw [Nat.add_assoc] at htotal hsome hnone
    generalize 4 * cand (pfdHeaderOf h).widx.toNat + wordsFor (n * catWidth (pfdHeaderOf h).cat.toNat) = t
      at htotal hsome hnone
    have hin : InMemory s s.src.toNat (1 + t) ↔ 1 + t ≤ s.memWords - s.src.toNat :=
      ⟨fun hin => by have := hin t (by omega); omega, fun hle j hj => by omega⟩
    refine ⟨vals, 1 + t, htotal, hlen, fun hi => ?input, fun hi hm => ?overlap, fun hi hm => ?done⟩
    case input =>
      rw [runPfddec_of_decode_none ho hr (hnone (Nat.lt_of_not_le (mt hin.2 hi)))] at hrun
      exact failsWith_of_raise hrun
    case overlap =>
      rw [runPfddec_of_meet ho hr (hsome (hin.1 hi)) hm] at hrun
      exact failsWith_of_raise hrun
    case done =>
      rw [runPfddec_of_not_meet ho hr (hsome (hin.1 hi)) hm] at hrun
      exact ⟨_, hrun, completed_holds_sameOutside s (1 + t) rfl⟩

/-- Settles O30: the header is the first input word. -/
theorem pfddecWritesTheDecodedBlock : Obligations.PfddecWritesTheDecodedBlock := fun s =>
  pfddecRun_of_runPfddec (by
    simp only [exec, execPfddec, State.readIn, Nat.add_zero, inStream]
    split <;> rfl)

/-- Settles O32: the header that is run has the fields of its word. -/
theorem headerRunsAsTheHeaderOfItsBlock : Obligations.HeaderRunsAsTheHeaderOfItsBlock := fun start cat widx s =>
  pfddecRun_of_runPfddec (by rw [encode, pfdHeaderOf_encodePfdh]; rfl)

end Sys2Proof.Machine
end

section
/-! The settled statements of `60_exceptions.md`: every word answers a next state, an error is precise and comes only
from the words that can raise it, and `STATUS` does not change what an operation does. -/

namespace Sys2Proof.Machine

/-! ### The codes of the errors (60_exceptions.md R241) -/

theorem OpError.code_mem (e : OpError) : e.code = 1 ∨ e.code = 2 ∨ e.code = 3 ∨ e.code = 4 ∨ e.code = 5 := by
  cases e <;> decide

theorem OpError.code_injective : Function.Injective OpError.code := by
  intro e e' h
  cases e <;> cases e' <;> revert h <;> decide

/-! ### The ways two runs end that begin with different words in `STATUS` (60_exceptions.md R241, R251) -/

/-- The errors that the run of a word can end in (60_exceptions.md R241; for codewords, headers and wide terms, logs 9
and 14). -/
def CanRaise (i : Instr) : OpError → Prop
  | .illegal => ∃ bits, (i = .pack bits ∨ i = .unpack bits) ∧ 32 < bits.toNat
  | .bounds | .overlap => True
  | .s16Range => i = .s16enc
  | .pfdHeader => i = .pfddec ∨ formatOf i = .pfdh

theorem CanRaise.of_code_eq {i : Instr} {e e' : OpError} (h : CanRaise i e) (hcode : e.code = e'.code) :
    CanRaise i e' :=
  OpError.code_injective hcode ▸ h

/-- The four ways of `Ends`, for the runs of `i` from two states side by side: both end the same way, with the same
words written, and an error is one that `i` can raise. -/
inductive EndAlike (i : Instr) (s s' : State) : State → State → Prop where
  | refused (e : OpError) (hi : CanRaise i e) : EndAlike i s s' (s.raise e 0) (s'.raise e 0)
  | wrote (ws : List Word) (res : Nat) :
      EndAlike i s s' ((s.writeOut ws).complete res) ((s'.writeOut ws).complete res)
  | filled (ws : List Word) (lo : Nat) :
      EndAlike i s s' ((s.writeOutReserved ws lo).complete ws.length) ((s'.writeOutReserved ws lo).complete ws.length)
  | partly (ws : List Word) (lo : Nat) (hi : CanRaise i .s16Range) :
      EndAlike i s s' ((s.writeOutReserved ws lo).raise .s16Range ws.length)
        ((s'.writeOutReserved ws lo).raise .s16Range ws.length)

section
variable {i : Instr} {s s' : State}

theorem EndAlike.bounds : EndAlike i s s' (s.raise .bounds 0) (s'.raise .bounds 0) := .refused _ trivial

theorem EndAlike.overlap : EndAlike i s s' (s.raise .overlap 0) (s'.raise .overlap 0) := .refused _ trivial

variable (hshell : SameShell s s')
include hshell

theorem endAlike_checked {li lo : Nat} {done done' : State} (hdone : EndAlike i s s' done done') :
    EndAlike i s s' (s.checked li lo done) (s'.checked li lo done') := by
  unfold State.checked
  rw [outValid_congr hshell, inValid_congr hshell, overlaps_congr hshell]
  split
  · exact .bounds
  · split
    · exact .bounds
    · split
      · exact .overlap
      · exact hdone

theorem endAlike_runS16dec (slots : Nat → Option (List Word)) :
    EndAlike i s s' (s.runS16dec slots) (s'.runS16dec slots) := by
  unfold State.runS16dec
  simp only [count_congr hshell, outValid_congr hshell, overlaps_congr hshell]
  split
  · exact .bounds
  · split
    · exact .bounds
    · split
      · exact .overlap
      · exact .wrote _ _

theorem endAlike_runPfddec (hi : i = .pfddec ∨ formatOf i = .pfdh) (hread : s'.readIn = s.readIn)
    (hdr : Option PfdHeader) : EndAlike i s s' (s.runPfddec hdr) (s'.runPfddec hdr) := by
  unfold State.runPfddec
  rw [hread, show outLen .pfddec s' = outLen .pfddec s from rfl, outValid_congr hshell]
  split
  · exact .bounds
  · split
    · exact .bounds
    · split
      · exact .refused .pfdHeader hi
      · split
        · exact .bounds
        · rw [overlaps_congr hshell]
          split
          · exact .overlap
          · exact .wrote _ _

end

/-! ### The runs of a word from two states that differ in `STATUS` -/

section
variable {s t t' : State} {w : Word}

theorem sameShell_status (s : State) (w : Word) : SameShell s { s with status := w } :=
  ⟨rfl, rfl, rfl, rfl, rfl, rfl, rfl, rfl⟩

theorem endAlike_pack {bits : BitVec 6} (ht : exec (.pack bits) s = .next t)
    (ht' : exec (.pack bits) { s with status := w } = .next t') :
    EndAlike (.pack bits) s { s with status := w } t t' := by
  simp only [exec, execPack, Host.Outcome.next.injEq] at ht ht'
  subst ht ht'
  split
  · exact endAlike_checked (sameShell_status s w) (.wrote _ _)
  · next h => exact .refused .illegal ⟨bits, .inl rfl, Nat.lt_of_not_le h⟩

theorem endAlike_unpack {bits : BitVec 6} (ht : exec (.unpack bits) s = .next t)
    (ht' : exec (.unpack bits) { s with status := w } = .next t') :
    EndAlike (.unpack bits) s { s with status := w } t t' := by
  simp only [exec, execUnpack, Host.Outcome.next.injEq] at ht ht'
  subst ht ht'
  split
  · exact endAlike_checked (sameShell_status s w) (.wrote _ _)
  · next h => exact .refused .illegal ⟨bits, .inr rfl, Nat.lt_of_not_le h⟩

theorem endAlike_s16enc (ht : exec .s16enc s = .next t) (ht' : exec .s16enc { s with status := w } = .next t') :
    EndAlike .s16enc s { s with status := w } t t' := by
  simp only [exec, execS16enc, Host.Outcome.next.injEq] at ht ht'
  subst ht ht'
  rw [show ({ s with status := w } : State).input s.count.toNat = s.input s.count.toNat from rfl]
  refine endAlike_checked (sameShell_status s w) ?_
  split
  · exact .filled _ _
  · exact .partly _ _ rfl

theorem endAlike_pfdenc (ht : exec .pfdenc s = .next t) (ht' : exec .pfdenc { s with status := w } = .next t') :
    EndAlike .pfdenc s { s with status := w } t t' := by
  simp only [exec, execPfdenc, Host.Outcome.next.injEq] at ht ht'
  subst ht ht'
  exact endAlike_checked (sameShell_status s w) (.filled _ _)

/-- No check and no value read depends on `STATUS` (60_exceptions.md R251). -/
theorem exec_endAlike {i : Instr} (ht : exec i s = .next t) (ht' : exec i { s with status := w } = .next t') :
    EndAlike i s { s with status := w } t t' := by
  have hshell : SameShell s { s with status := w } := sameShell_status s w
  cases i
  case pack => exact endAlike_pack ht ht'
  case unpack => exact endAlike_unpack ht ht'
  case s16enc => exact endAlike_s16enc ht ht'
  case pfdenc => exact endAlike_pfdenc ht ht'
  case pfddec => cases ht; cases ht'; exact endAlike_runPfddec hshell (.inl rfl) rfl _
  case pfdh => cases ht; cases ht'; exact endAlike_runPfddec hshell (.inr rfl) rfl _
  all_goals cases ht; cases ht'; exact endAlike_runS16dec hshell _

/-- The runs agree in `ERR`, and in the whole state but for `STATUS`. -/
theorem EndAlike.same_but_status {i : Instr} (h : EndAlike i s { s with status := w } t t') :
    t'.err = t.err ∧ { t' with status := t.status } = t := by
  cases h <;> exact ⟨by simp, rfl⟩

end

/-! ### The statements -/

/-- A run that ends in an error raised one the word can raise; memory was written only if it is `E_S16_RANGE`
(60_exceptions.md R244). -/
theorem exec_error {i : Instr} {s t : State} (ht : exec i s = .next t) (herr : t.err ≠ 0) :
    ∃ e, CanRaise i e ∧ t.err = e.code ∧ t.serr = true ∧
      (e ≠ .s16Range → t.result = 0 ∧ ∀ a, t.memWord a = s.memWord a) := by
  have h : EndAlike i s s t t := exec_endAlike (w := s.status) ht ht
  cases h with
  | refused e hi => exact ⟨e, hi, by simp, by simp, fun _ => ⟨rfl, fun _ => rfl⟩⟩
  | wrote ws res => exact absurd (State.err_complete ..) herr
  | filled ws lo => exact absurd (State.err_complete ..) herr
  | partly ws lo hi => exact ⟨.s16Range, hi, by simp, by simp, fun he => absurd rfl he⟩

/-- Settles O18. -/
theorem everyWordAnswersANextState : Obligations.EveryWordAnswersANextState := exists_exec_next

/-- Settles O21: the error is one the word can raise, and its code names it. -/
theorem errorsArePreciseAndNamed : Obligations.ErrorsArePreciseAndNamed := by
  intro i s t ht herr
  obtain ⟨e, hi, hcode, hserr, hprecise⟩ := exec_error ht herr
  rw [hcode]
  exact ⟨hserr, e.code_mem, hi.of_code_eq (e' := .illegal), hi.of_code_eq (e' := .s16Range),
    hi.of_code_eq (e' := .pfdHeader), fun h4 => hprecise (by rintro rfl; exact h4 rfl)⟩

/-- Settles O22: the two runs end alike, and `SERR` after each is what `Ends.serr` says. -/
theorem statusDoesNotChangeAnOperation : Obligations.StatusDoesNotChangeAnOperation := by
  intro i s t ht
  refine ⟨(exec_ends ht).serr, fun w => ?_⟩
  obtain ⟨t', ht'⟩ := exists_exec_next i { s with status := w }
  obtain ⟨herr, hrest⟩ := (exec_endAlike ht ht').same_but_status
  exact ⟨t', ht', herr, herr ▸ (exec_ends ht').serr, hrest⟩

end Sys2Proof.Machine
end

section
/-! The settled statements of `70_reset_and_hazards.md`: the reset event, and what `SERR` says of a run that has gone
wrong. -/

namespace Sys2Proof.Machine

/-! ### The reset event (70_reset_and_hazards.md R270) -/

/-- Settles O2: the step is the reset event; no address is listed in memory after it, so each reads as a free word. -/
theorem resetEventClearsRegistersAndForgetsMemory : Obligations.ResetEventClearsRegistersAndForgetsMemory := by
  intro s rest hp
  have hmem (a : Nat) : ({ s with pending := rest } : State).resetEvent.mem.lookup a = none := Memory.lookup_nil a
  exact ⟨_, step_cons hp, rfl, rfl, rfl, rfl, rfl, rfl, fun a => ⟨hmem a, memWord_of_lookup_eq_none (hmem a)⟩,
    rfl, rfl, rfl, rfl⟩

/-! ### One step of a run (10_state.md R29, 70_reset_and_hazards.md R277) -/

section
variable {s t u : State} {j k : Nat}

theorem not_wentWrong_zero : ¬ WentWrong 0 s := fun ⟨_, hj, _⟩ => absurd hj (Nat.not_lt_zero _)

/-- A run goes wrong in its first step or after it. -/
theorem wentWrong_succ (hs : step s = .next u) : WentWrong (k + 1) s ↔ CommandFails s ∨ WentWrong k u := by
  constructor
  · rintro ⟨j, hj, v, hrun, hfail⟩
    cases j with
    | zero =>
      cases hrun
      exact .inl hfail
    | succ j =>
      obtain ⟨u', hs', hrun⟩ := (core_run_succ j s v).1 hrun
      obtain rfl : u = u' := Host.Outcome.next.inj (hs.symm.trans hs')
      exact .inr ⟨j, Nat.lt_of_succ_lt_succ hj, v, hrun, hfail⟩
  · rintro (hfail | ⟨j, hj, v, hrun, hfail⟩)
    · exact ⟨0, Nat.succ_pos k, s, rfl, hfail⟩
    · exact ⟨j + 1, Nat.succ_lt_succ hj, v, (core_run_succ j s v).2 ⟨u, hs, hrun⟩, hfail⟩

/-- The failing command of a run is one of every longer run. -/
theorem WentWrong.mono (hjk : j ≤ k) : WentWrong j s → WentWrong k s :=
  fun ⟨i, hi, hfail⟩ => ⟨i, hi.trans_le hjk, hfail⟩

/-- A run never clears `SERR` if neither its first step does nor the run after it. -/
theorem neverCleared_succ (hs : step s = .next u) :
    NeverCleared (k + 1) s ↔ NeverCleared 1 s ∧ NeverCleared k u := by
  have hpend : u.pending = s.pending.tail := (step_pending_memWords hs).1
  unfold NeverCleared
  rw [hpend]
  cases s.pending <;> simp

/-- Only a command that ends in an error sets `SERR`. -/
theorem serr_or_commandFails_of_step (hs : step s = .next t) (hset : t.serr = true) :
    s.serr = true ∨ CommandFails s := by
  rcases step_serr hs with ⟨-, hclear⟩ | ⟨v, -, -, hclear⟩ | ⟨-, hkept⟩ | ⟨hfail, -⟩
  · rw [hclear] at hset
    cases hset
  · rw [hclear] at hset
    cases hset
  · exact .inl (hkept ▸ hset)
  · exact .inr hfail

/-- A step that is neither a reset nor a write of `STATUS` with bit 4 set keeps `SERR` or sets it. -/
theorem serr_step_iff (hs : step s = .next t) (hnc : NeverCleared 1 s) :
    t.serr = true ↔ s.serr = true ∨ CommandFails s := by
  have hfirst {h : HostStep} (hh : s.pending.head? = some h) : h ∈ s.pending.take 1 := by
    simp [List.take_one, hh]
  refine ⟨serr_or_commandFails_of_step hs, fun hset => ?_⟩
  rcases step_serr hs with ⟨hreset, -⟩ | ⟨v, hwrite, hbit, -⟩ | ⟨hok, hkept⟩ | ⟨-, hraised⟩
  · exact absurd rfl (hnc _ (hfirst hreset)).1
  · have hbit' : v.getLsbD 4 = false := (hnc _ (hfirst hwrite)).2 v rfl
    rw [hbit] at hbit'
    cases hbit'
  · exact hkept ▸ hset.resolve_right hok
  · exact hraised

/-! ### Along a run -/

/-- `SERR` is set at the end of a run only if it was set at its start or some command of the run ended in an error. -/
theorem serr_or_wentWrong_of_run (hrun : core.run k s = .next t) (hset : t.serr = true) :
    s.serr = true ∨ WentWrong k s := by
  induction k generalizing s with
  | zero =>
    cases hrun
    exact .inl hset
  | succ k ih =>
    obtain ⟨u, hs, hrun⟩ := (core_run_succ k s t).1 hrun
    rw [wentWrong_succ hs, ← or_assoc]
    exact (ih hrun).imp_left (serr_or_commandFails_of_step hs)

/-- If the host never clears `SERR`, it is set at the end of exactly these runs. -/
theorem serr_run_iff (hrun : core.run k s = .next t) (hnc : NeverCleared k s) :
    t.serr = true ↔ s.serr = true ∨ WentWrong k s := by
  induction k generalizing s with
  | zero =>
    cases hrun
    exact (or_iff_left not_wentWrong_zero).symm
  | succ k ih =>
    obtain ⟨u, hs, hrun⟩ := (core_run_succ k s t).1 hrun
    obtain ⟨hfirst, hrest⟩ := (neverCleared_succ hs).1 hnc
    rw [ih hrun hrest, serr_step_iff hs hfirst, wentWrong_succ hs, or_assoc]

end

/-! ### The statements -/

/-- Settles O16: going wrong passes to longer runs, and `SERR` shows it as long as it is never cleared. -/
theorem aRunThatWentWrongStaysWrong : Obligations.ARunThatWentWrongStaysWrong := fun _ _ _ _ hjk hrun =>
  ⟨WentWrong.mono hjk, fun hnc h => (serr_run_iff hrun hnc).2 (h.imp_right (WentWrong.mono hjk))⟩

/-- Settles O17: with `SERR` clear at the start, that it is set at the end leaves only that the run went wrong. -/
theorem aRunWentWrongIffSomeCommandEndedInError : Obligations.ARunWentWrongIffSomeCommandEndedInError := by
  intro k s t hclear hrun
  have hstart : ¬ s.serr = true := Bool.eq_false_iff.1 hclear
  refine ⟨fun hset => (serr_or_wentWrong_of_run hrun hset).resolve_left hstart, fun hnc => ?_⟩
  have hwrong : WentWrong k s ↔ t.serr = true := (or_iff_right hstart).symm.trans (serr_run_iff hrun hnc).symm
  refine ⟨hwrong, fun ⟨_, _, hend, _⟩ => hend, fun hend => ⟨hclear, hrun, hend, fun hw => ?_⟩⟩
  exact Bool.eq_false_iff.1 hend (hwrong.1 hw)

/-- `SERR` is clear, and the host is about to write the command `PACK 5` and to read `STATUS`. -/
def packThenStatus : State := Tests.quiet [.regWrite 0 0x051, .regRead 4]

theorem neverCleared_packThenStatus : NeverCleared 2 packThenStatus := by
  simp [NeverCleared, packThenStatus, Tests.quiet, Tests.busy]

/-- A clean run, known to be one by its `SERR`. -/
theorem exists_cleanRun : ∃ t, CleanRun 2 packThenStatus t := by
  obtain ⟨t, hrun, hend⟩ : ∃ t, core.run 2 packThenStatus = .next t ∧ t.serr = false := ⟨_, rfl, by decide⟩
  obtain ⟨-, hiff⟩ := aRunWentWrongIffSomeCommandEndedInError 2 packThenStatus t (by decide) hrun
  exact ⟨t, (hiff neverCleared_packThenStatus).2.2 hend⟩

end Sys2Proof.Machine
end

section
/-! The settled statements of `30_encoding.md` on the decoder and the encoder: each undoes the other on the words of
each of the three formats. -/

namespace Sys2Proof.Machine

/-- Settles O3. -/
theorem sampleWordsDecode : Obligations.SampleWordsDecode := by
  unfold Obligations.SampleWordsDecode
  decide

/-! ### The command word (30_encoding.md R81, R82) -/

/-- The two fields of a command word do not overlap. -/
theorem encodeCmd_eq_ofNat {op : Nat} (hop : op < 16) (bits : BitVec 6) :
    encodeCmd op bits = BitVec.ofNat 32 (op + 16 * bits.toNat) := by
  have hbits := bits.isLt
  refine BitVec.eq_of_toNat_eq ?_
  rw [encodeCmd, BitVec.or_comm]
  simp (disch := omega) only [BitVec.toNat_or, BitVec.toNat_shiftLeft, BitVec.toNat_setWidth, BitVec.toNat_ofNat,
    Nat.mod_eq_of_lt]
  rw [← Nat.shiftLeft_add_eq_or_of_lt (i := 4) hop]
  omega

theorem decodeCmd_encode {i : Instr} (hf : formatOf i = .cmdw) (hi : wellFormed i = true) :
    decodeCmd (encode i) = .ok i := by
  cases i with
  | pack bits =>
    rw [encode, encodeCmd_eq_ofNat (by decide), decodeCmd_packWord (of_decide_eq_true hi), BitVec.ofNat_toNat,
      BitVec.setWidth_eq]
  | unpack bits =>
    rw [encode, encodeCmd_eq_ofNat (by decide), decodeCmd_unpackWord (of_decide_eq_true hi), BitVec.ofNat_toNat,
      BitVec.setWidth_eq]
  | s16enc | s16dec | pfdenc | pfddec => decide
  | _ => cases hf

/-- What the command decoder answers, by the fields of the word. -/
theorem decodeCmd_ok_cases {c : Word} {i : Instr} (h : decodeCmd c = .ok i) : field c 31 10 = 0 ∧
    (field c 3 0 = 1 ∧ field c 9 4 ≤ 32 ∧ i = .pack (BitVec.ofNat 6 (field c 9 4)) ∨
      field c 3 0 = 2 ∧ field c 9 4 ≤ 32 ∧ i = .unpack (BitVec.ofNat 6 (field c 9 4)) ∨
      field c 9 4 = 0 ∧ (field c 3 0 = 3 ∧ i = .s16enc ∨ field c 3 0 = 4 ∧ i = .s16dec ∨
        field c 3 0 = 5 ∧ i = .pfdenc ∨ field c 3 0 = 6 ∧ i = .pfddec)) := by
  rw [decodeCmd_eq] at h
  split_ifs at h <;> cases h <;> simp_all

/-- A word with no reserved bit set is the command word of its two fields. -/
theorem encodeCmd_eq_of_fields {c : Word} {op : Nat} {bits : BitVec 6} (hreserved : field c 31 10 = 0)
    (hop : field c 3 0 = op) (hbits : bits.toNat = field c 9 4) : encodeCmd op bits = c := by
  obtain ⟨hfreserved, hfop, hfbits⟩ := command_fields c
  rw [encodeCmd_eq_ofNat (by omega), hbits]
  refine BitVec.eq_of_toNat_eq ?_
  rw [BitVec.toNat_ofNat]
  omega

theorem toNat_ofNat_width {c : Word} (h : field c 9 4 ≤ 32) :
    (BitVec.ofNat 6 (field c 9 4)).toNat = field c 9 4 :=
  Nat.mod_eq_of_lt (by omega)

theorem wellFormed_and_encode_of_decodeCmd {c : Word} {i : Instr} (h : decodeCmd c = .ok i) :
    wellFormed i = true ∧ encode i = c := by
  obtain ⟨hreserved, ⟨hop, hbits, rfl⟩ | ⟨hop, hbits, rfl⟩ | ⟨hbits, hnoWidth⟩⟩ := decodeCmd_ok_cases h
  · have hwidth := toNat_ofNat_width hbits
    exact ⟨decide_eq_true (hwidth.trans_le hbits), encodeCmd_eq_of_fields hreserved hop hwidth⟩
  · have hwidth := toNat_ofNat_width hbits
    exact ⟨decide_eq_true (hwidth.trans_le hbits), encodeCmd_eq_of_fields hreserved hop hwidth⟩
  · obtain ⟨hop, rfl⟩ | ⟨hop, rfl⟩ | ⟨hop, rfl⟩ | ⟨hop, rfl⟩ := hnoWidth
    all_goals exact ⟨rfl, encodeCmd_eq_of_fields hreserved hop hbits.symm⟩

/-! ### The codeword (30_encoding.md R85 to R89) -/

/-- The sixteen rows of codewords are one family. -/
theorem exists_s16Instr_of_formatOf {i : Instr} (hf : formatOf i = .s16w) : ∃ k < 16, ∃ slots, i = s16Instr k slots := by
  cases i with
  | s16w0 slots => exact ⟨0, by decide, slots, rfl⟩
  | s16w1 slots => exact ⟨1, by decide, slots, rfl⟩
  | s16w2 slots => exact ⟨2, by decide, slots, rfl⟩
  | s16w3 slots => exact ⟨3, by decide, slots, rfl⟩
  | s16w4 slots => exact ⟨4, by decide, slots, rfl⟩
  | s16w5 slots => exact ⟨5, by decide, slots, rfl⟩
  | s16w6 slots => exact ⟨6, by decide, slots, rfl⟩
  | s16w7 slots => exact ⟨7, by decide, slots, rfl⟩
  | s16w8 slots => exact ⟨8, by decide, slots, rfl⟩
  | s16w9 slots => exact ⟨9, by decide, slots, rfl⟩
  | s16w10 slots => exact ⟨10, by decide, slots, rfl⟩
  | s16w11 slots => exact ⟨11, by decide, slots, rfl⟩
  | s16w12 slots => exact ⟨12, by decide, slots, rfl⟩
  | s16w13 slots => exact ⟨13, by decide, slots, rfl⟩
  | s16w14 slots => exact ⟨14, by decide, slots, rfl⟩
  | s16w15 slots => exact ⟨15, by decide, slots, rfl⟩
  | _ => cases hf

theorem decodeS16w_encode {i : Instr} (hf : formatOf i = .s16w) (hi : wellFormed i = true) :
    decodeS16w (encode i) = i := by
  obtain ⟨k, hk, slots, rfl⟩ := exists_s16Instr_of_formatOf hf
  rw [wellFormed_s16Instr hk] at hi
  rw [encode_s16Instr hk, decodeS16w_s16Format hk hi]

theorem wellFormed_decodeS16w (w : Word) : wellFormed (decodeS16w w) = true :=
  (wellFormed_s16Instr (s16Sel_lt w) _).trans (slotsFit_s16Split w)

theorem encode_decodeS16w (w : Word) : encode (decodeS16w w) = w :=
  (encode_s16Instr (s16Sel_lt w) _).trans (s16Format_s16Split w)

/-! ### The header (30_encoding.md R90, R94) -/

/-- A header is well-formed iff its fields are not reserved. -/
theorem wellFormed_pfdh (start : BitVec 10) (cat : BitVec 2) (widx : BitVec 4) :
    wellFormed (.pfdh start cat widx) = !headerReserved cat widx := by
  rw [headerReserved, Bool.not_or, Bool.and_comm]
  simp [wellFormed]

/-- The header decoder in terms of the reader's fields. -/
theorem decodePfdh_eq (w : Word) : decodePfdh w =
    if headerReserved (pfdHeaderOf w).cat (pfdHeaderOf w).widx then .error .headerReserved
    else .ok (.pfdh (pfdHeaderOf w).start (pfdHeaderOf w).cat (pfdHeaderOf w).widx) := rfl

theorem decodePfdh_ok_iff {w : Word} {i : Instr} : decodePfdh w = .ok i ↔
    headerReserved (pfdHeaderOf w).cat (pfdHeaderOf w).widx = false ∧
      .pfdh (pfdHeaderOf w).start (pfdHeaderOf w).cat (pfdHeaderOf w).widx = i := by
  rw [decodePfdh_eq]
  split
  · next hreserved => simp [hreserved]
  · next hfree => simp [hfree]

theorem decodePfdh_encode {i : Instr} (hf : formatOf i = .pfdh) (hi : wellFormed i = true) :
    decodePfdh (encode i) = .ok i := by
  cases i with
  | pfdh start cat widx =>
    rw [wellFormed_pfdh, Bool.not_eq_true'] at hi
    rw [encode, decodePfdh_ok_iff, pfdHeaderOf_encodePfdh]
    exact ⟨hi, rfl⟩
  | _ => cases hf

/-- Writing the fields of a header writes its ignored bits `[31:16]` 0. -/
theorem encodePfdh_pfdHeaderOf (w : Word) :
    encodePfdh (pfdHeaderOf w).start (pfdHeaderOf w).cat (pfdHeaderOf w).widx = w &&& (0xFFFF : Word) := by
  rw [show (0xFFFF : Word) = mask 16 from rfl]
  refine BitVec.eq_of_toNat_eq ?_
  rw [toNat_encodePfdh, toNat_and_mask _ (by decide)]
  simp only [pfdHeaderOf, toNat_extractLsb']
  omega

/-! ### The round trips -/

/-- Settles O4, one format at a time. -/
theorem decodeOfEncodeIsTheInstruction : Obligations.DecodeOfEncodeIsTheInstruction := by
  intro i hi
  cases hf : formatOf i with
  | cmdw => exact decodeCmd_encode hf hi
  | s16w => exact congrArg Except.ok (decodeS16w_encode hf hi)
  | pfdh => exact decodePfdh_encode hf hi

/-- Settles O5, one format at a time. -/
theorem encodeOfDecodeIsTheWord : Obligations.EncodeOfDecodeIsTheWord := by
  intro f w i h
  cases f with
  | cmdw =>
    obtain ⟨hwf, hword⟩ := wellFormed_and_encode_of_decodeCmd h
    exact ⟨hwf, formatOf_of_decodeCmd h, hword⟩
  | s16w =>
    cases h
    exact ⟨wellFormed_decodeS16w w, formatOf_s16Instr .., encode_decodeS16w w⟩
  | pfdh =>
    obtain ⟨hfree, rfl⟩ := decodePfdh_ok_iff.1 h
    exact ⟨(wellFormed_pfdh ..).trans (congrArg not hfree), rfl, encodePfdh_pfdHeaderOf w⟩

end Sys2Proof.Machine
end
